-- ==== Sys2Proof/Word.lean ====
section
/-! DEFINITION. The words of the gps-imu display block: bytes, 16-bit registers, 32-bit port words, and the one piece
of plain arithmetic the spec names, `ceil` (rule R10). -/

namespace Sys2Proof

/-- One byte: a framebuffer byte, a byte on the bus, a session identifier. -/
abbrev Byte := BitVec 8

/-- A 16-bit register: an operand latch, `OFS`, `NTX`, `ERRINFO`, `ERRPOS` (rule R20). -/
abbrev Half := BitVec 16

/-- A 32-bit word of the request port or the response port (rule R70). -/
abbrev Word := BitVec 32

/-- `ceil(a / b)`, which rule R10 defines as `(a + b - 1) / b`. -/
def ceilDiv (a b : Nat) : Nat := (a + b - 1) / b

end Sys2Proof
end

