-- ==== Sys2Proof/Config.lean ====
section
/-! DEFINITION. The configuration record `Cfg` of rules R6 to R9: what is fixed for one chip and is not state. Every
statement about the machine quantifies over it, because a state carries its configuration as a constant (log entry 1).
The reference values are those of rules R8, R92, R93 and R95. The two opaque constants at the end are the model's free
values (log entries 2 and 3): nothing can be proved about what they are. -/

namespace Sys2Proof

/-- `CmdEnc`, rule R92: the first byte of each controller command. For `CC_SET_START_LINE` it is the byte before the
line number is put into bits 5:0. -/
structure CmdEnc where
  displayOff       : Byte
  setClockDiv      : Byte
  setMultiplex     : Byte
  setDisplayOffset : Byte
  setStartLine     : Byte
  chargePump       : Byte
  setMemoryMode    : Byte
  segRemapReversed : Byte
  comScanReversed  : Byte
  setComPins       : Byte
  setContrast      : Byte
  setPrecharge     : Byte
  setVcomDeselect  : Byte
  normalDisplay    : Byte
  displayFollowRam : Byte
  deactivateScroll : Byte
  displayOn        : Byte
  setColumnWindow  : Byte
  setPageWindow    : Byte
  scrollRightCfg   : Byte
  scrollLeftCfg    : Byte
  activateScroll   : Byte
  deriving DecidableEq, Repr

/-- The reference values of rule R92 (the spec marks all of them as general knowledge, not the source's). -/
def CmdEnc.reference : CmdEnc where
  displayOff       := 0xAE
  setClockDiv      := 0xD5
  setMultiplex     := 0xA8
  setDisplayOffset := 0xD3
  setStartLine     := 0x40
  chargePump       := 0x8D
  setMemoryMode    := 0x20
  segRemapReversed := 0xA1
  comScanReversed  := 0xC8
  setComPins       := 0xDA
  setContrast      := 0x81
  setPrecharge     := 0xD9
  setVcomDeselect  := 0xDB
  normalDisplay    := 0xA6
  displayFollowRam := 0xA4
  deactivateScroll := 0x2E
  displayOn        := 0xAF
  setColumnWindow  := 0x21
  setPageWindow    := 0x22
  scrollRightCfg   := 0x26
  scrollLeftCfg    := 0x27
  activateScroll   := 0x2F

/-- `InitParams`, rule R93: the parameter byte of each two-byte initialisation command, and the start line. -/
structure InitParams where
  clockDiv      : Byte
  multiplex     : Byte
  displayOffset : Byte
  startLine     : BitVec 6
  chargePump    : Byte
  memoryMode    : Byte
  comPins       : Byte
  contrast      : Byte
  precharge     : Byte
  vcomDeselect  : Byte
  deriving DecidableEq, Repr

/-- The reference values of rule R93 for a panel of `h` rows: the multiplex ratio is `h - 1`, the one parameter tied to the
geometry by the source; the COM-pin byte is given beside it, since the rule names it for two heights only. -/
def InitParams.referenceWith (h : Nat) (comPins : Byte) : InitParams where
  clockDiv      := 0x80
  multiplex     := BitVec.ofNat 8 (h - 1)
  displayOffset := 0x00
  startLine     := 0
  chargePump    := 0x14
  memoryMode    := 0x02
  comPins       := comPins
  contrast      := 0x8F
  precharge     := 0xF1
  vcomDeselect  := 0x40

/-- The COM-pin byte of rule R93 by height: `0x02` for `H = 32`, `0x12` for `H = 64`. The rule gives no reference value for
any other height; there it is a parameter like the rest of `InitParams`. -/
def referenceComPins (h : Nat) : Option Byte :=
  if h = 32 then some 0x02 else if h = 64 then some 0x12 else none

/-- The reference parameters of rule R93 for a panel of `h` rows, where the rule gives all of them. -/
def InitParams.referenceFor (h : Nat) : Option InitParams := (referenceComPins h).map (InitParams.referenceWith h)

/-- The reference parameters of the reference instance, `H = 32` (rules R8 and R93). -/
def InitParams.reference : InitParams := InitParams.referenceWith 32 0x02

/-- `FIRST_INIT_FILL`, rule R8: what the framebuffer holds after the first initialisation. -/
inductive FirstInitFill where
  | zero
  | any
  deriving DecidableEq, Repr

/-- The configuration record, rules R6 to R8. `NPAT` is the length of `patterns`; `P` and `N` are derived
(`Cfg.pages`, `Cfg.fbSize`). `maxBlk` has the 16 bits of register 4 (rule R32, log entry 4). -/
structure Cfg where
  /-- `W`: pixels per row. -/
  w : Nat
  /-- `H`: pixels per column. -/
  h : Nat
  /-- `MAXBLK`: the transport's `maxBlockSize()`, sampled at reset, constant until the next (rules R7, R36). -/
  maxBlk : Half
  cmdEnc : CmdEnc
  initParams : InitParams
  /-- `CH_CMD`, `CH_DATA`: sub-addresses of the two channels (rule R90). -/
  chCmd : Byte
  chData : Byte
  /-- The fixed fields of the scroll-configuration command (rule R95). -/
  scrollStartPage : Byte
  scrollEndPage : Byte
  scrollInterval : Byte
  /-- `PATTERN[0 .. NPAT-1]`: the pattern ROM (rule R180). -/
  patterns : List (List Byte)
  allocAvailable : Bool
  firstInitFill : FirstInitFill
  deriving DecidableEq, Repr

/-- `P = H / 8`, rule R6. -/
def Cfg.pages (c : Cfg) : Nat := c.h / 8

/-- `N = (W * H) / 8`, rule R6: the framebuffer's length in bytes. -/
def Cfg.fbSize (c : Cfg) : Nat := c.w * c.h / 8

/-- `NPAT`, rule R8. -/
def Cfg.npat (c : Cfg) : Nat := c.patterns.length

/-- `CMD_MAX`, rule R8: the longest raw command a host may send; rule R9 has it equal to 7. -/
def cmdMax : Nat := 7

/-- The contents of the reference pattern ROM: byte `i` of pattern `k`. Rule R180: not one byte of either bitmap is in
the source, so it is a free value (log entry 2). -/
opaque Config.patternByte : Nat → Nat → Byte

/-- A byte of the framebuffer after a first initialisation with `FIRST_INIT_FILL = any` (rule R122: arbitrary), for the
given draw number and offset (log entry 3). -/
opaque Config.freeByte : Nat → Nat → Byte

/-- The reference instance of rules R6 to R8 with the two patterns of rule R180 left free. -/
def Cfg.reference : Cfg where
  w := 128
  h := 32
  maxBlk := 16
  cmdEnc := CmdEnc.reference
  initParams := InitParams.reference
  chCmd := 0x00
  chData := 0x40
  scrollStartPage := 0x00
  scrollEndPage := 0x07
  scrollInterval := 0x00
  patterns := (List.range 2).map fun k => (List.range 512).map fun i => Config.patternByte k i
  allocAvailable := true
  firstInitFill := .zero

end Sys2Proof
end

