-- ==== Sys2Proof/Machine/State.lean ====
section
/-! DEFINITION. The state of the block (rule R20), the observables (rule R13) and the inputs (rules R71, R214, R230) as plain
data; why a step can stop; the state after reset (rule R36). -/

namespace Sys2Proof.Machine

/-- `PHASE`, rule R24: the sequencer's position, the block's program counter. The codes 9 to 15 are never taken. -/
inductive Phase where
  | idle
  | initCmd
  | initFill
  | winCol
  | winPage
  | stream
  | scrollCfg
  | scrollAct
  | single
  deriving DecidableEq, Repr

/-- The 4-bit code of a phase, rule R24. -/
def Phase.code : Phase → BitVec 4
  | .idle => 0
  | .initCmd => 1
  | .initFill => 2
  | .winCol => 3
  | .winPage => 4
  | .stream => 5
  | .scrollCfg => 6
  | .scrollAct => 7
  | .single => 8

/-- The result codes of rule R200; 7 to 15 are never returned. -/
inductive ResultCode where
  | ok
  | transport
  | alloc
  | length
  | unalloc
  | illegal
  | halted
  deriving DecidableEq, Repr

/-- The 4-bit value of a result code, rule R200. -/
def ResultCode.bits : ResultCode → BitVec 4
  | .ok => 0
  | .transport => 1
  | .alloc => 2
  | .length => 3
  | .unalloc => 4
  | .illegal => 5
  | .halted => 6

/-- Which transport primitive carries a transaction, rule R12. -/
inductive TxKind where
  | byte
  | word
  | block
  deriving DecidableEq, Repr

/-- The two channels, rule R12. -/
inductive Channel where
  | cmd
  | data
  deriving DecidableEq, Repr

/-- A transaction, rule R90: `(kind, sid, ch, bytes)`. -/
structure Tx where
  kind : TxKind
  sid : Byte
  ch : Channel
  bytes : List Byte
  deriving DecidableEq, Repr

/-- The transport's answer to a transaction, rule R214. "No answer, ever" is the absence of one. -/
inductive Answer where
  | ok
  | fail (e : Half)
  deriving DecidableEq, Repr

/-- One entry of the bus trace, rule R13: a transaction, with the answer it got (none while it is in flight). -/
structure BusEntry where
  tx : Tx
  answer : Option Answer
  deriving DecidableEq, Repr

/-- `CBUF[0 .. 6]`, rule R28. -/
structure CBuf where
  b0 : Byte
  b1 : Byte
  b2 : Byte
  b3 : Byte
  b4 : Byte
  b5 : Byte
  b6 : Byte
  deriving DecidableEq, Repr

/-- The framebuffer, rule R22: offset and byte, offsets strictly rising, no entry holding what an unlisted offset reads as
(`Memory.unlisted`). -/
abbrev Memory := List Host.Cell

/-- Why a step stops. No instruction of the opcode table raises one: they stand for "the block has no step". -/
inductive Fault where
  /-- Raised by the answer step when `PEND = 1` and the transport answers no more: the hang of rule R220, "an execution
  in which the block has no step" (U4: `stuck`). Safe: the model stops where the block stays for ever. -/
  | transportHang
  /-- Raised by the issue step in `INIT_CMD` with `IDX` above 16, where rule R119 gives no transaction. No run reaches it
  (rule R37). Safe. -/
  | initIndexPastEnd
  /-- Raised by the issue step in `STREAM` with `OFS >= N`, where rule R113 enables no step. No run reaches it. Safe. -/
  | streamPastEnd
  /-- Raised by the issue step in `STREAM` with `FB_ALLOC = 0`, where rule R11 leaves `MemRead` undefined. No run reaches
  it. Safe. -/
  | streamWithoutFramebuffer
  /-- Raised by the issue step in `SINGLE` with `CLEN = 0`, where rule R91 gives no kind. No run reaches it. Safe. -/
  | emptyCommand
  /-- Raised by the answer step on `ok` in `IDLE` or `INIT_FILL`, which issue no transaction (rule R37 item 4). No run
  reaches it. Safe. -/
  | strayAnswer
  deriving DecidableEq, Repr

/-- Why a step has no meaning. -/
inductive Refusal where
  /-- Raised by `exec` for an instruction without a meaning; no arm does. Safe. -/
  | notModelled (mnemonic : String)
  /-- Raised by every step under a configuration that is not well formed: rule R9, "A model refuses a configuration that
  is not well formed: the spec gives it no meaning". Safe. -/
  | illFormedConfig
  deriving DecidableEq, Repr

/-- The whole machine. The first group is the state tuple of rule R20; then the observables of rule R13; then the inputs
of the step (rule R15); then the configuration and the model's own draw counter. -/
structure State where
  /-- `FB[0 .. N-1]`, rule R22. -/
  fb : Memory
  /-- `FB_ALLOC`, rule R23. -/
  fbAlloc : Bool
  /-- `x[0]` (`SID`), rule R21. -/
  x0 : Half
  /-- `x[1]` (`A`), rule R21. -/
  x1 : Half
  /-- `x[2]` (`B`), rule R21. -/
  x2 : Half
  /-- `x[3]` (`M`), rule R21. -/
  x3 : Half
  /-- `PHASE`, rule R24. -/
  phase : Phase
  /-- `IDX`, rule R25. -/
  idx : BitVec 5
  /-- `OFS`, rule R26. -/
  ofs : Half
  /-- `CBUF[0 .. 6]`, rule R28. -/
  cbuf : CBuf
  /-- `CLEN`, rule R28. -/
  clen : BitVec 3
  /-- `PEND`, rule R29. -/
  pend : Bool
  /-- `NTX`, rule R29. -/
  ntx : Half
  /-- `HALT`, rule R30. -/
  halt : Bool
  /-- `STICKY`, rule R30. -/
  sticky : Bool
  /-- `LAST`, rule R30. -/
  last : ResultCode
  /-- `ERRINFO`, rule R31. -/
  errInfo : Half
  /-- `ERRPOS`, rule R31. -/
  errPos : Half
  /-- The bus trace since reset, oldest first (rule R13 (a)). -/
  trace : List BusEntry
  /-- The response words since reset, oldest first (rule R13 (b)). -/
  responses : List Word
  /-- The words the host has presented and the block has not yet accepted (rules R70, R71), next first. -/
  requests : List Word
  /-- The answers the transport is going to give, next first (rule R214); where it ends, no answer ever comes. -/
  answers : List Answer
  /-- The reset event (rule R230), applied from outside, takes effect at the next step. -/
  resetLine : Bool
  /-- What the transport's `maxBlockSize()` reports (rule R7): an input, sampled into `MAXBLK` by a reset (rule R231). -/
  reportedMaxBlk : Half
  /-- `Cfg` of rules R6 to R9: constant, but for `MAXBLK` at a reset (log entry 1). -/
  cfg : Cfg
  /-- How many framebuffers of arbitrary content have been drawn: the model's own (log entry 3). -/
  draws : Nat
  deriving DecidableEq, Repr

/-- The state after reset under a configuration, rule R36: nothing presented, nothing answered. The registers whose reset
value the spec leaves unspecified (`x`, `CBUF`, `CLEN`, `FB`) hold zero (log entry 5). -/
def State.resetWith (c : Cfg) : State where
  fb := []
  fbAlloc := false
  x0 := 0
  x1 := 0
  x2 := 0
  x3 := 0
  phase := .idle
  idx := 0
  ofs := 0
  cbuf := ⟨0, 0, 0, 0, 0, 0, 0⟩
  clen := 0
  pend := false
  ntx := 0
  halt := false
  sticky := false
  last := .ok
  errInfo := 0
  errPos := 0
  trace := []
  responses := []
  requests := []
  answers := []
  resetLine := false
  reportedMaxBlk := c.maxBlk
  cfg := c
  draws := 0

/-- The reference machine right after reset (rules R8 and R36). -/
def State.reset : State := State.resetWith Cfg.reference

end Sys2Proof.Machine
end

