-- ==== Sys2Proof/Machine/Flags.lean ====
section
/-! DEFINITION. The status flags and what reads them: `STATUS` (rule R33), the two status outputs (rule R71), and the record
of a completion (rule R205). The block has no condition codes (rule R30). -/

namespace Sys2Proof.Machine

/-- `BUSY`, and the `busy` output, rules R30 and R71: `PHASE != 0`. -/
def State.busy (s : State) : Bool := s.phase != .idle

/-- The `halt` output, rule R71. -/
def State.haltOut (s : State) : Bool := s.halt

/-- One bit of a register. -/
def flagBit (b : Bool) : BitVec 1 := if b then 1 else 0

/-- `STATUS`, rule R33: `BUSY` 0, `HALT` 1, `FB_ALLOC` 2, `STICKY` 3, `LAST` 7:4, the rest zero. -/
def statusWord (s : State) : Half :=
  0#8 ++ s.last.bits ++ flagBit s.sticky ++ flagBit s.fbAlloc ++ flagBit s.halt ++ flagBit s.busy

/-- The first two effects of `respond`, rule R205: `LAST <- code`; `STICKY <- 1` unless the code is `E_OK`. -/
def recordCode (code : ResultCode) (s : State) : State :=
  { s with last := code, sticky := s.sticky || decide (code ≠ .ok) }

/-- The response word `RSP`, rule R80. -/
def responseWord (code : ResultCode) (value : Half) : Word := code.bits ++ 0#12 ++ value

end Sys2Proof.Machine
end

