-- ==== Sys2Proof/Syntax.lean ====
section
/-! DEFINITION. The syntax, whole: one constructor for every row of `spec/opcode_table.json`, in the table's order. The
eleven host requests and the five reserved opcodes are what the host puts on the request port (rules R72 to R79); the
twenty-two controller commands are what the sequencer puts on the bus (rules R92 to R95). -/

namespace Sys2Proof

inductive Instr where
  -- host requests, format G unless said
  /-- `INIT sid`, rule R117. -/
  | init (sid : Byte)
  /-- `AWAKE sid, on`, rule R126. -/
  | awake (sid : Byte) (on : Bool)
  /-- `SCROLL sid, dir`, rule R129: 0 off, 1 right, 2 left, every other value a no-op. -/
  | scroll (sid : Byte) (dir : Half)
  /-- `WRCMD sid, b0 ...`, rule R111: `LEN` is the length of the payload. -/
  | wrcmd (sid : Byte) (pay : List Byte)
  /-- `PLOT x, y, mode`, rule R141, format P: mode 0 clear, 1 set, 2 invert, 3 reserved. -/
  | plot (mode : BitVec 2) (x y : BitVec 12)
  /-- `LOAD b0, ...`, rule R146: `LEN` is the length of the payload. -/
  | load (pay : List Byte)
  /-- `LOADROM k`, rule R181. -/
  | loadrom (k : Half)
  /-- `CLEAR`, rule R150. -/
  | clear
  /-- `PUSH sid`, rule R161. -/
  | push (sid : Byte)
  /-- `RDFB ofs`, rule R190. -/
  | rdfb (ofs : Half)
  /-- `RDREG reg`, rule R192: the legal registers are 0 to 7. -/
  | rdreg (reg : BitVec 3)
  -- reserved opcodes, rule R79: `x` is bits 27:0, any value
  | reserved0 (x : BitVec 28)
  | reservedC (x : BitVec 28)
  | reservedD (x : BitVec 28)
  | reservedE (x : BitVec 28)
  | reservedF (x : BitVec 28)
  -- controller commands, rule R92: `p` is the parameter byte
  | ccDisplayOff
  | ccSetClockDiv (p : Byte)
  | ccSetMultiplex (p : Byte)
  | ccSetDisplayOffset (p : Byte)
  | ccSetStartLine (line : BitVec 6)
  | ccChargePump (p : Byte)
  | ccSetMemoryMode (p : Byte)
  | ccSegRemapReversed
  | ccComScanReversed
  | ccSetComPins (p : Byte)
  | ccSetContrast (p : Byte)
  | ccSetPrecharge (p : Byte)
  | ccSetVcomDeselect (p : Byte)
  | ccNormalDisplay
  | ccDisplayFollowRam
  | ccDeactivateScroll
  | ccDisplayOn
  /-- Rule R94: `columnWindow(first, last)`. -/
  | ccSetColumnWindow (first last : Byte)
  /-- Rule R94: `pageWindow(first, last)`. -/
  | ccSetPageWindow (first last : Byte)
  /-- Rule R95, the fields in the order of the seven bytes. -/
  | ccScrollRightCfg (fill0 startPage interval endPage fill1 fill2 : Byte)
  /-- Rule R95, the fields in the order of the seven bytes. -/
  | ccScrollLeftCfg (fill0 startPage interval endPage fill1 fill2 : Byte)
  | ccActivateScroll
  deriving DecidableEq, Repr

/-- The row is a controller command of rule R92 (else it is a word of the request port). -/
def Instr.isCommand : Instr → Bool
  | .init _ | .awake _ _ | .scroll _ _ | .wrcmd _ _ | .plot _ _ _ | .load _ | .loadrom _ | .clear | .push _
  | .rdfb _ | .rdreg _ | .reserved0 _ | .reservedC _ | .reservedD _ | .reservedE _ | .reservedF _ => false
  | .ccDisplayOff | .ccSetClockDiv _ | .ccSetMultiplex _ | .ccSetDisplayOffset _ | .ccSetStartLine _
  | .ccChargePump _ | .ccSetMemoryMode _ | .ccSegRemapReversed | .ccComScanReversed | .ccSetComPins _
  | .ccSetContrast _ | .ccSetPrecharge _ | .ccSetVcomDeselect _ | .ccNormalDisplay | .ccDisplayFollowRam
  | .ccDeactivateScroll | .ccDisplayOn | .ccSetColumnWindow _ _ | .ccSetPageWindow _ _
  | .ccScrollRightCfg _ _ _ _ _ _ | .ccScrollLeftCfg _ _ _ _ _ _ | .ccActivateScroll => true

end Sys2Proof
end

