-- ==== Sys2Proof/WellFormed.lean ====
section
/-! DEFINITION. What is well formed: a configuration (rule R9) and an instruction (its operands fit the fields of its
encoding, rules R73 to R77 and R95). Whether a well-formed request is LEGAL (rule R78) is the business of its
meaning, which refuses it with `E_ILLEGAL`. -/

namespace Sys2Proof

/-- Rule R9. `MAXBLK >= CMD_MAX = 7` and "every `PATTERN[k]` has exactly `N` bytes" among them. -/
abbrev Cfg.WellFormed (c : Cfg) : Prop :=
  1 ≤ c.w ∧ c.w ≤ 256 ∧ 8 ≤ c.h ∧ c.h ≤ 256 ∧ c.h % 8 = 0 ∧ cmdMax ≤ c.maxBlk.toNat ∧ 2 ≤ c.npat ∧
    (∀ p ∈ c.patterns, p.length = c.fbSize) ∧ c.chCmd ≠ c.chData

/-- The constant bytes of the scroll-configuration command, rule R95: `0x00`, `0x00` and `0xFF`. -/
abbrev scrollFillers (fill0 fill1 fill2 : Byte) : Prop := fill0 = 0x00 ∧ fill1 = 0x00 ∧ fill2 = 0xFF

/-- The operands fit their encoding: a payload length fits the sixteen bits of `ARG` (rule R75), and the filler bytes of
a scroll configuration are the constants of rule R95. Every other operand's type is its field's width. -/
def Instr.wf : Instr → Bool
  | .wrcmd _ pay => decide (pay.length < 65536)
  | .load pay => decide (pay.length < 65536)
  | .ccScrollRightCfg f0 _ _ _ f1 f2 => decide (scrollFillers f0 f1 f2)
  | .ccScrollLeftCfg f0 _ _ _ f1 f2 => decide (scrollFillers f0 f1 f2)
  | .init _ | .awake _ _ | .scroll _ _ | .plot _ _ _ | .loadrom _ | .clear | .push _ | .rdfb _ | .rdreg _
  | .reserved0 _ | .reservedC _ | .reservedD _ | .reservedE _ | .reservedF _ => true
  | .ccDisplayOff | .ccSetClockDiv _ | .ccSetMultiplex _ | .ccSetDisplayOffset _ | .ccSetStartLine _
  | .ccChargePump _ | .ccSetMemoryMode _ | .ccSegRemapReversed | .ccComScanReversed | .ccSetComPins _
  | .ccSetContrast _ | .ccSetPrecharge _ | .ccSetVcomDeselect _ | .ccNormalDisplay | .ccDisplayFollowRam
  | .ccDeactivateScroll | .ccDisplayOn | .ccSetColumnWindow _ _ | .ccSetPageWindow _ _ | .ccActivateScroll => true

/-- The one-byte command codes other than the start line's. -/
def CmdEnc.oneByte (c : CmdEnc) : List Byte :=
  [c.displayOff, c.segRemapReversed, c.comScanReversed, c.normalDisplay, c.displayFollowRam, c.deactivateScroll,
   c.displayOn, c.activateScroll]

/-- The two-byte command codes. -/
def CmdEnc.twoByte (c : CmdEnc) : List Byte :=
  [c.setClockDiv, c.setMultiplex, c.setDisplayOffset, c.chargePump, c.setMemoryMode, c.setComPins, c.setContrast,
   c.setPrecharge, c.setVcomDeselect]

/-- A command table under which no two controller commands of one length share a first byte, so that a byte list names
at most one command: the codes differ, and the 64 bytes of `CC_SET_START_LINE` (match and mask of its table row: the
upper two bits) hold none of the other one-byte codes. The reference table has this; rule R9 does not ask it of every
table, and no step needs it. -/
abbrev CmdEnc.Unambiguous (c : CmdEnc) : Prop :=
  c.oneByte.Nodup ∧ c.twoByte.Nodup ∧ c.setStartLine &&& 0x3F = 0 ∧ (∀ b ∈ c.oneByte, b &&& 0xC0 ≠ c.setStartLine) ∧
    c.setColumnWindow ≠ c.setPageWindow ∧ c.scrollRightCfg ≠ c.scrollLeftCfg

end Sys2Proof
end

