-- ==== Sys2Proof/Decode.lean ====
section
/-! DEFINITION. The two encodings of `30_encoding.md`: request words on the host port (rules R72 to R79) and controller
command bytes on the bus (rules R92 to R95). First the decoder, total on any words and any bytes, rejecting by name;
then the encoder, written from the same tables; then the reading of a word of `spec/opcode_table.json`. -/

namespace Sys2Proof

/-- What is decoded: a request word with its payload words, or the bytes of one controller command. -/
inductive Code where
  | request (w : Word) (pay : List Word)
  | command (bytes : List Byte)
  deriving DecidableEq, Repr

/-- Why a word is no instruction of the table. On the request port each of these is an illegal request (rule R79), which
the machine answers with `E_ILLEGAL`; none of them stops it. -/
inductive DecodeReject where
  /-- Field `Z` of rule R73 or R74 is not zero. -/
  | zNotZero
  /-- `SID` is not zero in a request that takes no session (rule R78). -/
  | sidNotZero
  /-- `ARG` is outside what the row's encoding admits (rule R78: `INIT`, `AWAKE`, `CLEAR`, `PUSH`, `RDREG`). -/
  | argNotAdmitted
  /-- The number of payload words is not the one of rule R75. -/
  | payloadCount
  /-- The bytes are no controller command of rule R92. -/
  | notACommand
  deriving DecidableEq, Repr

/-! ## Fields of a request word -/

/-- `OPC`, bits 31:28 (rule R72). -/
def wordOpc (w : Word) : BitVec 4 := w.extractLsb' 28 4
/-- `Z` of format G, bits 27:24 (rule R73). -/
def wordZG (w : Word) : BitVec 4 := w.extractLsb' 24 4
/-- `SID`, bits 23:16 (rule R73). -/
def wordSid (w : Word) : Byte := w.extractLsb' 16 8
/-- `ARG`, bits 15:0 (rule R73). -/
def wordArg (w : Word) : Half := w.extractLsb' 0 16
/-- `Z` of format P, bits 27:26 (rule R74). -/
def wordZP (w : Word) : BitVec 2 := w.extractLsb' 26 2
/-- `MODE`, bits 25:24 (rule R74). -/
def wordMode (w : Word) : BitVec 2 := w.extractLsb' 24 2
/-- `X`, bits 23:12 (rule R74). -/
def wordX (w : Word) : BitVec 12 := w.extractLsb' 12 12
/-- `Y`, bits 11:0 (rule R74). -/
def wordY (w : Word) : BitVec 12 := w.extractLsb' 0 12
/-- Bits 27:0 of a reserved opcode. -/
def wordRest (w : Word) : BitVec 28 := w.extractLsb' 0 28

/-! ## Length and payload of a request -/

/-- Rule R75: how many payload words follow the first word, by `OPC` and `ARG` alone. -/
def payloadWords (w : Word) : Nat :=
  if wordOpc w = 0x4 ∨ wordOpc w = 0x6 then ceilDiv (wordArg w).toNat 4 else 0

/-- The first `n` elements and the rest, or nothing where there are fewer. -/
def takeExactly {α : Type} : Nat → List α → Option (List α × List α)
  | 0, l => some ([], l)
  | _ + 1, [] => none
  | n + 1, a :: l =>
    match takeExactly n l with
    | none => none
    | some (p, r) => some (a :: p, r)

/-- The next whole request of the port (rules R71 and R75): its first word, its payload words, and what follows; nothing
where the host has not yet presented all of it. -/
def fetchRequest : List Word → Option (Word × List Word × List Word)
  | [] => none
  | w :: rest =>
    match takeExactly (payloadWords w) rest with
    | none => none
    | some (p, r) => some (w, p, r)

/-- The four bytes of a payload word, rule R77: byte `i` is bits `8*i + 7` to `8*i`. -/
def wordBytes (w : Word) : List Byte :=
  [w.extractLsb' 0 8, w.extractLsb' 8 8, w.extractLsb' 16 8, w.extractLsb' 24 8]

/-- Rule R77: the payload's first `len` bytes; the positions at or beyond `len` are ignored. -/
def unpackPayload (len : Nat) (pay : List Word) : List Byte := (pay.flatMap wordBytes).take len

/-! ## The decoder of request words -/

/-- A check of format G that fails by name, in the order of rule R207 step 2: `Z`, then `SID` where it must be zero,
then `ARG`. -/
def checkG (w : Word) (sidFree : Bool) (argOk : Bool) (i : Instr) : Except DecodeReject Instr :=
  if wordZG w ≠ 0 then .error .zNotZero
  else if !sidFree && wordSid w != 0 then .error .sidNotZero
  else if !argOk then .error .argNotAdmitted
  else .ok i

/-- The row a request word belongs to, rules R72 to R79. -/
def decodeRequest (w : Word) (pay : List Word) : Except DecodeReject Instr :=
  if pay.length ≠ payloadWords w then .error .payloadCount
  else
    match (wordOpc w).toNat with
    | 0x0 => .ok (.reserved0 (wordRest w))
    | 0x1 => checkG w true (wordArg w == 0) (.init (wordSid w))
    | 0x2 => checkG w true (decide ((wordArg w).toNat ≤ 1)) (.awake (wordSid w) (wordArg w == 1))
    | 0x3 => checkG w true true (.scroll (wordSid w) (wordArg w))
    | 0x4 => checkG w true true (.wrcmd (wordSid w) (unpackPayload (wordArg w).toNat pay))
    | 0x5 => if wordZP w ≠ 0 then .error .zNotZero else .ok (.plot (wordMode w) (wordX w) (wordY w))
    | 0x6 => checkG w false true (.load (unpackPayload (wordArg w).toNat pay))
    | 0x7 => checkG w false true (.loadrom (wordArg w))
    | 0x8 => checkG w false (wordArg w == 0) .clear
    | 0x9 => checkG w true (wordArg w == 0) (.push (wordSid w))
    | 0xA => checkG w false true (.rdfb (wordArg w))
    | 0xB => checkG w false (decide ((wordArg w).toNat ≤ 7)) (.rdreg (w.extractLsb' 0 3))
    | 0xC => .ok (.reservedC (wordRest w))
    | 0xD => .ok (.reservedD (wordRest w))
    | 0xE => .ok (.reservedE (wordRest w))
    | _ => .ok (.reservedF (wordRest w))

/-! ## The decoder of controller commands -/

/-- The one-byte commands of rule R92, less the start line, by their byte. -/
def oneByteRows (c : CmdEnc) : List (Byte × Instr) :=
  [(c.displayOff, .ccDisplayOff), (c.segRemapReversed, .ccSegRemapReversed), (c.comScanReversed, .ccComScanReversed),
   (c.normalDisplay, .ccNormalDisplay), (c.displayFollowRam, .ccDisplayFollowRam),
   (c.deactivateScroll, .ccDeactivateScroll), (c.displayOn, .ccDisplayOn), (c.activateScroll, .ccActivateScroll)]

/-- The two-byte commands of rule R92 with parameter byte `p`, by their first byte. -/
def twoByteRows (c : CmdEnc) (p : Byte) : List (Byte × Instr) :=
  [(c.setClockDiv, .ccSetClockDiv p), (c.setMultiplex, .ccSetMultiplex p), (c.setDisplayOffset, .ccSetDisplayOffset p),
   (c.chargePump, .ccChargePump p), (c.setMemoryMode, .ccSetMemoryMode p), (c.setComPins, .ccSetComPins p),
   (c.setContrast, .ccSetContrast p), (c.setPrecharge, .ccSetPrecharge p), (c.setVcomDeselect, .ccSetVcomDeselect p)]

/-- The byte of `CC_SET_START_LINE`, rule R92: `[c | line]`, the line in bits 5:0. -/
def startLineByte (c : CmdEnc) (line : BitVec 6) : Byte := c.setStartLine ||| line.setWidth 8

/-- The command a byte list is, rules R92, R94 and R95: the length and the first byte decide. -/
def decodeCommand (c : CmdEnc) : List Byte → Option Instr
  | [b] =>
    match (oneByteRows c).lookup b with
    | some i => some i
    | none =>
      if startLineByte c (b.extractLsb' 0 6) = b then some (.ccSetStartLine (b.extractLsb' 0 6)) else none
  | [b, p] => (twoByteRows c p).lookup b
  | [b, first, last] =>
    if b = c.setColumnWindow then some (.ccSetColumnWindow first last)
    else if b = c.setPageWindow then some (.ccSetPageWindow first last)
    else none
  | [b, f0, sp, iv, ep, f1, f2] =>
    if b = c.scrollRightCfg then some (.ccScrollRightCfg f0 sp iv ep f1 f2)
    else if b = c.scrollLeftCfg then some (.ccScrollLeftCfg f0 sp iv ep f1 f2)
    else none
  | _ => none

/-- The whole decoder: total, rejecting by name. -/
def decode (c : CmdEnc) : Code → Except DecodeReject Instr
  | .request w pay => decodeRequest w pay
  | .command bytes =>
    match decodeCommand c bytes with
    | some i => .ok i
    | none => .error .notACommand

/-! ## The encoder -/

/-- A word of format G, rule R73, with `Z = 0`. -/
def gWord (opc : BitVec 4) (sid : Byte) (arg : Half) : Word := opc ++ 0#4 ++ sid ++ arg

/-- A word of format P, rule R74, with `Z = 0`. -/
def pWord (mode : BitVec 2) (x y : BitVec 12) : Word := 0x5#4 ++ 0#2 ++ mode ++ x ++ y

/-- Rule R77: four bytes a word, the first in bits 7:0; unused positions of the last word are zero. -/
def packPayload : List Byte → List Word
  | [] => []
  | [a] => [0#8 ++ 0#8 ++ 0#8 ++ a]
  | [a, b] => [0#8 ++ 0#8 ++ b ++ a]
  | [a, b, c] => [0#8 ++ c ++ b ++ a]
  | a :: b :: c :: d :: rest => (d ++ c ++ b ++ a) :: packPayload rest

/-- `LEN` of a payload, as the sixteen bits of `ARG`. -/
def payloadLen (pay : List Byte) : Half := BitVec.ofNat 16 pay.length

/-- The bytes of a controller command, rules R92, R94 and R95; no bytes for a request. -/
def encodeCommand (c : CmdEnc) : Instr → List Byte
  | .ccDisplayOff => [c.displayOff]
  | .ccSetClockDiv p => [c.setClockDiv, p]
  | .ccSetMultiplex p => [c.setMultiplex, p]
  | .ccSetDisplayOffset p => [c.setDisplayOffset, p]
  | .ccSetStartLine line => [startLineByte c line]
  | .ccChargePump p => [c.chargePump, p]
  | .ccSetMemoryMode p => [c.setMemoryMode, p]
  | .ccSegRemapReversed => [c.segRemapReversed]
  | .ccComScanReversed => [c.comScanReversed]
  | .ccSetComPins p => [c.setComPins, p]
  | .ccSetContrast p => [c.setContrast, p]
  | .ccSetPrecharge p => [c.setPrecharge, p]
  | .ccSetVcomDeselect p => [c.setVcomDeselect, p]
  | .ccNormalDisplay => [c.normalDisplay]
  | .ccDisplayFollowRam => [c.displayFollowRam]
  | .ccDeactivateScroll => [c.deactivateScroll]
  | .ccDisplayOn => [c.displayOn]
  | .ccSetColumnWindow first last => [c.setColumnWindow, first, last]
  | .ccSetPageWindow first last => [c.setPageWindow, first, last]
  | .ccScrollRightCfg f0 sp iv ep f1 f2 => [c.scrollRightCfg, f0, sp, iv, ep, f1, f2]
  | .ccScrollLeftCfg f0 sp iv ep f1 f2 => [c.scrollLeftCfg, f0, sp, iv, ep, f1, f2]
  | .ccActivateScroll => [c.activateScroll]
  | .init _ | .awake _ _ | .scroll _ _ | .wrcmd _ _ | .plot _ _ _ | .load _ | .loadrom _ | .clear | .push _
  | .rdfb _ | .rdreg _ | .reserved0 _ | .reservedC _ | .reservedD _ | .reservedE _ | .reservedF _ => []

/-- The encoder, rules R73 to R77, R81, R92, R94, R95: what `decode` reads back. -/
def encode (c : CmdEnc) (i : Instr) : Code :=
  match i with
  | .init sid => .request (gWord 0x1 sid 0) []
  | .awake sid on => .request (gWord 0x2 sid (if on then 1 else 0)) []
  | .scroll sid dir => .request (gWord 0x3 sid dir) []
  | .wrcmd sid pay => .request (gWord 0x4 sid (payloadLen pay)) (packPayload pay)
  | .plot mode x y => .request (pWord mode x y) []
  | .load pay => .request (gWord 0x6 0 (payloadLen pay)) (packPayload pay)
  | .loadrom k => .request (gWord 0x7 0 k) []
  | .clear => .request (gWord 0x8 0 0) []
  | .push sid => .request (gWord 0x9 sid 0) []
  | .rdfb ofs => .request (gWord 0xA 0 ofs) []
  | .rdreg reg => .request (gWord 0xB 0 (reg.setWidth 16)) []
  | .reserved0 x => .request (0x0#4 ++ x) []
  | .reservedC x => .request (0xC#4 ++ x) []
  | .reservedD x => .request (0xD#4 ++ x) []
  | .reservedE x => .request (0xE#4 ++ x) []
  | .reservedF x => .request (0xF#4 ++ x) []
  | .ccDisplayOff | .ccSetClockDiv _ | .ccSetMultiplex _ | .ccSetDisplayOffset _ | .ccSetStartLine _
  | .ccChargePump _ | .ccSetMemoryMode _ | .ccSegRemapReversed | .ccComScanReversed | .ccSetComPins _
  | .ccSetContrast _ | .ccSetPrecharge _ | .ccSetVcomDeselect _ | .ccNormalDisplay | .ccDisplayFollowRam
  | .ccDeactivateScroll | .ccDisplayOn | .ccSetColumnWindow _ _ | .ccSetPageWindow _ _
  | .ccScrollRightCfg _ _ _ _ _ _ | .ccScrollLeftCfg _ _ _ _ _ _ | .ccActivateScroll =>
    .command (encodeCommand c i)

/-- The words the host presents for a code: the first word, then the payload; a command has none. -/
def Code.words : Code → List Word
  | .request w pay => w :: pay
  | .command _ => []

/-! ## A word of the opcode table -/

/-- How many bytes a controller command has, by its first byte (rule R92's column of total bytes); 1 for a byte that
begins no command. -/
def commandLength (c : CmdEnc) (b : Byte) : Nat :=
  if b ∈ c.twoByte then 2
  else if b = c.setColumnWindow ∨ b = c.setPageWindow then 3
  else if b = c.scrollRightCfg ∨ b = c.scrollLeftCfg then 7
  else 1

/-- `n` bytes of a number, the least significant first. -/
def numBytes (n w : Nat) : List Byte := (List.range n).map fun i => BitVec.ofNat 8 (w >>> (8 * i))

/-- `n` words of a number, the least significant first. -/
def numWords (n w : Nat) : List Word := (List.range n).map fun i => BitVec.ofNat 32 (w >>> (32 * i))

/-- The row is one of the request port: the table gives such rows words of 32 bits, and the controller commands bytes. -/
def isRequestWidth (nbits : Nat) : Bool := nbits % 32 == 0 && nbits != 0

/-- The code a table word stands for: on the request port its first word and as many payload words as rule R75 asks; on
the bus its first byte and as many bytes as the command has; all bits the number does not give are zero. -/
def tableCode (c : CmdEnc) (nbits w : Nat) : Code :=
  if isRequestWidth nbits then
    let first : Word := BitVec.ofNat 32 w
    .request first (numWords (payloadWords first) (w >>> 32))
  else
    .command (numBytes (commandLength c (BitVec.ofNat 8 w)) w)

/-- The instruction the decoder reads from a word of `spec/opcode_table.json`, under the reference command table. -/
def decodeTableWord (nbits w : Nat) : Option Instr :=
  match decode CmdEnc.reference (tableCode CmdEnc.reference nbits w) with
  | .ok i => some i
  | .error _ => none

end Sys2Proof
end

