-- ==== Sys2Proof/Machine/Operands.lean ====
section
/-! DEFINITION. Operands: the latches decoding writes (rule R76), the session (rule R27), the command buffer (rule R28), and
the translation of a pixel coordinate (rules R54 to R56). -/

namespace Sys2Proof.Machine

/-- Decoding a word of format G, rule R76: the latches and `NTX`. -/
def latchG (sid : Byte) (arg : Half) (s : State) : State :=
  { s with x0 := sid.setWidth 16, x1 := arg, x2 := 0, x3 := 0, ntx := 0 }

/-- Decoding a word of format P, rule R76: the latches and `NTX`. -/
def latchP (mode : BitVec 2) (x y : BitVec 12) (s : State) : State :=
  { s with x0 := 0, x1 := x.setWidth 16, x2 := y.setWidth 16, x3 := mode.setWidth 16, ntx := 0 }

/-- Decoding any word, legal or not, rule R76: format P for `OPC = 0x5`, else format G (a reserved `OPC` too). -/
def latchWord (w : Word) (s : State) : State :=
  if wordOpc w = 0x5 then latchP (wordMode w) (wordX w) (wordY w) s else latchG (wordSid w) (wordArg w) s

/-- The session of the request in execution, rule R27: the eight bits of `SID` in latch `x[0]`. -/
def sessionOf (s : State) : Byte := s.x0.setWidth 8

/-- The seven bytes of `CBUF`, in order. -/
def CBuf.toList (b : CBuf) : List Byte := [b.b0, b.b1, b.b2, b.b3, b.b4, b.b5, b.b6]

/-- `CBUF[i] <- bs[i]` for `i` below the length of `bs` (rule R112); the other bytes keep their value. -/
def CBuf.load (b : CBuf) (bs : List Byte) : CBuf where
  b0 := bs.getD 0 b.b0
  b1 := bs.getD 1 b.b1
  b2 := bs.getD 2 b.b2
  b3 := bs.getD 3 b.b3
  b4 := bs.getD 4 b.b4
  b5 := bs.getD 5 b.b5
  b6 := bs.getD 6 b.b6

/-- `CBUF[0 .. CLEN-1]`, rule R28. -/
def commandBuffer (s : State) : List Byte := s.cbuf.toList.take s.clen.toNat

/-- `Translate(x, y)`, rule R54: the byte offset and the bit of a pixel. -/
def pixelAddress (c : Cfg) (x y : Nat) : Nat × Nat := (y / 8 * c.w + x, y % 8)

/-- `Pixel(ofs, bit)`, rule R56: the coordinates of a bit of the framebuffer. -/
def pixelAt (c : Cfg) (ofs bit : Nat) : Nat × Nat := (ofs % c.w, 8 * (ofs / c.w) + bit)

/-- The bounds rule, rule R55: the coordinate lies outside the display. -/
def offDisplay (c : Cfg) (x y : Nat) : Bool := decide (c.w ≤ x) || decide (c.h ≤ y)

/-- The mask of rule R141: `1 << bit` on eight bits. -/
def bitMask (bit : Nat) : Byte := 1#8 <<< bit

/-- The new byte of rule R141: clear (`AND NOT`), set (`OR`), invert (`XOR`). Mode 3 does not reach here. -/
def applyMode (mode : BitVec 2) (m old : Byte) : Byte :=
  if mode = 0 then old &&& ~~~m else if mode = 1 then old ||| m else old ^^^ m

/-- The kind of a command-channel transaction by the length of its bytes, rule R91. -/
def kindOf (bs : List Byte) : TxKind :=
  match bs.length with
  | 1 => .byte
  | 2 => .word
  | _ => .block

end Sys2Proof.Machine
end

