-- ==== Sys2Proof/Machine/Ops.lean ====
section
/-! DEFINITION. The named operations: framebuffer reads and writes, `respond` (rule R205), `raise` (rules R200 to R208: the
one operation by which every exception is taken), the gates every request passes (rule R207), the issue of a transaction
(rule R113), and reset (rule R231). -/

namespace Sys2Proof.Machine

/-- What one instruction or one step answers. -/
abbrev Outcome := Host.Outcome State Fault Refusal

/-! ## The framebuffer -/

/-- What an unlisted offset of the framebuffer reads as (log entry 6). -/
def Memory.unlisted : Byte := 0x00

/-- One byte, `FB[a]` (rule R11). -/
def readByte : Memory → Nat → Byte
  | [], _ => Memory.unlisted
  | (k, v) :: m, a => if k = a then v else readByte m a

/-- `MemRead(a, n)`, rule R11: `n` bytes from offset `a`, lowest first. -/
def readBytes (m : Memory) (a : Nat) : Nat → List Byte
  | 0 => []
  | n + 1 => readByte m a :: readBytes m (a + 1) n

/-- The entries of a byte list placed at offset `a`. -/
def cellsAt (a : Nat) : List Byte → Memory
  | [] => []
  | b :: bs => if b = Memory.unlisted then cellsAt (a + 1) bs else (a, b) :: cellsAt (a + 1) bs

/-- `MemWrite(a, n, bs)` with `n` the length of `bs`, rule R11; the canonical form is kept. -/
def writeBytes (m : Memory) (a : Nat) (bs : List Byte) : Memory :=
  m.filter (fun e => e.1 < a) ++ cellsAt a bs ++ m.filter (fun e => a + bs.length ≤ e.1)

/-- The canonical form: offsets strictly rising, and no entry equal to what an unlisted offset reads as. -/
abbrev Memory.wf (m : Memory) : Prop :=
  (m.map Prod.fst).Pairwise (· < ·) ∧ ∀ e ∈ m, e.2 ≠ Memory.unlisted

/-- Overwriting the whole framebuffer, `MemWrite(0, N, bs)` (rules R117, R146, R150, R181). -/
def overwriteFb (bs : List Byte) (s : State) : State := { s with fb := writeBytes s.fb 0 bs }

/-- `N` zero bytes (rules R117 and R150). -/
def zeroBytes (c : Cfg) : List Byte := List.replicate c.fbSize 0x00

/-- `N` arbitrary bytes (rule R122 with `FIRST_INIT_FILL = any`): the free values of draw number `k`. -/
def freeBytes (c : Cfg) (k : Nat) : List Byte := (List.range c.fbSize).map fun i => Config.freeByte k i

/-! ## Completing a request, and taking an exception -/

/-- `respond(code, value)`, rule R205: the record, the response word, and the block ready for the next request. -/
def respond (code : ResultCode) (value : Half) (s : State) : State :=
  let t := recordCode code s
  { t with responses := t.responses ++ [responseWord code value], phase := .idle, pend := false }

/-- The exceptions of rule R200. -/
inductive Exn where
  | transportFail (e : Half)
  | allocFail
  | lengthMismatch
  | fbUnallocated
  | illegalRequest
  | haltedRequest
  deriving DecidableEq, Repr

/-- The result code of an exception, rule R200. -/
def Exn.resultCode : Exn → ResultCode
  | .transportFail _ => .transport
  | .allocFail => .alloc
  | .lengthMismatch => .length
  | .fbUnallocated => .unalloc
  | .illegalRequest => .illegal
  | .haltedRequest => .halted

/-- The class of an exception, rule R200: the three fatal ones set `HALT`. -/
def Exn.fatal : Exn → Bool
  | .transportFail _ | .illegalRequest | .haltedRequest => false
  | .allocFail | .lengthMismatch | .fbUnallocated => true

/-- What an exception records, rule R200: only a transport failure, its `e` and the ordinal of the transaction. -/
def Exn.record (x : Exn) (s : State) : State :=
  match x with
  | .transportFail e => { s with errInfo := e, errPos := s.ntx }
  | .allocFail | .lengthMismatch | .fbUnallocated | .illegalRequest | .haltedRequest => s

/-- `raise`, rules R201 to R204, R206, R208 and R216: what is recorded, `HALT` for a fatal one, then `respond` with the
exception's code, which leaves `PHASE = IDLE` and `PEND = 0`. There is no handler and no vector. The return (rule R217)
is the acceptance of the next request: nothing is restored. -/
def raise (x : Exn) (s : State) : State :=
  let t := x.record s
  respond x.resultCode 0 { t with halt := t.halt || x.fatal }

/-! ## The gates of rule R207 -/

/-- Step 1 of rule R207: a halted block answers `E_HALTED` and does nothing else. -/
def unlessHalted (body : State → State) (s : State) : State :=
  if s.halt then raise .haltedRequest s else body s

/-- Step 2 of rule R207: a request that is not legal answers `E_ILLEGAL`. -/
def ifLegal (legal : Bool) (body : State → State) (s : State) : State :=
  if legal then body s else raise .illegalRequest s

/-- Step 5 of rule R207: a request that needs the framebuffer and finds none halts the block. -/
def withFramebuffer (body : State → State) (s : State) : State :=
  if s.fbAlloc then body s else raise .fbUnallocated s

/-- A word that is no row of the opcode table (rule R79): decoded into the latches (rule R76), then refused. -/
def refuseWord (w : Word) (s : State) : State := unlessHalted (raise .illegalRequest) (latchWord w s)

/-! ## Transactions -/

/-- The issue step, rule R113: the transaction joins the bus trace and `PEND <- 1`; nothing else changes. -/
def issue (tx : Tx) (s : State) : State := { s with trace := s.trace ++ [⟨tx, none⟩], pend := true }

/-- The transaction that carries a controller command, rules R27 and R91: one command, one transaction. -/
def commandTx (s : State) (bs : List Byte) : Tx := ⟨kindOf bs, sessionOf s, .cmd, bs⟩

/-- Issuing a controller command on the command channel. -/
def issueCommand (bs : List Byte) (s : State) : State := issue (commandTx s bs) s

/-- The latest entry of the trace gets its answer (rule R13). -/
def answerLatest (a : Answer) : List BusEntry → List BusEntry
  | [] => []
  | [e] => [{ e with answer := some a }]
  | e :: f :: l => e :: answerLatest a (f :: l)

/-- The call of a transport primitive (rules R12 and R212) with the channel as a sub-address (rule R90). -/
inductive TransportCall where
  | writeByte (session subAddress byte : Byte)
  | writeWord (session subAddress : Byte) (word : Half)
  | writeBlock (session subAddress : Byte) (bytes : List Byte)
  deriving DecidableEq, Repr

/-- The sub-address of a channel, rule R90. -/
def subAddress (c : Cfg) : Channel → Byte
  | .cmd => c.chCmd
  | .data => c.chData

/-- The word of a two-byte command, rules R57 and R91: `b0 | (b1 << 8)`. -/
def wordOf (b0 b1 : Byte) : Half := b0.setWidth 16 ||| (b1.setWidth 16 <<< 8)

/-- What the transport is handed for a transaction, rules R12, R90 and R91; nothing for a byte list of a length its kind
does not carry (rule R12), which the block never issues. -/
def transportCall (c : Cfg) (tx : Tx) : Option TransportCall :=
  match tx.kind, tx.bytes with
  | .byte, [b] => some (.writeByte tx.sid (subAddress c tx.ch) b)
  | .word, [b0, b1] => some (.writeWord tx.sid (subAddress c tx.ch) (wordOf b0 b1))
  | .block, b :: bs => some (.writeBlock tx.sid (subAddress c tx.ch) (b :: bs))
  | _, _ => none

/-! ## Reset -/

/-- The effect of reset, rule R231, from any state: the reset values, an empty trace, `MAXBLK` sampled from the transport, no
response for a request in execution (rule R232). What lies outside the block stays: the rest of the configuration, the
host's words, the answers to come, what the transport reports, and the draw counter, so that a later arbitrary
framebuffer is a new one. -/
def applyReset (s : State) : State :=
  { State.resetWith { s.cfg with maxBlk := s.reportedMaxBlk } with
    requests := s.requests, answers := s.answers, draws := s.draws }

end Sys2Proof.Machine
end

