-- ==== Sys2Proof/Machine/Commands.lean ====
section
/-! DEFINITION. The twenty-two controller commands (rule R92). What the block does with one is to send it: one transaction on
the command channel, with the session of the request in execution (rules R27, R90, R91, R113). What the controller does
with it is outside the block (rule R5 item 5). -/

namespace Sys2Proof.Machine

/-- `CC_DISPLAY_OFF`, rule R92: powers the panel off. -/
def execCcDisplayOff (s : State) : Outcome := .next (issueCommand [s.cfg.cmdEnc.displayOff] s)

/-- `CC_SET_CLOCK_DIV`, rules R92 and R93: clock divider. -/
def execCcSetClockDiv (p : Byte) (s : State) : Outcome := .next (issueCommand [s.cfg.cmdEnc.setClockDiv, p] s)

/-- `CC_SET_MULTIPLEX`, rules R92 and R93: multiplex ratio. -/
def execCcSetMultiplex (p : Byte) (s : State) : Outcome := .next (issueCommand [s.cfg.cmdEnc.setMultiplex, p] s)

/-- `CC_SET_DISPLAY_OFFSET`, rules R92 and R93: display offset. -/
def execCcSetDisplayOffset (p : Byte) (s : State) : Outcome := .next (issueCommand [s.cfg.cmdEnc.setDisplayOffset, p] s)

/-- `CC_SET_START_LINE`, rule R92: `[c | line]`. -/
def execCcSetStartLine (line : BitVec 6) (s : State) : Outcome :=
  .next (issueCommand [startLineByte s.cfg.cmdEnc line] s)

/-- `CC_CHARGE_PUMP`, rules R92 and R93: charge pump. -/
def execCcChargePump (p : Byte) (s : State) : Outcome := .next (issueCommand [s.cfg.cmdEnc.chargePump, p] s)

/-- `CC_SET_MEMORY_MODE`, rules R92 and R93: addressing mode. -/
def execCcSetMemoryMode (p : Byte) (s : State) : Outcome := .next (issueCommand [s.cfg.cmdEnc.setMemoryMode, p] s)

/-- `CC_SEG_REMAP_REVERSED`, rule R92: segment remap. -/
def execCcSegRemapReversed (s : State) : Outcome := .next (issueCommand [s.cfg.cmdEnc.segRemapReversed] s)

/-- `CC_COM_SCAN_REVERSED`, rule R92: scan direction. -/
def execCcComScanReversed (s : State) : Outcome := .next (issueCommand [s.cfg.cmdEnc.comScanReversed] s)

/-- `CC_SET_COM_PINS`, rules R92 and R93: COM pin hardware. -/
def execCcSetComPins (p : Byte) (s : State) : Outcome := .next (issueCommand [s.cfg.cmdEnc.setComPins, p] s)

/-- `CC_SET_CONTRAST`, rules R92 and R93: contrast. -/
def execCcSetContrast (p : Byte) (s : State) : Outcome := .next (issueCommand [s.cfg.cmdEnc.setContrast, p] s)

/-- `CC_SET_PRECHARGE`, rules R92 and R93: precharge period. -/
def execCcSetPrecharge (p : Byte) (s : State) : Outcome := .next (issueCommand [s.cfg.cmdEnc.setPrecharge, p] s)

/-- `CC_SET_VCOM_DESELECT`, rules R92 and R93: deselect level. -/
def execCcSetVcomDeselect (p : Byte) (s : State) : Outcome := .next (issueCommand [s.cfg.cmdEnc.setVcomDeselect, p] s)

/-- `CC_NORMAL_DISPLAY`, rule R92: non-inverted display. -/
def execCcNormalDisplay (s : State) : Outcome := .next (issueCommand [s.cfg.cmdEnc.normalDisplay] s)

/-- `CC_DISPLAY_FOLLOW_RAM`, rule R92: non-blanked display. -/
def execCcDisplayFollowRam (s : State) : Outcome := .next (issueCommand [s.cfg.cmdEnc.displayFollowRam] s)

/-- `CC_DEACTIVATE_SCROLL`, rule R92: scrolling off. -/
def execCcDeactivateScroll (s : State) : Outcome := .next (issueCommand [s.cfg.cmdEnc.deactivateScroll] s)

/-- `CC_DISPLAY_ON`, rule R92: powers the panel on. -/
def execCcDisplayOn (s : State) : Outcome := .next (issueCommand [s.cfg.cmdEnc.displayOn] s)

/-- `CC_SET_COLUMN_WINDOW`, rule R94. -/
def execCcSetColumnWindow (first last : Byte) (s : State) : Outcome :=
  .next (issueCommand [s.cfg.cmdEnc.setColumnWindow, first, last] s)

/-- `CC_SET_PAGE_WINDOW`, rule R94. -/
def execCcSetPageWindow (first last : Byte) (s : State) : Outcome :=
  .next (issueCommand [s.cfg.cmdEnc.setPageWindow, first, last] s)

/-- `CC_SCROLL_RIGHT_CFG`, rule R95. -/
def execCcScrollRightCfg (f0 sp iv ep f1 f2 : Byte) (s : State) : Outcome :=
  .next (issueCommand [s.cfg.cmdEnc.scrollRightCfg, f0, sp, iv, ep, f1, f2] s)

/-- `CC_SCROLL_LEFT_CFG`, rule R95. -/
def execCcScrollLeftCfg (f0 sp iv ep f1 f2 : Byte) (s : State) : Outcome :=
  .next (issueCommand [s.cfg.cmdEnc.scrollLeftCfg, f0, sp, iv, ep, f1, f2] s)

/-- `CC_ACTIVATE_SCROLL`, rule R92: scrolling on. -/
def execCcActivateScroll (s : State) : Outcome := .next (issueCommand [s.cfg.cmdEnc.activateScroll] s)

end Sys2Proof.Machine
end

