-- ==== Sys2Proof/Machine/Sequencer.lean ====
section
/-! DEFINITION. The sequencer: the initialisation sequence (rule R116), the command or chunk each phase issues (`TxOf`, rules
R119, R128, R131, R163 to R165), the fill step (rule R122), and the answer step (rules R114, R115) with the advance of
each phase (rules R120, R128, R131, R163 to R166). -/

namespace Sys2Proof.Machine

/-- `INIT_SEQ[0 .. 16]`, rule R116: the seventeen commands in the order the block sends them, with the parameters of rule
R93. The two "normal display" commands stand in the order of conflict C1. -/
def initSeq (c : Cfg) : List Instr :=
  [.ccDisplayOff,
   .ccSetClockDiv c.initParams.clockDiv,
   .ccSetMultiplex c.initParams.multiplex,
   .ccSetDisplayOffset c.initParams.displayOffset,
   .ccSetStartLine c.initParams.startLine,
   .ccChargePump c.initParams.chargePump,
   .ccSetMemoryMode c.initParams.memoryMode,
   .ccSegRemapReversed,
   .ccComScanReversed,
   .ccSetComPins c.initParams.comPins,
   .ccSetContrast c.initParams.contrast,
   .ccSetPrecharge c.initParams.precharge,
   .ccSetVcomDeselect c.initParams.vcomDeselect,
   .ccNormalDisplay,
   .ccDisplayFollowRam,
   .ccDeactivateScroll,
   .ccDisplayOn]

/-- `columnWindow(0, W - 1)`, rules R94 and R163. -/
def columnWindow (c : Cfg) : Instr := .ccSetColumnWindow 0 (BitVec.ofNat 8 (c.w - 1))

/-- `pageWindow(0, P - 1)`, rules R94 and R164. -/
def pageWindow (c : Cfg) : Instr := .ccSetPageWindow 0 (BitVec.ofNat 8 (c.pages - 1))

/-- The seven bytes of rule R95 for a direction code: 1 right, else left. -/
def scrollConfig (c : Cfg) (dir : Half) : List Byte :=
  [if dir = 1 then c.cmdEnc.scrollRightCfg else c.cmdEnc.scrollLeftCfg,
   0x00, c.scrollStartPage, c.scrollInterval, c.scrollEndPage, 0x00, 0xFF]

/-- The length of the chunk at `OFS`, rule R165: `min(MAXBLK, N - OFS)`. -/
def chunkLen (s : State) : Nat := min s.cfg.maxBlk.toNat (s.cfg.fbSize - s.ofs.toNat)

/-- `TxOf` in phase `STREAM`, rule R165: the framebuffer's bytes from `OFS`, always a `BLOCK` on the data channel. -/
def chunkTx (s : State) : Tx := ⟨.block, sessionOf s, .data, readBytes s.fb s.ofs.toNat (chunkLen s)⟩

/-- What the sequencer's next transaction is: a controller command of the table, bytes that are none (a raw command of
`WRCMD`, sent unchanged), a chunk, or nothing, where no issue step is enabled. -/
inductive Issue where
  | command (i : Instr)
  | raw (bytes : List Byte)
  | chunk (tx : Tx)
  | stuck (f : Fault)
  deriving DecidableEq, Repr

/-- The command in the command buffer. Reading it as a row of the table changes no byte of what is sent
(`Sys2Proof.Laws.exec_bufferedCommand`): rule R96, the block sends raw bytes unchanged and unchecked. -/
def bufferedCommand (c : CmdEnc) (bytes : List Byte) : Issue :=
  match decodeCommand c bytes with
  | some i => .command i
  | none => .raw bytes

/-- `TxOf` of each phase, as the command to be sent (rules R119, R128, R131, R163 to R165). -/
def nextIssue (s : State) : Issue :=
  match s.phase with
  | .idle => .stuck .strayAnswer
  | .initCmd =>
    match (initSeq s.cfg)[s.idx.toNat]? with
    | some i => .command i
    | none => .stuck .initIndexPastEnd
  | .initFill => .stuck .strayAnswer
  | .winCol => .command (columnWindow s.cfg)
  | .winPage => .command (pageWindow s.cfg)
  | .stream =>
    if !s.fbAlloc then .stuck .streamWithoutFramebuffer
    else if s.ofs.toNat < s.cfg.fbSize then .chunk (chunkTx s)
    else .stuck .streamPastEnd
  | .scrollCfg => bufferedCommand s.cfg.cmdEnc s.cbuf.toList
  | .scrollAct => .command .ccActivateScroll
  | .single => if s.clen = 0 then .stuck .emptyCommand else bufferedCommand s.cfg.cmdEnc (commandBuffer s)

/-- The fill step, rule R122: phase `INIT_FILL`, no transaction. -/
def fillStep (s : State) : State :=
  if s.fbAlloc then
    { overwriteFb (zeroBytes s.cfg) s with phase := .winCol }
  else if s.cfg.allocAvailable then
    match s.cfg.firstInitFill with
    | .zero => { overwriteFb (zeroBytes s.cfg) s with fbAlloc := true, phase := .winCol }
    | .any => { overwriteFb (freeBytes s.cfg s.draws) s with fbAlloc := true, phase := .winCol, draws := s.draws + 1 }
  else raise .allocFail s

/-- The advance on `ok` of each phase that issues transactions; `s` has `PEND` and `NTX` already updated (rule R114). -/
def advance (s : State) : Outcome :=
  match s.phase with
  | .idle => .fault .strayAnswer
  | .initCmd =>
    .next { s with idx := s.idx + 1, phase := if s.idx + 1 = 17 then .initFill else .initCmd }
  | .initFill => .fault .strayAnswer
  | .winCol => .next { s with phase := .winPage }
  | .winPage => .next { s with phase := .stream, ofs := 0 }
  | .stream =>
    let t := { s with ofs := s.ofs + BitVec.ofNat 16 (chunkLen s) }
    .next (if t.ofs.toNat = s.cfg.fbSize then respond .ok 0 t else t)
  | .scrollCfg => .next { s with phase := .scrollAct }
  | .scrollAct => .next (respond .ok 0 s)
  | .single => .next (respond .ok 0 s)

/-- The answer step: the transport's next answer decides (rules R114, R115); without one the block has no step (rule
R220). -/
def answerStep (s : State) : Outcome :=
  match s.answers with
  | [] => .fault .transportHang
  | .ok :: rest =>
    advance { s with answers := rest, trace := answerLatest .ok s.trace, pend := false, ntx := s.ntx + 1 }
  | .fail e :: rest =>
    .next (raise (.transportFail e) { s with answers := rest, trace := answerLatest (.fail e) s.trace })

end Sys2Proof.Machine
end

