-- ==== Sys2Proof/Machine/DeviceProtocol.lean ====
section
/-! DEFINITION. The Device Protocol requests (file 40): what the block does when it accepts `INIT`, `AWAKE`, `SCROLL`,
`WRCMD`. A request that uses the bus is accepted here and carried on by the sequencer, one transaction a step. -/

namespace Sys2Proof.Machine

/-- Loading the command buffer and entering phase `SINGLE` (rules R112, R126, R130). -/
def startSingle (bs : List Byte) (s : State) : State :=
  { s with cbuf := s.cbuf.load bs, clen := BitVec.ofNat 3 bs.length, phase := .single }

/-- Acceptance of `INIT`, rule R118. -/
def startInit (s : State) : State := { s with idx := 0, phase := .initCmd }

/-- `INIT sid`, rules R117 and R118. -/
def execInit (sid : Byte) (s : State) : Outcome :=
  .next (unlessHalted startInit (latchG sid 0 s))

/-- The byte `AWAKE` sends, rule R126. -/
def awakeByte (c : CmdEnc) (on : Bool) : Byte := if on then c.displayOn else c.displayOff

/-- `AWAKE sid, on`, rule R126. -/
def execAwake (sid : Byte) (on : Bool) (s : State) : Outcome :=
  .next (unlessHalted (startSingle [awakeByte s.cfg.cmdEnc on]) (latchG sid (if on then 1 else 0) s))

/-- Acceptance of `SCROLL` by direction, rules R130 to R132. -/
def startScroll (dir : Half) (s : State) : State :=
  if dir = 0 then startSingle [s.cfg.cmdEnc.deactivateScroll] s
  else if dir = 1 ∨ dir = 2 then
    { s with cbuf := s.cbuf.load (scrollConfig s.cfg dir), clen := 7, phase := .scrollCfg }
  else respond .ok 0 s

/-- `SCROLL sid, dir`, rule R129. -/
def execScroll (sid : Byte) (dir : Half) (s : State) : Outcome :=
  .next (unlessHalted (startScroll dir) (latchG sid dir s))

/-- Rule R78: a raw command has 1 to `CMD_MAX` bytes. -/
def legalRaw (pay : List Byte) : Bool := decide (1 ≤ pay.length ∧ pay.length ≤ cmdMax)

/-- `WRCMD sid, b0 ...`, rules R111 and R112. -/
def execWrcmd (sid : Byte) (pay : List Byte) (s : State) : Outcome :=
  .next (unlessHalted (ifLegal (legalRaw pay) (startSingle pay)) (latchG sid (payloadLen pay) s))

end Sys2Proof.Machine
end

