-- ==== Sys2Proof/Machine/Framebuffer.lean ====
section
/-! DEFINITION. The framebuffer requests (file 41): `PLOT`, `LOAD`, `CLEAR`. Each is one indivisible step (rule R60) and
issues no transaction. -/

namespace Sys2Proof.Machine

/-- The byte `PLOT` writes at an offset, rule R141. -/
def plottedByte (mode : BitVec 2) (bit : Nat) (old : Byte) : Byte := applyMode mode (bitMask bit) old

/-- The read-modify-write of one bit, rule R141, for a pixel in range. -/
def plotPixel (mode : BitVec 2) (x y : Nat) (s : State) : State :=
  let at_ := pixelAddress s.cfg x y
  { s with fb := writeBytes s.fb at_.1 [plottedByte mode at_.2 (readByte s.fb at_.1)] }

/-- A legal `PLOT`: out of bounds it is dropped (rule R55), before the allocation check (rule R207 steps 3 and 5). -/
def plotBody (mode : BitVec 2) (x y : Nat) (s : State) : State :=
  if offDisplay s.cfg x y then respond .ok 0 s
  else withFramebuffer (fun t => respond .ok 0 (plotPixel mode x y t)) s

/-- `PLOT x, y, mode`, rule R141; mode 3 is reserved (rule R74). -/
def execPlot (mode : BitVec 2) (x y : BitVec 12) (s : State) : Outcome :=
  .next (unlessHalted (ifLegal (mode != 3) (plotBody mode x.toNat y.toNat)) (latchP mode x y s))

/-- A legal `LOAD`, rules R146 and R207: the length is checked before the allocation and before any write. -/
def loadBody (pay : List Byte) (s : State) : State :=
  if pay.length ≠ s.cfg.fbSize then raise .lengthMismatch s
  else withFramebuffer (fun t => respond .ok 0 (overwriteFb pay t)) s

/-- `LOAD b0, ...`, rule R146. -/
def execLoad (pay : List Byte) (s : State) : Outcome :=
  .next (unlessHalted (loadBody pay) (latchG 0 (payloadLen pay) s))

/-- `CLEAR`, rule R150. -/
def execClear (s : State) : Outcome :=
  .next (unlessHalted (withFramebuffer fun t => respond .ok 0 (overwriteFb (zeroBytes t.cfg) t)) (latchG 0 0 s))

end Sys2Proof.Machine
end

