-- ==== Sys2Proof/Machine/PatternLoader.lean ====
section
/-! DEFINITION. The pattern loader's request (file 43): `LOADROM`. -/

namespace Sys2Proof.Machine

/-- `PATTERN[k]`, rule R180. -/
def patternBytes (c : Cfg) (k : Nat) : List Byte := c.patterns.getD k []

/-- `LOADROM k`, rule R181; `K >= NPAT` is illegal (rule R78). -/
def execLoadrom (k : Half) (s : State) : Outcome :=
  .next (unlessHalted (ifLegal (decide (k.toNat < s.cfg.npat))
    (withFramebuffer fun t => respond .ok 0 (overwriteFb (patternBytes t.cfg k.toNat) t))) (latchG 0 k s))

end Sys2Proof.Machine
end

