-- ==== Sys2Proof/Machine/Readback.lean ====
section
/-! DEFINITION. The read-back requests (file 44): `RDFB`, `RDREG`. -/

namespace Sys2Proof.Machine

/-- `RDFB ofs`, rule R190; `OFS_ARG >= N` is illegal, before the allocation check (rules R78 and R207). -/
def execRdfb (ofs : Half) (s : State) : Outcome :=
  .next (unlessHalted (ifLegal (decide (ofs.toNat < s.cfg.fbSize))
    (withFramebuffer fun t => respond .ok ((readByte t.fb ofs.toNat).setWidth 16) t)) (latchG 0 ofs s))

/-- The eight registers of rule R32, by number. -/
def registerValue (reg : BitVec 3) (s : State) : Half :=
  match reg.toNat with
  | 0 => BitVec.ofNat 16 s.cfg.w
  | 1 => BitVec.ofNat 16 s.cfg.h
  | 2 => BitVec.ofNat 16 s.cfg.pages
  | 3 => BitVec.ofNat 16 s.cfg.fbSize
  | 4 => s.cfg.maxBlk
  | 5 => statusWord s
  | 6 => s.errInfo
  | _ => s.errPos

/-- `RDREG reg`, rule R192: the value is taken before this request completes. A register number above 7 is no row of the
table and is refused as a word (rule R32). -/
def execRdreg (reg : BitVec 3) (s : State) : Outcome :=
  .next (unlessHalted (fun t => respond .ok (registerValue reg t) t) (latchG 0 (reg.setWidth 16) s))

end Sys2Proof.Machine
end

