-- ==== Sys2Proof/Machine/Reserved.lean ====
section
/-! DEFINITION. The five reserved opcodes (rule R79): decoded as format G (rule R76), refused with `E_ILLEGAL` (rule R203),
which is the effect the spec gives them; a halted block answers `E_HALTED` first (rule R207). -/

namespace Sys2Proof.Machine

/-- A word of a reserved opcode: bits 23:16 and 15:0 go to the latches as `SID` and `ARG`, then the refusal. -/
def refuseReserved (x : BitVec 28) (s : State) : State :=
  unlessHalted (raise .illegalRequest) (latchG (x.extractLsb' 16 8) (x.extractLsb' 0 16) s)

/-- Reserved opcode `0x0`, rule R79. -/
def execReserved0 (x : BitVec 28) (s : State) : Outcome := .next (refuseReserved x s)

/-- Reserved opcode `0xC`, rule R79. -/
def execReservedC (x : BitVec 28) (s : State) : Outcome := .next (refuseReserved x s)

/-- Reserved opcode `0xD`, rule R79. -/
def execReservedD (x : BitVec 28) (s : State) : Outcome := .next (refuseReserved x s)

/-- Reserved opcode `0xE`, rule R79. -/
def execReservedE (x : BitVec 28) (s : State) : Outcome := .next (refuseReserved x s)

/-- Reserved opcode `0xF`, rule R79. -/
def execReservedF (x : BitVec 28) (s : State) : Outcome := .next (refuseReserved x s)

end Sys2Proof.Machine
end

