-- ==== Sys2Proof/Machine/UpdateEngine.lean ====
section
/-! DEFINITION. The update engine's request (file 42): `PUSH`. Its window commands and chunks are the sequencer's phases
`WIN_COL`, `WIN_PAGE` and `STREAM`. -/

namespace Sys2Proof.Machine

/-- `PUSH sid`, rules R161 and R162. -/
def execPush (sid : Byte) (s : State) : Outcome :=
  .next (unlessHalted (withFramebuffer fun t => { t with phase := .winCol }) (latchG sid 0 s))

/-- Where the controller stores the `k`-th data byte after the whole-display window, as page and column: the environment
assumption of rule R170, "an assumption about the environment, not a property of the block". No step uses it. -/
def landing (c : Cfg) (k : Nat) : Nat × Nat := (k / c.w, k % c.w)

end Sys2Proof.Machine
end

