-- ==== Sys2Proof/Machine/Dispatch.lean ====
section
/-! DEFINITION. The dispatch: one arm per constructor of `Instr`, each one call of the instruction's meaning. A request is
executed as its acceptance (rules R71, R207); a controller command is executed as its issue (rule R113). -/

namespace Sys2Proof.Machine

def exec (i : Instr) (s : State) : Host.Outcome State Fault Refusal :=
  match i with
  | .init sid => Sys2Proof.Machine.execInit sid s
  | .awake sid on => Sys2Proof.Machine.execAwake sid on s
  | .scroll sid dir => Sys2Proof.Machine.execScroll sid dir s
  | .wrcmd sid pay => Sys2Proof.Machine.execWrcmd sid pay s
  | .plot mode x y => Sys2Proof.Machine.execPlot mode x y s
  | .load pay => Sys2Proof.Machine.execLoad pay s
  | .loadrom k => Sys2Proof.Machine.execLoadrom k s
  | .clear => Sys2Proof.Machine.execClear s
  | .push sid => Sys2Proof.Machine.execPush sid s
  | .rdfb ofs => Sys2Proof.Machine.execRdfb ofs s
  | .rdreg reg => Sys2Proof.Machine.execRdreg reg s
  | .reserved0 x => Sys2Proof.Machine.execReserved0 x s
  | .reservedC x => Sys2Proof.Machine.execReservedC x s
  | .reservedD x => Sys2Proof.Machine.execReservedD x s
  | .reservedE x => Sys2Proof.Machine.execReservedE x s
  | .reservedF x => Sys2Proof.Machine.execReservedF x s
  | .ccDisplayOff => Sys2Proof.Machine.execCcDisplayOff s
  | .ccSetClockDiv p => Sys2Proof.Machine.execCcSetClockDiv p s
  | .ccSetMultiplex p => Sys2Proof.Machine.execCcSetMultiplex p s
  | .ccSetDisplayOffset p => Sys2Proof.Machine.execCcSetDisplayOffset p s
  | .ccSetStartLine line => Sys2Proof.Machine.execCcSetStartLine line s
  | .ccChargePump p => Sys2Proof.Machine.execCcChargePump p s
  | .ccSetMemoryMode p => Sys2Proof.Machine.execCcSetMemoryMode p s
  | .ccSegRemapReversed => Sys2Proof.Machine.execCcSegRemapReversed s
  | .ccComScanReversed => Sys2Proof.Machine.execCcComScanReversed s
  | .ccSetComPins p => Sys2Proof.Machine.execCcSetComPins p s
  | .ccSetContrast p => Sys2Proof.Machine.execCcSetContrast p s
  | .ccSetPrecharge p => Sys2Proof.Machine.execCcSetPrecharge p s
  | .ccSetVcomDeselect p => Sys2Proof.Machine.execCcSetVcomDeselect p s
  | .ccNormalDisplay => Sys2Proof.Machine.execCcNormalDisplay s
  | .ccDisplayFollowRam => Sys2Proof.Machine.execCcDisplayFollowRam s
  | .ccDeactivateScroll => Sys2Proof.Machine.execCcDeactivateScroll s
  | .ccDisplayOn => Sys2Proof.Machine.execCcDisplayOn s
  | .ccSetColumnWindow first last => Sys2Proof.Machine.execCcSetColumnWindow first last s
  | .ccSetPageWindow first last => Sys2Proof.Machine.execCcSetPageWindow first last s
  | .ccScrollRightCfg f0 sp iv ep f1 f2 => Sys2Proof.Machine.execCcScrollRightCfg f0 sp iv ep f1 f2 s
  | .ccScrollLeftCfg f0 sp iv ep f1 f2 => Sys2Proof.Machine.execCcScrollLeftCfg f0 sp iv ep f1 f2 s
  | .ccActivateScroll => Sys2Proof.Machine.execCcActivateScroll s

end Sys2Proof.Machine
end

