-- ==== Sys2Proof/Machine/Step.lean ====
section
/-! DEFINITION. One step of the machine: a reset event, the transport's answer to the transaction in flight, the acceptance
of a request, the fill step, or the issue of the next transaction (rules R71, R113 to R115, R122, R230). -/

namespace Sys2Proof.Machine

/-- The acceptance of the host's next request, rules R71, R75, R76, R79: a row of the table is executed, any other word is
refused. With no whole request presented the block does nothing (rule R231). -/
def acceptStep (s : State) : Host.Outcome State Fault Refusal :=
  match fetchRequest s.requests with
  | none => .next s
  | some (w, pay, rest) =>
    let t := { s with requests := rest }
    match decodeRequest w pay with
    | .ok i => exec i t
    | .error _ => .next (refuseWord w t)

/-- The issue step, rule R113. -/
def issueStep (s : State) : Host.Outcome State Fault Refusal :=
  match nextIssue s with
  | .command i => exec i s
  | .raw bs => .next (issueCommand bs s)
  | .chunk tx => .next (issue tx s)
  | .stuck f => .fault f

/-- The step by phase, once the configuration is known to be well formed and no reset event is due. -/
def runStep (s : State) : Host.Outcome State Fault Refusal :=
  if s.pend then answerStep s
  else
    match s.phase with
    | .idle => acceptStep s
    | .initFill => .next (fillStep s)
    | .initCmd | .winCol | .winPage | .stream | .scrollCfg | .scrollAct | .single => issueStep s

/-- One step. A configuration that is not well formed is refused (rule R9); a reset event comes first (rule R230). -/
def step (s : State) : Host.Outcome State Fault Refusal :=
  if s.cfg.WellFormed then
    if s.resetLine then .next (applyReset s) else runStep s
  else .refused .illFormedConfig

/-- The state with a word of the opcode table where the next step finds its instruction: a request at the head of the
request port of an idle block; a controller command in the command buffer of a sequencer that is about to send it
(phase `SINGLE`). -/
def State.withFetchWord (s : State) (nbits w : Nat) : State :=
  match tableCode s.cfg.cmdEnc nbits w with
  | .request first pay =>
    { s with requests := (first :: pay) ++ s.requests, phase := .idle, pend := false, resetLine := false }
  | .command bytes =>
    { s with cbuf := s.cbuf.load bytes, clen := BitVec.ofNat 3 bytes.length, phase := .single, pend := false,
             resetLine := false }

end Sys2Proof.Machine
end

