-- ==== Sys2Proof/Machine/Assembler.lean ====
section
/-! DEFINITION. The spec's assembler notation: the syntax of rule R81 and the pseudo-instructions of rule R82, from a line of
text to the words a host presents. The block knows only the words (rule R82). -/

namespace Sys2Proof.Machine

/-- Pieces of a text between separators; empty pieces are dropped. `cur` is the piece being read, backwards. -/
def piecesFrom (sep : Char → Bool) : List Char → List Char → List (List Char)
  | [], [] => []
  | c :: cur, [] => [(c :: cur).reverse]
  | [], a :: l => if sep a then piecesFrom sep [] l else piecesFrom sep [a] l
  | c :: cur, a :: l => if sep a then (c :: cur).reverse :: piecesFrom sep [] l else piecesFrom sep (a :: c :: cur) l

/-- Rule R81: `;` starts a comment. -/
def withoutComment (l : List Char) : List Char := l.takeWhile (· != ';')

/-- The mnemonic and the operands of a line, rule R81: operands stand between commas. -/
def lineTokens (l : List Char) : List String :=
  (piecesFrom (fun c => c == ' ' || c == ',' || c == '\t') [] (withoutComment l)).map String.ofList

/-- The value of a digit in a base, where it is one. -/
def digitValue (base : Nat) (c : Char) : Option Nat :=
  let v := if '0' ≤ c ∧ c ≤ '9' then c.toNat - 48
    else if 'a' ≤ c ∧ c ≤ 'f' then c.toNat - 87
    else if 'A' ≤ c ∧ c ≤ 'F' then c.toNat - 55
    else base
  if v < base then some v else none

/-- A digit string's value in a base, on top of what was read. -/
def digitsValue (base : Nat) : Nat → List Char → Option Nat
  | acc, [] => some acc
  | acc, c :: l =>
    match digitValue base c with
    | some d => digitsValue base (acc * base + d) l
    | none => none

/-- A number, rule R81: decimal, or hexadecimal after `0x`. -/
def numberOf (t : String) : Option Nat :=
  match t.toList with
  | [] => none
  | '0' :: 'x' :: c :: l => digitsValue 16 0 (c :: l)
  | l => digitsValue 10 0 l

/-- A number below a bound. -/
def numberBelow (bound : Nat) (t : String) : Option Nat := (numberOf t).filter (· < bound)

/-- An operand that is one of some names, or a number below a bound. -/
def namedBelow (names : List (String × Nat)) (bound : Nat) (t : String) : Option Nat :=
  match names.lookup t with
  | some v => some v
  | none => numberBelow bound t

/-- The direction names of rule R81. -/
def directionNames : List (String × Nat) := [("off", 0), ("right", 1), ("left", 2)]
/-- The mode names of rule R81; no number is a mode. -/
def modeNames : List (String × Nat) := [("clear", 0), ("set", 1), ("invert", 2)]
/-- The pattern names of rule R81. -/
def patternNames : List (String × Nat) := [("triangle", 0), ("logo", 1)]
/-- The register names of rule R32. -/
def registerNames : List (String × Nat) :=
  [("WIDTH", 0), ("HEIGHT", 1), ("PAGES", 2), ("FBSIZE", 3), ("MAXBLK", 4), ("STATUS", 5), ("ERRINFO", 6),
   ("ERRPOS", 7)]

/-- A byte operand. -/
def byteOperand (t : String) : Option Byte := (numberBelow 256 t).map (BitVec.ofNat 8)

/-- The words of a request. -/
def requestWords (i : Instr) : List Word := (encode CmdEnc.reference i).words

/-- Named byte lists, rule R81: `.bytes name = ...`. -/
abbrev AsmEnv := List (String × List Byte)

/-- The payload of `LOAD`, rule R81: a byte list, or the name of one after `@`. -/
def loadPayload (env : AsmEnv) (ops : List String) : Option (List Byte) :=
  match ops with
  | [t] =>
    match t.toList with
    | '@' :: name => env.lookup (String.ofList name)
    | _ => (byteOperand t).map ([·])
  | _ => ops.mapM byteOperand

/-- `PLOT x, y, mode` with the mode known, rules R81 and R82. -/
def plotWords (x y : String) (mode : BitVec 2) : Option (List Word) := do
  let vx ← numberBelow 4096 x
  let vy ← numberBelow 4096 y
  return requestWords (.plot mode (BitVec.ofNat 12 vx) (BitVec.ofNat 12 vy))

/-- `AWAKE sid, on` with `on` known, rules R81 and R82. -/
def awakeWords (sid : String) (on : Bool) : Option (List Word) := do
  return requestWords (.awake (← byteOperand sid) on)

/-- `SCROLL sid, dir` with the direction known, rules R81 and R82. -/
def scrollWords (sid : String) (dir : Nat) : Option (List Word) := do
  return requestWords (.scroll (← byteOperand sid) (BitVec.ofNat 16 dir))

/-- `RDREG reg`, rule R81: `0xB0000000 | reg`, also for the registers 8 and above, which the block refuses. -/
def rdregWords (reg : Nat) : List Word := [gWord 0xB 0 (BitVec.ofNat 16 reg)]

/-- The words of one statement, rules R81 and R82. -/
def statementWords (env : AsmEnv) (mnemonic : String) (ops : List String) : Option (List Word) :=
  match mnemonic, ops with
  | "INIT", [sid] => (byteOperand sid).map fun v => requestWords (.init v)
  | "AWAKE", [sid, on] => do awakeWords sid ((← numberBelow 2 on) == 1)
  | "SCROLL", [sid, dir] => do scrollWords sid (← namedBelow directionNames 65536 dir)
  | "WRCMD", sid :: b0 :: bs => do
    let pay ← (b0 :: bs).mapM byteOperand
    if pay.length ≤ cmdMax then return requestWords (.wrcmd (← byteOperand sid) pay) else none
  | "PLOT", [x, y, mode] => do plotWords x y (BitVec.ofNat 2 (← modeNames.lookup mode))
  | "LOAD", ops => do
    let pay ← loadPayload env ops
    if pay.length < 65536 then return requestWords (.load pay) else none
  | "LOADROM", [k] => do return requestWords (.loadrom (BitVec.ofNat 16 (← namedBelow patternNames 65536 k)))
  | "CLEAR", [] => some (requestWords .clear)
  | "PUSH", [sid] => (byteOperand sid).map fun v => requestWords (.push v)
  | "RDFB", [ofs] => do return requestWords (.rdfb (BitVec.ofNat 16 (← numberBelow 65536 ofs)))
  | "RDREG", [reg] => do return rdregWords (← namedBelow registerNames 65536 reg)
  -- the pseudo-instructions of rule R82
  | "SLEEP", [sid] => awakeWords sid false
  | "WAKE", [sid] => awakeWords sid true
  | "SCROLLOFF", [sid] => scrollWords sid 0
  | "SCROLLR", [sid] => scrollWords sid 1
  | "SCROLLL", [sid] => scrollWords sid 2
  | "SETPX", [x, y] => plotWords x y 1
  | "CLRPX", [x, y] => plotWords x y 0
  | "INVPX", [x, y] => plotWords x y 2
  | "GETW", [] => some (rdregWords 0)
  | "GETH", [] => some (rdregWords 1)
  | "GETMAXBLK", [] => some (rdregWords 4)
  | "DEMO", [sid, k] => do
    let v ← byteOperand sid
    let kk ← namedBelow patternNames 65536 k
    return requestWords (.init v) ++ requestWords (.loadrom (BitVec.ofNat 16 kk)) ++ requestWords (.push v)
  | _, _ => none

/-- The words of a list of lines, one request a line (rule R81), with the byte lists named so far. -/
def linesWords : AsmEnv → List (List Char) → Option (List Word)
  | _, [] => some []
  | env, l :: rest =>
    match lineTokens l with
    | [] => linesWords env rest
    | ".bytes" :: name :: "=" :: bs =>
      match bs.mapM byteOperand with
      | some v => linesWords ((name, v) :: env) rest
      | none => none
    | m :: ops =>
      match statementWords env m ops, linesWords env rest with
      | some ws, some more => some (ws ++ more)
      | _, _ => none

/-- The words of a program text, rules R81 and R82; nothing where a line is no statement of the notation. -/
def assemble (text : String) : Option (List Word) :=
  linesWords [] (piecesFrom (· == '\n') [] text.toList)

end Sys2Proof.Machine
end

