-- ==== Sys2Proof/Safety.lean ====
section
/-! DEFINITION. The terms the statements use: the invariant of rule R37, the ordinals of rule R124, the legality table of
rule R78 on raw words, the transactions of rules R116 to R131 and R161 to R165 written out as byte lists (apart from
the machine's own way through commands and their encoder), and a run of several steps. -/

namespace Sys2Proof.Machine

/-! ## Runs -/

/-- `n` steps, stopping at the first fault or refusal: `Host.Core.run` of this machine
(`Sys2Proof.Laws.runSteps_eq_run`). -/
def runSteps : Nat → State → Outcome
  | 0, s => .next s
  | n + 1, s =>
    match step s with
    | .next t => runSteps n t
    | .fault f => .fault f
    | .refused r => .refused r

/-! ## States -/

/-- The block accepts a request: `PHASE = 0` and `PEND = 0` (rule R71 item 1). -/
abbrev Idle (s : State) : Prop := s.phase = .idle ∧ s.pend = false

/-- Idle and not halted: the next request is executed. -/
abbrev Ready (s : State) : Prop := Idle s ∧ s.halt = false

/-- A step goes by the block's state: the configuration is well formed (rule R9) and no reset event is due (rule R230). -/
abbrev Runs (s : State) : Prop := s.cfg.WellFormed ∧ s.resetLine = false

/-- The host presents a request: its first word, its `ceil(ARG / 4)` payload words for `OPC` `0x4` and `0x6` and none for
every other (rule R75), and what follows. -/
abbrev Presents (s : State) (w : Word) (pay rest : List Word) : Prop :=
  s.requests = w :: (pay ++ rest) ∧
    pay.length = if wordOpc w = 0x4 ∨ wordOpc w = 0x6 then ((wordArg w).toNat + 3) / 4 else 0

/-- Every transaction of a trace has its answer. -/
abbrev AllAnswered (l : List BusEntry) : Prop := ∀ e ∈ l, e.answer ≠ none

/-- The invariant of a run: the items of rule R37, the canonical form and range of the framebuffer, the session's eight
bits, and the trace's one entry in flight (rule R64). -/
structure Inv (s : State) : Prop where
  /-- Rule R9. -/
  cfgWf : s.cfg.WellFormed
  /-- Rules R7, R9: what the transport reports is a well-formed `MAXBLK`; an assumption about the transport, of which the
  block changes nothing. -/
  reportedOk : cmdMax ≤ s.reportedMaxBlk.toNat
  /-- Rule R37 (1). -/
  idxLe : s.idx.toNat ≤ 17
  /-- Rule R119: in `INIT_CMD` there is a command to send. -/
  idxCmd : s.phase = .initCmd → s.idx.toNat ≤ 16
  /-- Rule R37 (2). -/
  ofsLe : s.ofs.toNat ≤ s.cfg.fbSize
  /-- Rule R165: in `STREAM` there is a chunk to send. -/
  ofsStream : s.phase = .stream → s.ofs.toNat < s.cfg.fbSize
  /-- Rule R37 (4). -/
  pendPhase : s.pend = true → s.phase ≠ .idle ∧ s.phase ≠ .initFill
  /-- Rule R37 (5). -/
  allocPhase : s.phase = .winCol ∨ s.phase = .winPage ∨ s.phase = .stream → s.fbAlloc = true
  /-- Rule R37 (6). -/
  haltIdle : s.halt = true → Idle s
  /-- Rule R37 (8); `CLEN` has three bits. -/
  clenPos : s.phase = .scrollCfg ∨ s.phase = .single → 1 ≤ s.clen.toNat
  /-- Rule R21: `x[0]` holds an 8-bit session, zero-extended. -/
  sidByte : s.x0.toNat < 256
  /-- The framebuffer's canonical form. -/
  fbWf : Memory.wf s.fb
  /-- Rule R61: an offset of `N` or more is not an address. -/
  fbRange : ∀ e ∈ s.fb, e.1 < s.cfg.fbSize
  /-- Rules R29, R64: `PEND = 1` with one transaction in flight, the latest. -/
  inFlight : s.pend = true → ∃ done tx, s.trace = done ++ [⟨tx, none⟩] ∧ AllAnswered done
  /-- Rule R29: `PEND = 0` with none. -/
  settled : s.pend = false → AllAnswered s.trace

/-- The ordinal of the next transaction within its request, rules R29, R123, R124, R131 and R169: what `NTX` is in each
phase. -/
structure Ordinals (s : State) : Prop where
  initCmd : s.phase = .initCmd → s.ntx.toNat = s.idx.toNat
  initFill : s.phase = .initFill → s.ntx.toNat = 17
  winCol : s.phase = .winCol → s.ntx.toNat = 0 ∨ s.ntx.toNat = 17
  winPage : s.phase = .winPage → s.ntx.toNat = 1 ∨ s.ntx.toNat = 18
  stream : s.phase = .stream → s.ofs.toNat % s.cfg.maxBlk.toNat = 0 ∧
    (s.ntx.toNat = 2 + s.ofs.toNat / s.cfg.maxBlk.toNat ∨ s.ntx.toNat = 19 + s.ofs.toNat / s.cfg.maxBlk.toNat)
  scrollCfg : s.phase = .scrollCfg → s.ntx.toNat = 0
  scrollAct : s.phase = .scrollAct → s.ntx.toNat = 1
  single : s.phase = .single → s.ntx.toNat = 0

/-! ## Legality of a request word -/

/-- The "legal when" column of rule R78, with the reserved opcodes of rule R79, on the fields of the first word. -/
def legalWord (c : Cfg) (w : Word) : Bool :=
  let z : Bool := wordZG w == 0
  let noSid : Bool := wordSid w == 0
  let arg := (wordArg w).toNat
  match (wordOpc w).toNat with
  | 0x1 => z && decide (arg = 0)
  | 0x2 => z && decide (arg ≤ 1)
  | 0x3 => z
  | 0x4 => z && decide (1 ≤ arg ∧ arg ≤ 7)
  | 0x5 => wordZP w == 0 && wordMode w != 3
  | 0x6 => z && noSid
  | 0x7 => z && noSid && decide (arg < c.npat)
  | 0x8 => w == 0x80000000
  | 0x9 => z && decide (arg = 0)
  | 0xA => z && noSid && decide (arg < c.fbSize)
  | 0xB => z && noSid && decide (arg ≤ 7)
  | _ => false

/-! ## The transactions, as byte lists -/

/-- Rule R116's table, "reference bytes" column, for any command table and parameters. -/
def initBytes (c : Cfg) : List (List Byte) :=
  let e := c.cmdEnc
  let p := c.initParams
  [[e.displayOff], [e.setClockDiv, p.clockDiv], [e.setMultiplex, p.multiplex], [e.setDisplayOffset, p.displayOffset],
   [e.setStartLine ||| p.startLine.setWidth 8], [e.chargePump, p.chargePump], [e.setMemoryMode, p.memoryMode],
   [e.segRemapReversed], [e.comScanReversed], [e.setComPins, p.comPins], [e.setContrast, p.contrast],
   [e.setPrecharge, p.precharge], [e.setVcomDeselect, p.vcomDeselect], [e.normalDisplay], [e.displayFollowRam],
   [e.deactivateScroll], [e.displayOn]]

/-- The kind by length on the command channel, rule R91. -/
def kindByLength (n : Nat) : TxKind := if n = 1 then .byte else if n = 2 then .word else .block

/-- A command-channel transaction, rules R90 and R91. -/
def cmdTx (sid : Byte) (bs : List Byte) : Tx := ⟨kindByLength bs.length, sid, .cmd, bs⟩

/-- The seventeen transactions of rule R116 for a session. -/
def initTxs (c : Cfg) (sid : Byte) : List Tx := (initBytes c).map (cmdTx sid)

/-- The two window transactions, rules R94, R163 and R164. -/
def windowTxs (c : Cfg) (sid : Byte) : List Tx :=
  [⟨.block, sid, .cmd, [c.cmdEnc.setColumnWindow, 0, BitVec.ofNat 8 (c.w - 1)]⟩,
   ⟨.block, sid, .cmd, [c.cmdEnc.setPageWindow, 0, BitVec.ofNat 8 (c.pages - 1)]⟩]

/-- `ceil(N / MAXBLK)`, rule R167: how many chunks a push sends. -/
def chunkCount (c : Cfg) : Nat := ceilDiv c.fbSize c.maxBlk.toNat

/-- Chunk `j` of a push, rules R165 and R167: `min(MAXBLK, N - j * MAXBLK)` bytes from offset `j * MAXBLK`. -/
def chunkAt (c : Cfg) (m : Memory) (sid : Byte) (j : Nat) : Tx :=
  ⟨.block, sid, .data,
    (List.range (min c.maxBlk.toNat (c.fbSize - j * c.maxBlk.toNat))).map fun i => readByte m (j * c.maxBlk.toNat + i)⟩

/-- The transactions of a push in order, rule R161. -/
def pushTxs (c : Cfg) (m : Memory) (sid : Byte) : List Tx :=
  windowTxs c sid ++ (List.range (chunkCount c)).map (chunkAt c m sid)

/-- The two transactions of `SCROLL` right or left, rules R95 and R131. -/
def scrollTxs (c : Cfg) (sid : Byte) (dir : Half) : List Tx :=
  [⟨.block, sid, .cmd, [if dir = 1 then c.cmdEnc.scrollRightCfg else c.cmdEnc.scrollLeftCfg, 0x00, c.scrollStartPage,
     c.scrollInterval, c.scrollEndPage, 0x00, 0xFF]⟩,
   ⟨.byte, sid, .cmd, [c.cmdEnc.activateScroll]⟩]

/-- A list of transactions in the trace, each answered `ok`. -/
def answeredOk (txs : List Tx) : List BusEntry := txs.map fun t => ⟨t, some .ok⟩

/-- The bytes a list of transactions puts on the data channel, in order. -/
def dataBytes (txs : List Tx) : List Byte := (txs.filter fun t => t.ch == .data).flatMap Tx.bytes

/-- `TxOf(state)`, per phase as the rules write it: R119, R163, R164, R165, R131 and R128; nothing where no rule gives a
transaction. -/
def txOf (s : State) : Option Tx :=
  let sid : Byte := s.x0.setWidth 8
  match s.phase with
  | .idle => none
  | .initCmd => (initTxs s.cfg sid)[s.idx.toNat]?
  | .initFill => none
  | .winCol => (windowTxs s.cfg sid)[0]?
  | .winPage => (windowTxs s.cfg sid)[1]?
  | .stream =>
    some ⟨.block, sid, .data,
      (List.range (min s.cfg.maxBlk.toNat (s.cfg.fbSize - s.ofs.toNat))).map fun i => readByte s.fb (s.ofs.toNat + i)⟩
  | .scrollCfg => some ⟨.block, sid, .cmd, [s.cbuf.b0, s.cbuf.b1, s.cbuf.b2, s.cbuf.b3, s.cbuf.b4, s.cbuf.b5, s.cbuf.b6]⟩
  | .scrollAct => some ⟨.byte, sid, .cmd, [s.cfg.cmdEnc.activateScroll]⟩
  | .single =>
    some (cmdTx sid ([s.cbuf.b0, s.cbuf.b1, s.cbuf.b2, s.cbuf.b3, s.cbuf.b4, s.cbuf.b5, s.cbuf.b6].take s.clen.toNat))

/-- The bound of rule R248 on the transactions of one request: `19 + ceil(N / MAXBLK)`. -/
def txBound (c : Cfg) : Nat := 19 + chunkCount c

/-- The pixel at `(x, y)`: bit `y mod 8` of `FB[(y / 8) * W + x]`, rule R51. -/
def pixel (c : Cfg) (m : Memory) (x y : Nat) : Bool := (readByte m (y / 8 * c.w + x)).getLsbD (y % 8)

end Sys2Proof.Machine
end

