-- ==== Sys2Proof/Certificates/Slice0/Obligations.lean ====
section
/-! DEFINITION. The statements for the provers. Each says in its docstring which rule of the spec it formalises, or on what it
rests. A frame is written as an equation: `t = { s with f := t.f, … }` says that no field but those named changes. -/

open Sys2Proof Sys2Proof.Machine

/-! ## Encoding -/

/-- Every well-formed instruction of the table decodes from its encoding, with every operand at every value, under every
command table in which a byte list names at most one command. -/
def Obligations.DecodeOfEncodeGivesTheInstruction : Prop :=
  ∀ (c : CmdEnc) (i : Instr), c.Unambiguous → i.wf = true → decode c (encode c i) = .ok i

/-- No bit of a request word is dropped: what decodes from a word and its payload words encodes to that word, to as many
payload words, and to the same payload bytes. -/
def Obligations.DecodedRequestKeepsEveryBit : Prop :=
  ∀ (c : CmdEnc) (w : Word) (pay : List Word) (i : Instr), decodeRequest w pay = .ok i →
    ∃ pay', encode c i = .request w pay' ∧ pay'.length = pay.length ∧
      unpackPayload (wordArg w).toNat pay' = unpackPayload (wordArg w).toNat pay

/-- Words written out in `95_test_vectors.md` V-ENC and V-INIT, and bytes of rules R92, R94, R95, decode to what they
stand for. -/
def Obligations.SpecWordsDecode : Prop :=
  decodeRequest 0x103C0000 [] = .ok (.init 0x3C) ∧
  decodeRequest 0x203C0001 [] = .ok (.awake 0x3C true) ∧
  decodeRequest 0x403C0003 [0x007F0021] = .ok (.wrcmd 0x3C [0x21, 0x00, 0x7F]) ∧
  decodeRequest 0x5100500A [] = .ok (.plot 1 5 10) ∧
  decodeRequest 0x60000003 [0x00CCBBAA] = .ok (.load [0xAA, 0xBB, 0xCC]) ∧
  decodeRequest 0xA0000085 [] = .ok (.rdfb 133) ∧
  decodeCommand CmdEnc.reference [0xA8, 0x1F] = some (.ccSetMultiplex 0x1F) ∧
  decodeCommand CmdEnc.reference [0x21, 0x00, 0x7F] = some (.ccSetColumnWindow 0x00 0x7F) ∧
  decodeCommand CmdEnc.reference [0x26, 0x00, 0x00, 0x00, 0x07, 0x00, 0xFF] =
    some (.ccScrollRightCfg 0x00 0x00 0x00 0x07 0x00 0xFF)

/-- Rule R77, whole: the payload a `WRCMD` or `LOAD` is decoded with has `LEN` bytes; byte `i` is bits `8*(i mod 4)+7` to
`8*(i mod 4)` of payload word `i / 4`; so the positions at or beyond `LEN` have no effect, as in the rule's example. -/
def Obligations.PayloadBytePacking : Prop :=
  (∀ (c : CmdEnc) (sid : Byte) (len : Half) (pay : List Word), pay.length = (len.toNat + 3) / 4 →
    ∃ bs, decode c (.request (gWord 0x4 sid len) pay) = .ok (.wrcmd sid bs) ∧
      decode c (.request (gWord 0x6 0 len) pay) = .ok (.load bs) ∧ bs.length = len.toNat ∧
      ∀ i < len.toNat, ∃ w, pay[i / 4]? = some w ∧ bs[i]? = some (w.extractLsb' (8 * (i % 4)) 8)) ∧
  decodeRequest 0x403C0002 [0x00007F81] = .ok (.wrcmd 0x3C [0x81, 0x7F]) ∧
  decodeRequest 0x403C0002 [0xABCD7F81] = .ok (.wrcmd 0x3C [0x81, 0x7F])

/-- Rule R82: each pseudo-instruction stands for its expansion, whatever its operands are. -/
def Obligations.PseudoInstructionsExpand : Prop :=
  ∀ (env : AsmEnv) (a b : String),
    statementWords env "SLEEP" [a] = statementWords env "AWAKE" [a, "0"] ∧
    statementWords env "WAKE" [a] = statementWords env "AWAKE" [a, "1"] ∧
    statementWords env "SCROLLOFF" [a] = statementWords env "SCROLL" [a, "off"] ∧
    statementWords env "SCROLLR" [a] = statementWords env "SCROLL" [a, "right"] ∧
    statementWords env "SCROLLL" [a] = statementWords env "SCROLL" [a, "left"] ∧
    statementWords env "SETPX" [a, b] = statementWords env "PLOT" [a, b, "set"] ∧
    statementWords env "CLRPX" [a, b] = statementWords env "PLOT" [a, b, "clear"] ∧
    statementWords env "INVPX" [a, b] = statementWords env "PLOT" [a, b, "invert"] ∧
    statementWords env "GETW" [] = statementWords env "RDREG" ["WIDTH"] ∧
    statementWords env "GETH" [] = statementWords env "RDREG" ["HEIGHT"] ∧
    statementWords env "GETMAXBLK" [] = statementWords env "RDREG" ["MAXBLK"] ∧
    statementWords env "DEMO" [a, b] =
      (statementWords env "INIT" [a]).bind fun w1 => (statementWords env "LOADROM" [b]).bind fun w2 =>
        (statementWords env "PUSH" [a]).map fun w3 => w1 ++ w2 ++ w3

/-! ## The request port -/

/-- A step of an idle block runs the decoded request: where the words at the head of the port are a row of the table, the
step is `exec` of it on the state with those words taken from the port. -/
def Obligations.StepRunsDecodedRequest : Prop :=
  ∀ (s : State) (w : Word) (pay rest : List Word) (i : Instr), Runs s → Idle s → Presents s w pay rest →
    decodeRequest w pay = .ok i → step s = exec i { s with requests := rest }

/-- A step of the sequencer runs the controller command it is about to send: the entry of the initialisation sequence, a
window command, the activate command, or what the command buffer holds where its bytes are a command of the table. The
last two clauses, on the command buffer, are the model's choice (log entry 9) and rest on no rule of the spec: rule R96
says that the block does not decode a raw command, and the model reads the buffer as a row of the table only to say
which meaning issues its bytes, which go out unchanged either way. -/
def Obligations.StepRunsSequencedCommand : Prop :=
  ∀ (s : State), Runs s → s.pend = false →
    (∀ i, s.phase = .initCmd → (initSeq s.cfg)[s.idx.toNat]? = some i → step s = exec i s) ∧
    (s.phase = .winCol → step s = exec (.ccSetColumnWindow 0 (BitVec.ofNat 8 (s.cfg.w - 1))) s) ∧
    (s.phase = .winPage → step s = exec (.ccSetPageWindow 0 (BitVec.ofNat 8 (s.cfg.pages - 1))) s) ∧
    (s.phase = .scrollAct → step s = exec .ccActivateScroll s) ∧
    (∀ i, s.phase = .scrollCfg → decodeCommand s.cfg.cmdEnc s.cbuf.toList = some i → step s = exec i s) ∧
    (∀ i, s.phase = .single → s.clen ≠ 0 → decodeCommand s.cfg.cmdEnc (commandBuffer s) = some i → step s = exec i s)

/-- Rule R76, whole: for every accepted request, legal or not, halted or not, decoding writes the four latches by the
word's format and clears `NTX`; a reserved `OPC` is format G. The port gives up the request's words (rule R75). -/
def Obligations.DecodingWritesLatches : Prop :=
  ∀ (s : State) (w : Word) (pay rest : List Word), Runs s → Idle s → Presents s w pay rest →
    ∃ t, step s = .next t ∧ t.requests = rest ∧ t.ntx = 0 ∧
      (wordOpc w = 0x5 → t.x0 = 0 ∧ t.x1 = (wordX w).setWidth 16 ∧ t.x2 = (wordY w).setWidth 16 ∧
        t.x3 = (wordMode w).setWidth 16) ∧
      (wordOpc w ≠ 0x5 → t.x0 = (wordSid w).setWidth 16 ∧ t.x1 = wordArg w ∧ t.x2 = 0 ∧ t.x3 = 0)

/-- Rule R203, whole, with rule R79: a request that is not legal by rule R78's table is answered `E_ILLEGAL`; besides the words
taken from the port it changes the latches, `NTX`, `LAST` and `STICKY` and nothing else. The all-zero and the all-ones
word are illegal. -/
def Obligations.IllegalRequestIsRefused : Prop :=
  (∀ (s : State) (w : Word) (pay rest : List Word), Runs s → Ready s → Presents s w pay rest →
    legalWord s.cfg w = false →
    ∃ t, step s = .next t ∧
      t = { s with requests := rest, x0 := t.x0, x1 := t.x1, x2 := t.x2, x3 := t.x3, ntx := t.ntx, last := .illegal,
                   sticky := true, responses := s.responses ++ [0x50000000] }) ∧
  ∀ c : Cfg, legalWord c 0x00000000 = false ∧ legalWord c 0xFFFFFFFF = false

/-- A request that is legal by rule R78's table is not answered `E_ILLEGAL`: it is executed, and where it completes at once
its result code is another. -/
def Obligations.LegalRequestIsNotRefused : Prop :=
  ∀ (s : State) (w : Word) (pay rest : List Word), Runs s → Ready s → Presents s w pay rest →
    legalWord s.cfg w = true → ∃ t, step s = .next t ∧ (t.phase = .idle → t.last ≠ .illegal)

/-- Rule R206, whole: while `HALT = 1` every request, legal or not, is accepted with its payload words and answered
`E_HALTED`; apart from the latches, `NTX`, `LAST` and `STICKY` no state changes. Nothing but reset clears `HALT`. -/
def Obligations.HaltedBlockRefusesEveryRequest : Prop :=
  (∀ (s : State) (w : Word) (pay rest : List Word), Runs s → Idle s → s.halt = true → Presents s w pay rest →
    ∃ t, step s = .next t ∧
      t = { s with requests := rest, x0 := t.x0, x1 := t.x1, x2 := t.x2, x3 := t.x3, ntx := t.ntx, last := .halted,
                   sticky := true, responses := s.responses ++ [0x60000000] }) ∧
  ∀ (s t : State), s.halt = true → step s = .next t → (t.halt = false ↔ s.resetLine = true)

/-- While a request is in execution the port holds the host off: no word of it is taken, none is lost, none reordered. -/
def Obligations.BusyBlockHoldsRequests : Prop :=
  ∀ (s t : State), Runs s → ¬Idle s → step s = .next t → t.requests = s.requests

/-- With no whole request presented an idle block does nothing. -/
def Obligations.IdleBlockWaits : Prop :=
  ∀ (s : State), Runs s → Idle s → (∀ w pay rest, ¬Presents s w pay rest) → step s = .next s

/-- Rule R9, whole: a configuration that is not well formed is refused, by every step, and no other is; under a well-formed
one `W - 1`, `P - 1` and `H - 1` fit a command byte and every command fits one block write. -/
def Obligations.IllFormedConfigurationIsRefused : Prop :=
  ∀ (s : State),
    let ok := 1 ≤ s.cfg.w ∧ s.cfg.w ≤ 256 ∧ 8 ≤ s.cfg.h ∧ s.cfg.h ≤ 256 ∧ s.cfg.h % 8 = 0 ∧ 7 ≤ s.cfg.maxBlk.toNat ∧
      2 ≤ s.cfg.patterns.length ∧ (∀ p ∈ s.cfg.patterns, p.length = s.cfg.w * s.cfg.h / 8) ∧
      s.cfg.chCmd ≠ s.cfg.chData
    (¬ok → step s = .refused .illFormedConfig) ∧ (ok → ∀ r, step s ≠ .refused r) ∧
    (ok → s.cfg.w - 1 < 256 ∧ s.cfg.pages - 1 < 256 ∧ s.cfg.h - 1 < 256 ∧
      ∀ i bs, encode s.cfg.cmdEnc i = .command bs → bs.length ≤ s.cfg.maxBlk.toNat)

/-! ## The sequencer -/

/-- Rule R113, whole: in a phase that issues (and in `STREAM` with `OFS < N`) with `PEND = 0`, the step appends the
transaction `TxOf` of rules R119, R163 to R165, R131 and R128 to the trace, sets `PEND`, and changes nothing else. -/
def Obligations.IssueStepSendsTxOf : Prop :=
  ∀ (s : State), Inv s → s.resetLine = false → s.pend = false → s.phase ≠ .idle → s.phase ≠ .initFill →
    ∃ tx, txOf s = some tx ∧ step s = .next { s with trace := s.trace ++ [⟨tx, none⟩], pend := true }

/-- Rule R91, whole: every transaction the block issues. On the command channel the kind goes by the length; on the data
channel it is `BLOCK`; none exceeds `MAXBLK`; the session is the request's; one command is exactly one transaction; a
`WORD` presents `b0 | (b1 << 8)`. -/
def Obligations.TransactionForms : Prop :=
  (∀ (s : State) (tx : Tx), Inv s → txOf s = some tx →
    tx.sid.setWidth 16 = s.x0 ∧ 1 ≤ tx.bytes.length ∧ tx.bytes.length ≤ s.cfg.maxBlk.toNat ∧
    (tx.ch = .cmd → tx.kind = if tx.bytes.length = 1 then .byte else if tx.bytes.length = 2 then .word else .block) ∧
    (tx.ch = .data → tx.kind = .block ∧ s.phase = .stream)) ∧
  (∀ (s : State) (i : Instr) (bs : List Byte), encode s.cfg.cmdEnc i = .command bs →
    ∃ t tx, exec i s = .next t ∧ t.trace = s.trace ++ [⟨tx, none⟩] ∧ tx.ch = .cmd ∧ tx.bytes = bs) ∧
  ∀ (c : Cfg) (sid b0 b1 : Byte),
    transportCall c ⟨.word, sid, .cmd, [b0, b1]⟩ =
      some (.writeWord sid c.chCmd (b0.setWidth 16 ||| (b1.setWidth 16 <<< 8)))

/-- Rules R114 and R166, whole: the answer `ok`. `PEND` and `NTX`, the answer in the trace, the advance of each phase, and
the completion with `E_OK` where the advance reaches `IDLE`; nothing else changes. -/
def Obligations.AnswerOkAdvances : Prop :=
  ∀ (s : State) (more : List Answer) (done : List BusEntry) (tx : Tx), Inv s → s.resetLine = false → s.pend = true →
    s.answers = .ok :: more → s.trace = done ++ [⟨tx, none⟩] →
    ∃ t, step s = .next t ∧ t.ntx = s.ntx + 1 ∧ t.pend = false ∧
      t = { s with ntx := t.ntx, pend := false, answers := more, trace := done ++ [⟨tx, some .ok⟩], phase := t.phase,
                   idx := t.idx, ofs := t.ofs, last := t.last, responses := t.responses } ∧
      (t.phase = .idle → t.last = .ok ∧ t.responses = s.responses ++ [0x00000000]) ∧
      (t.phase ≠ .idle → t.last = s.last ∧ t.responses = s.responses) ∧
      (s.phase = .initCmd → t.idx.toNat = s.idx.toNat + 1 ∧ t.ofs = s.ofs ∧
        t.phase = if s.idx.toNat + 1 = 17 then .initFill else .initCmd) ∧
      (s.phase = .winCol → t.idx = s.idx ∧ t.ofs = s.ofs ∧ t.phase = .winPage) ∧
      (s.phase = .winPage → t.idx = s.idx ∧ t.ofs = 0 ∧ t.phase = .stream) ∧
      (s.phase = .stream → t.idx = s.idx ∧
        t.ofs.toNat = s.ofs.toNat + min s.cfg.maxBlk.toNat (s.cfg.fbSize - s.ofs.toNat) ∧
        t.phase = if t.ofs.toNat = s.cfg.fbSize then .idle else .stream) ∧
      (s.phase = .scrollCfg → t.idx = s.idx ∧ t.ofs = s.ofs ∧ t.phase = .scrollAct) ∧
      (s.phase = .scrollAct ∨ s.phase = .single → t.idx = s.idx ∧ t.ofs = s.ofs ∧ t.phase = .idle)

/-- Rules R115 and R201, whole: the answer `fail(e)` in any phase aborts the request: `PEND`, `ERRINFO`, `ERRPOS`, `PHASE`,
the completion with `E_TRANSPORT`; `HALT`, `FB`, `FB_ALLOC`, `IDX`, `OFS` and everything else keep their values, and the
failed transaction stays in the trace with its answer. -/
def Obligations.AnswerFailAborts : Prop :=
  ∀ (s : State) (e : Half) (more : List Answer) (done : List BusEntry) (tx : Tx), Runs s → s.pend = true →
    s.answers = .fail e :: more → s.trace = done ++ [⟨tx, none⟩] →
    step s = .next { s with pend := false, errInfo := e, errPos := s.ntx, phase := .idle, last := .transport,
                            sticky := true, responses := s.responses ++ [0x10000000], answers := more,
                            trace := done ++ [⟨tx, some (.fail e)⟩] }

/-- Rule R220, whole: where the transport never answers the transaction in flight the block has no step, which the model
says by a fault of its own that is no result code; only reset ends it. -/
def Obligations.UnansweredTransactionHangs : Prop :=
  ∀ (s : State), s.cfg.WellFormed → s.pend = true → s.answers = [] →
    (s.resetLine = false → step s = .fault .transportHang) ∧
    (s.resetLine = true → ∃ t, step s = .next t ∧ Ready t)

/-- Rule R122, whole: the fill step. -/
def Obligations.FillStepEffect : Prop :=
  ∀ (s : State), Runs s → s.phase = .initFill → s.pend = false →
    (s.fbAlloc = false → s.cfg.allocAvailable = false →
      step s = .next { s with halt := true, phase := .idle, last := .alloc, sticky := true,
                              responses := s.responses ++ [0x20000000] }) ∧
    (s.fbAlloc = false → s.cfg.allocAvailable = true → ∃ t, step s = .next t ∧
      t = { s with fbAlloc := true, fb := t.fb, phase := .winCol, draws := t.draws } ∧
      (s.cfg.firstInitFill = .zero → ∀ a < s.cfg.fbSize, readByte t.fb a = 0x00) ∧
      ∀ a, s.cfg.fbSize ≤ a → readByte t.fb a = readByte s.fb a) ∧
    (s.fbAlloc = true → ∃ t, step s = .next t ∧ t = { s with fb := t.fb, phase := .winCol } ∧
      (∀ a < s.cfg.fbSize, readByte t.fb a = 0x00) ∧ ∀ a, s.cfg.fbSize ≤ a → readByte t.fb a = readByte s.fb a)

/-! ## The requests of the Device Protocol -/

/-- Rule R118, whole: the acceptance of `INIT` (`init`). -/
def Obligations.InitIsAccepted : Prop :=
  ∀ (s : State) (sid : Byte), Ready s →
    exec (.init sid) s = .next { s with x0 := sid.setWidth 16, x1 := 0, x2 := 0, x3 := 0, ntx := 0, idx := 0,
                                        phase := .initCmd }

/-- The acceptance of `AWAKE` (`awake`), rule R126: the command buffer holds the panel-on or the panel-off command, and the
transaction to be sent is that one byte. -/
def Obligations.AwakeIsAccepted : Prop :=
  ∀ (s : State) (sid : Byte) (on : Bool), Ready s →
    ∃ t, exec (.awake sid on) s = .next t ∧
      t = { s with x0 := sid.setWidth 16, x1 := if on then 1 else 0, x2 := 0, x3 := 0, ntx := 0, clen := 1,
                   phase := .single,
                   cbuf := { s.cbuf with b0 := if on then s.cfg.cmdEnc.displayOn else s.cfg.cmdEnc.displayOff } } ∧
      txOf t = some ⟨.byte, sid, .cmd, [if on then s.cfg.cmdEnc.displayOn else s.cfg.cmdEnc.displayOff]⟩

/-- The acceptance of `SCROLL` (`scroll`) with direction off, right and left, rules R130 and R131, and the transaction to be
sent first. -/
def Obligations.ScrollIsAccepted : Prop :=
  ∀ (s : State) (sid : Byte), Ready s →
    (∃ t, exec (.scroll sid 0) s = .next t ∧
      t = { s with x0 := sid.setWidth 16, x1 := 0, x2 := 0, x3 := 0, ntx := 0, clen := 1, phase := .single,
                   cbuf := { s.cbuf with b0 := s.cfg.cmdEnc.deactivateScroll } } ∧
      txOf t = some ⟨.byte, sid, .cmd, [s.cfg.cmdEnc.deactivateScroll]⟩) ∧
    ∀ dir : Half, dir = 1 ∨ dir = 2 → ∃ t, exec (.scroll sid dir) s = .next t ∧
      t = { s with x0 := sid.setWidth 16, x1 := dir, x2 := 0, x3 := 0, ntx := 0, clen := 7, phase := .scrollCfg,
                   cbuf := t.cbuf } ∧
      txOf t = (scrollTxs s.cfg sid dir)[0]?

/-- Rule R132, whole: `SCROLL` (`scroll`) with `DIR >= 3` completes at once with `E_OK`: no transaction, the command buffer,
its length and `STICKY` unchanged, the block idle. -/
def Obligations.ScrollUnknownDirectionDoesNothing : Prop :=
  ∀ (s : State) (sid : Byte) (dir : Half), Ready s → 3 ≤ dir.toNat →
    exec (.scroll sid dir) s = .next { s with x0 := sid.setWidth 16, x1 := dir, x2 := 0, x3 := 0, ntx := 0, last := .ok,
                                              responses := s.responses ++ [0x00000000] }

/-- Rule R112 and the effect of rule R111: the acceptance of a `WRCMD` (`wrcmd`) of 1 to 7 bytes. The buffer's first `LEN`
bytes are the payload, the others keep their value, and the transaction to be sent carries the payload unchanged and
unchecked, whatever the bytes are. -/
def Obligations.RawCommandIsAccepted : Prop :=
  ∀ (s : State) (sid : Byte) (pay : List Byte), Ready s → 1 ≤ pay.length → pay.length ≤ 7 →
    ∃ t, exec (.wrcmd sid pay) s = .next t ∧
      t = { s with x0 := sid.setWidth 16, x1 := BitVec.ofNat 16 pay.length, x2 := 0, x3 := 0, ntx := 0,
                   clen := BitVec.ofNat 3 pay.length, phase := .single, cbuf := t.cbuf } ∧
      t.cbuf.toList = pay ++ s.cbuf.toList.drop pay.length ∧
      txOf t = some ⟨if pay.length = 1 then .byte else if pay.length = 2 then .word else .block, sid, .cmd, pay⟩

/-- The reserved opcodes (`reserved0`, `reservedC`, `reservedD`, `reservedE`, `reservedF`), rule R79: their effect is the
refusal `E_ILLEGAL`, with the word's bits 23:16 and 15:0 in the latches as format G (rule R76). -/
def Obligations.ReservedOpcodesAreRefused : Prop :=
  ∀ (s : State) (x : BitVec 28) (i : Instr), Ready s →
    i = .reserved0 x ∨ i = .reservedC x ∨ i = .reservedD x ∨ i = .reservedE x ∨ i = .reservedF x →
    exec i s = .next { s with x0 := (x.extractLsb' 16 8).setWidth 16, x1 := x.extractLsb' 0 16, x2 := 0, x3 := 0,
                              ntx := 0, last := .illegal, sticky := true, responses := s.responses ++ [0x50000000] }

/-- The twenty-two controller commands (`ccDisplayOff`, `ccSetClockDiv`, `ccSetMultiplex`, `ccSetDisplayOffset`,
`ccSetStartLine`, `ccChargePump`, `ccSetMemoryMode`, `ccSegRemapReversed`, `ccComScanReversed`, `ccSetComPins`,
`ccSetContrast`, `ccSetPrecharge`, `ccSetVcomDeselect`, `ccNormalDisplay`, `ccDisplayFollowRam`, `ccDeactivateScroll`,
`ccDisplayOn`, `ccSetColumnWindow`, `ccSetPageWindow`, `ccScrollRightCfg`, `ccScrollLeftCfg`, `ccActivateScroll`): each
is sent as one transaction on the command channel, with the bytes of rules R92, R94 and R95 and the session in `x[0]`,
and changes nothing but the trace and `PEND`. -/
def Obligations.ControllerCommandsAreSent : Prop :=
  ∀ (s : State) (i : Instr) (bs : List Byte), encode s.cfg.cmdEnc i = .command bs →
    exec i s = .next { s with trace := s.trace ++ [⟨⟨if bs.length = 1 then .byte else if bs.length = 2 then .word
                                  else .block, s.x0.setWidth 8, .cmd, bs⟩, none⟩], pend := true }

/-! ## The framebuffer requests -/

/-- Rule R54: `Translate` has the stated formula; and its range and that it is a bijection, which the rule itself marks
"[derived: ...]", with `Pixel` of rule R56 its inverse. -/
def Obligations.PixelTranslationIsABijection : Prop :=
  ∀ (c : Cfg), c.WellFormed →
    (∀ x y, x < c.w → y < c.h →
      pixelAddress c x y = (y / 8 * c.w + x, y % 8) ∧ (pixelAddress c x y).1 < c.fbSize ∧ (pixelAddress c x y).2 ≤ 7 ∧
      pixelAt c (pixelAddress c x y).1 (pixelAddress c x y).2 = (x, y)) ∧
    ∀ ofs bit, ofs < c.fbSize → bit ≤ 7 →
      pixelAt c ofs bit = (ofs % c.w, 8 * (ofs / c.w) + bit) ∧ (pixelAt c ofs bit).1 < c.w ∧
      (pixelAt c ofs bit).2 < c.h ∧ pixelAddress c (pixelAt c ofs bit).1 (pixelAt c ofs bit).2 = (ofs, bit)

/-- `PLOT` (`plot`) of an in-range pixel, rule R141: the addressed bit is cleared, set or inverted; every other bit of that
byte and every other byte is unchanged; the frame. -/
def Obligations.PlotChangesOneBit : Prop :=
  ∀ (s : State) (mode : BitVec 2) (x y : BitVec 12), Ready s → s.fbAlloc = true → mode ≠ 3 → x.toNat < s.cfg.w →
    y.toNat < s.cfg.h →
    ∃ t, exec (.plot mode x y) s = .next t ∧
      t = { s with fb := t.fb, x0 := 0, x1 := x.setWidth 16, x2 := y.setWidth 16, x3 := mode.setWidth 16, ntx := 0,
                   last := .ok, responses := s.responses ++ [0x00000000] } ∧
      (∀ a, a ≠ (pixelAddress s.cfg x.toNat y.toNat).1 → readByte t.fb a = readByte s.fb a) ∧
      ∀ b < 8, (readByte t.fb (pixelAddress s.cfg x.toNat y.toNat).1).getLsbD b =
        let old := (readByte s.fb (pixelAddress s.cfg x.toNat y.toNat).1).getLsbD b
        if b = (pixelAddress s.cfg x.toNat y.toNat).2 then
          (if mode = 0 then false else if mode = 1 then true else !old)
        else old

/-- Rule R55, whole: an out-of-bounds `PLOT` (`plot`) is dropped and completes with `E_OK`, whether or not the framebuffer is
allocated: nothing is raised, and the framebuffer is not written. -/
def Obligations.PlotOutOfBoundsIsDropped : Prop :=
  ∀ (s : State) (mode : BitVec 2) (x y : BitVec 12), Ready s → mode ≠ 3 → s.cfg.w ≤ x.toNat ∨ s.cfg.h ≤ y.toNat →
    exec (.plot mode x y) s = .next { s with x0 := 0, x1 := x.setWidth 16, x2 := y.setWidth 16, x3 := mode.setWidth 16,
                                             ntx := 0, last := .ok, responses := s.responses ++ [0x00000000] }

/-- Rule R142, whole: clear gives 0, set gives 1, invert the complement; clear of a dark and set of a lit pixel change
nothing; two inverts with no other write to the pixel between them restore it, and the framebuffer where nothing else
was written; set and clear are each idempotent. -/
def Obligations.PlotModesBitByBit : Prop :=
  ∀ (s t u v z : State) (mode : BitVec 2) (x y : BitVec 12), Inv s → Ready s → s.fbAlloc = true → mode ≠ 3 →
    x.toNat < s.cfg.w → y.toNat < s.cfg.h → exec (.plot mode x y) s = .next t → exec (.plot mode x y) t = .next u →
    Ready v → v.fbAlloc = true → v.cfg = s.cfg → exec (.plot mode x y) v = .next z →
    (mode = 2 → pixel s.cfg v.fb x.toNat y.toNat = pixel s.cfg t.fb x.toNat y.toNat →
      pixel s.cfg z.fb x.toNat y.toNat = pixel s.cfg s.fb x.toNat y.toNat) ∧
    pixel s.cfg t.fb x.toNat y.toNat =
      (if mode = 0 then false else if mode = 1 then true else !pixel s.cfg s.fb x.toNat y.toNat) ∧
    (mode = 0 → pixel s.cfg s.fb x.toNat y.toNat = false → t.fb = s.fb) ∧
    (mode = 1 → pixel s.cfg s.fb x.toNat y.toNat = true → t.fb = s.fb) ∧
    (mode = 2 → u.fb = s.fb) ∧ (mode = 0 ∨ mode = 1 → u.fb = t.fb)

/-- The properties of rule R144: (a) set and clear are read back, (b) an out-of-bounds `PLOT` leaves the framebuffer as it was,
and the two the rule marks "[derived: ...]", (c) a `PLOT` changes at most one pixel, (d) two `PLOT`s at different in-range
coordinates commute. -/
def Obligations.PlotProperties : Prop :=
  ∀ (s t : State) (m m' : BitVec 2) (x y x' y' : BitVec 12), Inv s → Ready s → s.fbAlloc = true → m ≠ 3 → m' ≠ 3 →
    exec (.plot m x y) s = .next t →
    (x.toNat < s.cfg.w → y.toNat < s.cfg.h →
      (m = 1 → pixel s.cfg t.fb x.toNat y.toNat = true) ∧ (m = 0 → pixel s.cfg t.fb x.toNat y.toNat = false)) ∧
    (s.cfg.w ≤ x.toNat ∨ s.cfg.h ≤ y.toNat → t.fb = s.fb) ∧
    (∀ px py, px < s.cfg.w → py < s.cfg.h → (px, py) ≠ (x.toNat, y.toNat) →
      pixel s.cfg t.fb px py = pixel s.cfg s.fb px py) ∧
    (x.toNat < s.cfg.w → y.toNat < s.cfg.h → x'.toNat < s.cfg.w → y'.toNat < s.cfg.h → (x, y) ≠ (x', y') →
      ∃ u v w, exec (.plot m' x' y') t = .next u ∧ exec (.plot m' x' y') s = .next v ∧
        exec (.plot m x y) v = .next w ∧ u.fb = w.fb)

/-- `LOAD` (`load`) of `N` bytes, rules R146 and R148: every byte of the framebuffer is the payload's; the frame. -/
def Obligations.LoadOverwritesTheFramebuffer : Prop :=
  ∀ (s : State) (pay : List Byte), Ready s → s.fbAlloc = true → pay.length = s.cfg.fbSize →
    ∃ t, exec (.load pay) s = .next t ∧
      t = { s with fb := t.fb, x0 := 0, x1 := BitVec.ofNat 16 pay.length, x2 := 0, x3 := 0, ntx := 0, last := .ok,
                   responses := s.responses ++ [0x00000000] } ∧
      (∀ a < s.cfg.fbSize, some (readByte t.fb a) = pay[a]?) ∧
      ∀ a, s.cfg.fbSize ≤ a → readByte t.fb a = readByte s.fb a

/-- Rule R208, whole: `LOAD` (`load`) with `LEN != N` halts the block with `E_LENGTH`, whether or not the framebuffer is
allocated, and leaves the framebuffer untouched. -/
def Obligations.LoadOfWrongLengthHalts : Prop :=
  ∀ (s : State) (pay : List Byte), Ready s → pay.length ≠ s.cfg.fbSize →
    exec (.load pay) s = .next { s with x0 := 0, x1 := BitVec.ofNat 16 pay.length, x2 := 0, x3 := 0, ntx := 0,
                                        halt := true, last := .length, sticky := true,
                                        responses := s.responses ++ [0x30000000] }

/-- `LOADROM` (`loadrom`), rule R181: with `K < NPAT` every byte of the framebuffer is pattern `K`'s; the frame. With
`K >= NPAT` the request is refused (rule R78). -/
def Obligations.LoadRomOverwritesTheFramebuffer : Prop :=
  ∀ (s : State) (k : Half), s.cfg.WellFormed → Ready s →
    (k.toNat < s.cfg.patterns.length → s.fbAlloc = true → ∃ t, exec (.loadrom k) s = .next t ∧
      t = { s with fb := t.fb, x0 := 0, x1 := k, x2 := 0, x3 := 0, ntx := 0, last := .ok,
                   responses := s.responses ++ [0x00000000] } ∧
      (∀ a < s.cfg.fbSize, ∃ p, s.cfg.patterns[k.toNat]? = some p ∧ some (readByte t.fb a) = p[a]?) ∧
      ∀ a, s.cfg.fbSize ≤ a → readByte t.fb a = readByte s.fb a) ∧
    (s.cfg.patterns.length ≤ k.toNat →
      exec (.loadrom k) s = .next { s with x0 := 0, x1 := k, x2 := 0, x3 := 0, ntx := 0, last := .illegal,
                                           sticky := true, responses := s.responses ++ [0x50000000] })

/-- `CLEAR` (`clear`), rule R150, and rule R151, whole: every byte of the framebuffer reads zero, through the state and
through `RDFB` of any offsets one after another; the frame. -/
def Obligations.ClearZeroFillsTheFramebuffer : Prop :=
  ∀ (s : State), Ready s → s.fbAlloc = true → s.cfg.fbSize ≤ 65536 →
    ∃ t, exec .clear s = .next t ∧
      t = { s with fb := t.fb, x0 := 0, x1 := 0, x2 := 0, x3 := 0, ntx := 0, last := .ok,
                   responses := s.responses ++ [0x00000000] } ∧
      (∀ a < s.cfg.fbSize, readByte t.fb a = 0x00) ∧ (∀ a, s.cfg.fbSize ≤ a → readByte t.fb a = readByte s.fb a) ∧
      ∀ (v : State) (a : Nat), Ready v → v.fbAlloc = true → v.cfg = s.cfg → v.fb = t.fb → a < s.cfg.fbSize →
        ∃ u, exec (.rdfb (BitVec.ofNat 16 a)) v = .next u ∧ u.responses = v.responses ++ [0x00000000] ∧
          Ready u ∧ u.fbAlloc = true ∧ u.cfg = s.cfg ∧ u.fb = t.fb

/-- Rules R145 and R204, whole: the six requests that need the framebuffer (`plot` in range, `load` of `N` bytes, `loadrom`,
`clear`, `push`, `rdfb`) halt the block with `E_UNALLOC` while `FB_ALLOC = 0`; the framebuffer is untouched, no
transaction is issued; an out-of-bounds `PLOT` is still dropped with `E_OK`. -/
def Obligations.UnallocatedFramebufferHalts : Prop :=
  ∀ (s : State) (i : Instr), Ready s → s.fbAlloc = false →
    ((∃ m x y, i = .plot m x y ∧ m ≠ 3 ∧ x.toNat < s.cfg.w ∧ y.toNat < s.cfg.h) ∨
      (∃ pay, i = .load pay ∧ pay.length = s.cfg.fbSize) ∨ (∃ k, i = .loadrom k ∧ k.toNat < s.cfg.patterns.length) ∨
      i = .clear ∨ (∃ sid, i = .push sid) ∨ (∃ o, i = .rdfb o ∧ o.toNat < s.cfg.fbSize) →
      ∃ t, exec i s = .next t ∧
        t = { s with x0 := t.x0, x1 := t.x1, x2 := t.x2, x3 := t.x3, ntx := t.ntx, halt := true, last := .unalloc,
                     sticky := true, responses := s.responses ++ [0x40000000] }) ∧
    ∀ m x y, i = .plot m x y → m ≠ 3 → s.cfg.w ≤ x.toNat ∨ s.cfg.h ≤ y.toNat →
      ∃ t, exec i s = .next t ∧ t.halt = false ∧ t.sticky = s.sticky ∧ t.last = .ok ∧ t.fb = s.fb

/-- The acceptance of `PUSH` (`push`), rule R162. -/
def Obligations.PushIsAccepted : Prop :=
  ∀ (s : State) (sid : Byte), Ready s →
    (s.fbAlloc = true →
      exec (.push sid) s = .next { s with x0 := sid.setWidth 16, x1 := 0, x2 := 0, x3 := 0, ntx := 0,
                                          phase := .winCol }) ∧
    (s.fbAlloc = false →
      exec (.push sid) s = .next { s with x0 := sid.setWidth 16, x1 := 0, x2 := 0, x3 := 0, ntx := 0, halt := true,
                                          last := .unalloc, sticky := true,
                                          responses := s.responses ++ [0x40000000] })

/-! ## The read-back requests -/

/-- `RDFB` (`rdfb`), rule R190: the byte at the offset, zero-extended, with no effect on the framebuffer; at or beyond `N` it
is refused, before the allocation check. -/
def Obligations.ReadFramebufferByte : Prop :=
  ∀ (s : State) (ofs : Half), Ready s →
    (ofs.toNat < s.cfg.fbSize → s.fbAlloc = true →
      exec (.rdfb ofs) s = .next { s with x0 := 0, x1 := ofs, x2 := 0, x3 := 0, ntx := 0, last := .ok,
                                                responses := s.responses ++ [(readByte s.fb ofs.toNat).setWidth 32] }) ∧
    (s.cfg.fbSize ≤ ofs.toNat →
      exec (.rdfb ofs) s = .next { s with x0 := 0, x1 := ofs, x2 := 0, x3 := 0, ntx := 0, last := .illegal,
                                                sticky := true, responses := s.responses ++ [0x50000000] })

/-- `RDREG` (`rdreg`), rules R32 and R192: the eight registers, with `STATUS` as it was before this request completes. -/
def Obligations.ReadRegister : Prop :=
  ∀ (s : State) (reg : BitVec 3), Ready s →
    ∃ v : Half, exec (.rdreg reg) s = .next { s with x0 := 0, x1 := reg.setWidth 16, x2 := 0, x3 := 0, ntx := 0,
                                                     last := .ok, responses := s.responses ++ [v.setWidth 32] } ∧
      (reg = 0 → v = BitVec.ofNat 16 s.cfg.w) ∧ (reg = 1 → v = BitVec.ofNat 16 s.cfg.h) ∧
      (reg = 2 → v = BitVec.ofNat 16 (s.cfg.h / 8)) ∧ (reg = 3 → v = BitVec.ofNat 16 (s.cfg.w * s.cfg.h / 8)) ∧
      (reg = 4 → v = s.cfg.maxBlk) ∧ (reg = 5 → v = statusWord s) ∧ (reg = 6 → v = s.errInfo) ∧
      (reg = 7 → v = s.errPos)

/-- The fields of `STATUS`, by the rows of rule R33's table; a host that reads it through `RDREG` while the block is idle and
not halted reads 0 in `BUSY` and `HALT`. That the fields are read-only is not said here. -/
def Obligations.StatusFields : Prop :=
  ∀ (s : State),
    (statusWord s).getLsbD 0 = decide (s.phase ≠ .idle) ∧ (statusWord s).getLsbD 1 = s.halt ∧ s.haltOut = s.halt ∧
    (statusWord s).getLsbD 2 = s.fbAlloc ∧ (statusWord s).getLsbD 3 = s.sticky ∧
    (statusWord s).extractLsb' 4 4 = s.last.bits ∧ (statusWord s).extractLsb' 8 8 = 0 ∧
    (Ready s → ∃ t v, exec (.rdreg 5) s = .next t ∧ t.responses = s.responses ++ [v] ∧ v.getLsbD 0 = false ∧
      v.getLsbD 1 = false)

/-! ## The whole machine -/

/-- The state after reset meets the invariant, under every well-formed configuration and with anything presented; the
reference machine's reset state is one of these. -/
def Obligations.ResetStateMeetsInvariant : Prop :=
  (∀ (c : Cfg) (rq : List Word) (an : List Answer), c.WellFormed →
    Inv { State.resetWith c with requests := rq, answers := an } ∧
    Ordinals { State.resetWith c with requests := rq, answers := an }) ∧
  Inv State.reset

/-- Rule R37 as an induction: every step from a state that meets the invariant gives one that meets it, and in it
`PHASE` is 0 to 8; and `FB_ALLOC`, `HALT` and `STICKY` go from 1 to 0 only by a reset. -/
def Obligations.StepKeepsInvariant : Prop :=
  ∀ (s t : State), Inv s → step s = .next t →
    Inv t ∧ t.phase.code.toNat ≤ 8 ∧
    (s.resetLine = false → (s.fbAlloc = true → t.fbAlloc = true) ∧ (s.halt = true → t.halt = true) ∧
      (s.sticky = true → t.sticky = true))

/-- The ordinal `NTX` tells which transaction of the request comes next: every step keeps the relation of rules R124 and R169
between `NTX`, the phase, `IDX` and `OFS`. -/
def Obligations.StepKeepsOrdinals : Prop :=
  ∀ (s t : State), Inv s → Ordinals s → step s = .next t → Ordinals t

/-- Nothing the block does changes its configuration: the constants of rules R6 to R9 and the two ROMs of rule R34 stay as
they are, and so does `MAXBLK` until the next reset, which samples it from the transport (rules R7, R36, R231). -/
def Obligations.ConfigurationIsConstant : Prop :=
  ∀ (s t : State), step s = .next t →
    t.cfg = (if s.resetLine = true then { s.cfg with maxBlk := s.reportedMaxBlk } else s.cfg) ∧
    t.reportedMaxBlk = s.reportedMaxBlk

/-- The framebuffer is written by `PLOT`, `LOAD`, `LOADROM`, `CLEAR` and the fill step of `INIT` alone, so it is stable during
a stream (rules R22, R65): where a step without reset changes it, the block was in phase `INIT_FILL`, or idle, not
halted and with one of those four requests at the head of the port. -/
def Obligations.FramebufferWriters : Prop :=
  ∀ (s t : State), step s = .next t → s.resetLine = false → t.fb ≠ s.fb →
    s.pend = false ∧ (s.phase = .initFill ∨
      (Ready s ∧ s.fbAlloc = true ∧ ∃ w pay rest i, Presents s w pay rest ∧ decodeRequest w pay = .ok i ∧
        ((∃ m x y, i = .plot m x y) ∨ (∃ p, i = .load p) ∨ (∃ k, i = .loadrom k) ∨ i = .clear)))

/-- Rule R31, whole: `ERRINFO` and `ERRPOS` are written by a transport failure alone, with its `e` and the ordinal `NTX` of
the failed transaction; they keep their values across everything else but reset, which makes them 0. -/
def Obligations.ErrorRegistersRecordTransportFailures : Prop :=
  ∀ (s t : State), step s = .next t →
    (s.resetLine = true → t.errInfo = 0 ∧ t.errPos = 0) ∧
    (s.resetLine = false →
      (∀ e more, s.pend = true → s.answers = .fail e :: more → t.errInfo = e ∧ t.errPos = s.ntx) ∧
      ((¬∃ e more, s.pend = true ∧ s.answers = .fail e :: more) → t.errInfo = s.errInfo ∧ t.errPos = s.errPos))

/-- Rule R64: the transactions of the trace are never changed or reordered; a step issues at most one, only with every
earlier one answered, and then it is outstanding. So there is at most one outstanding. -/
def Obligations.TransactionsAreTotallyOrdered : Prop :=
  ∀ (s t : State), Inv s → step s = .next t → s.resetLine = false →
    (t.trace.map BusEntry.tx = s.trace.map BusEntry.tx ∨
      ∃ tx, s.pend = false ∧ AllAnswered s.trace ∧ t.pend = true ∧ t.trace = s.trace ++ [⟨tx, none⟩]) ∧
    (t.trace.filter fun e => e.answer.isNone).length ≤ 1

/-- Rules R205 and R80: a step without reset completes at most one request; where it does, one response word joins the
responses, `LAST` is its code, `STICKY` is set unless the code is `E_OK`, and the block is ready for the next request;
where it does not, `LAST` and `STICKY` keep their values. -/
def Obligations.CompletionRecordsTheResult : Prop :=
  ∀ (s t : State), step s = .next t → s.resetLine = false →
    (t.responses = s.responses ∧ t.last = s.last ∧ t.sticky = s.sticky) ∨
    ∃ (code : ResultCode) (v : Half), t.responses = s.responses ++ [code.bits ++ 0#12 ++ v] ∧ t.last = code ∧
      t.sticky = (s.sticky || decide (code ≠ .ok)) ∧ Idle t

/-- No request but `RDREG` depends on the outcome of an earlier one except through `FB`, `FB_ALLOC` and `HALT` (rule R30): two
idle blocks that agree in these three and in their configuration, whatever their other registers hold, answer a request
alike, leave the same framebuffer, flags, latches and phase, and send the same first transaction. -/
def Obligations.RequestsDependOnFramebufferAndHaltAlone : Prop :=
  ∀ (s₁ s₂ : State) (i : Instr), Idle s₁ → Idle s₂ → i.isCommand = false → (∀ r, i ≠ .rdreg r) → s₁.cfg = s₂.cfg →
    s₁.fb = s₂.fb → s₁.fbAlloc = s₂.fbAlloc → s₁.halt = s₂.halt →
    ∃ t₁ t₂ new, exec i s₁ = .next t₁ ∧ exec i s₂ = .next t₂ ∧ t₁.responses = s₁.responses ++ new ∧
      t₂.responses = s₂.responses ++ new ∧ t₁.fb = t₂.fb ∧ t₁.fbAlloc = t₂.fbAlloc ∧ t₁.halt = t₂.halt ∧
      t₁.phase = t₂.phase ∧ (t₁.x0, t₁.x1, t₁.x2, t₁.x3) = (t₂.x0, t₂.x1, t₂.x2, t₂.x3) ∧ txOf t₁ = txOf t₂

/-- A reset event, rules R36 and R231, from any state whatever, halted, hung or in a request: every register the spec gives a
reset value has it, the trace is empty, no response is pending, `MAXBLK` is what the transport reports, and the block is
ready and does nothing until the host presents a request. That the words already presented and the responses behave as
they do is the model's choice (log entries 11 and 13); the values of `FB`, `x`, `CBUF` and `CLEN` are its choice too (log
entry 5) and not stated. -/
def Obligations.ResetEffect : Prop :=
  ∀ (s : State), s.cfg.WellFormed → s.resetLine = true →
    ∃ t, step s = .next t ∧ t.fbAlloc = false ∧ t.phase = .idle ∧ t.idx = 0 ∧ t.ofs = 0 ∧ t.pend = false ∧ t.ntx = 0 ∧
      t.halt = false ∧ t.sticky = false ∧ t.last = .ok ∧ t.errInfo = 0 ∧ t.errPos = 0 ∧ t.trace = [] ∧
      t.responses = [] ∧ t.cfg = { s.cfg with maxBlk := s.reportedMaxBlk } ∧ t.requests = s.requests ∧ Ready t ∧
      statusWord t = 0 ∧ (t.cfg.WellFormed → t.requests = [] → step t = .next t)

/-! ## Whole requests -/

/-- A halted block stays halted, and does nothing but refuse, for as long as it runs (rules R193, R206). -/
def Obligations.HaltLastsUntilReset : Prop :=
  ∀ (n : Nat) (s t : State), Inv s → s.halt = true → s.resetLine = false → runSteps n s = .next t →
    t.halt = true ∧ Idle t ∧ t.trace = s.trace ∧ t.fb = s.fb ∧ t.fbAlloc = s.fbAlloc ∧
      ∃ k, t.responses = s.responses ++ List.replicate k 0x60000000

/-- Every request in execution completes, with exactly one response, after a bounded number of steps, provided the transport
answers each transaction, whatever the answers are (rules R71 item 3 and R248). -/
def Obligations.RequestsComplete : Prop :=
  ∀ (s : State), Inv s → s.resetLine = false → ¬Idle s → txBound s.cfg ≤ s.answers.length →
    ∃ n ≤ 2 * txBound s.cfg + 1, ∃ t w, runSteps n s = .next t ∧ Idle t ∧ t.responses = s.responses ++ [w]

/-- A whole `PUSH`, rules R161 and R163 to R166, with the counts rule R167 marks "[derived: ...]": with every transaction
answered `ok` the block sends the two window commands, then `ceil(N / MAXBLK)` chunks, chunk `j` from offset
`j * MAXBLK`, whose bytes joined are the framebuffer; it answers `E_OK` and leaves the framebuffer as it was. The
reference instance sends 32 chunks; a block size of `N` or more gives one chunk; there are at most `ceil(N / 7)`. -/
def Obligations.PushSendsTheFramebuffer : Prop :=
  (∀ (s : State) (sid : Byte) (rest : List Word) (more : List Answer), Inv s → Ready s → s.resetLine = false →
    s.fbAlloc = true → s.requests = gWord 0x9 sid 0 :: rest →
    s.answers = List.replicate (2 + chunkCount s.cfg) .ok ++ more →
    ∃ t, runSteps (1 + 2 * (2 + chunkCount s.cfg)) s = .next t ∧
      t.trace = s.trace ++ answeredOk (windowTxs s.cfg sid ++
        (List.range (chunkCount s.cfg)).map (chunkAt s.cfg s.fb sid)) ∧
      t = { s with x0 := sid.setWidth 16, x1 := 0, x2 := 0, x3 := 0, ntx := BitVec.ofNat 16 (2 + chunkCount s.cfg),
                   ofs := BitVec.ofNat 16 s.cfg.fbSize, last := .ok, responses := s.responses ++ [0x00000000],
                   requests := rest, answers := more, trace := t.trace }) ∧
  (∀ (c : Cfg) (m : Memory) (sid : Byte), c.WellFormed →
    dataBytes (pushTxs c m sid) = (List.range c.fbSize).map (readByte m) ∧
    (c.fbSize ≤ c.maxBlk.toNat → chunkCount c = 1) ∧ chunkCount c ≤ ceilDiv c.fbSize 7) ∧
  chunkCount Cfg.reference = 32

/-- A whole `INIT`, rules R117, R123 and R124: the seventeen commands of rule R116 in order, whatever the state of the block,
then the fill, then the push; with every transaction answered `ok` it ends with the framebuffer allocated and, on a
later call or with `FIRST_INIT_FILL = zero`, all zero, and clears neither `STICKY` nor `ERRINFO` nor `ERRPOS` (rule
R233). -/
def Obligations.InitRunsTheSequence : Prop :=
  ∀ (s : State) (sid : Byte) (rest : List Word) (more : List Answer), Inv s → Ready s → s.resetLine = false →
    s.fbAlloc = true ∨ s.cfg.allocAvailable = true → s.requests = gWord 0x1 sid 0 :: rest →
    s.answers = List.replicate (19 + chunkCount s.cfg) .ok ++ more →
    ∃ t, runSteps (2 + 2 * (19 + chunkCount s.cfg)) s = .next t ∧
      t.trace = s.trace ++ answeredOk (initTxs s.cfg sid ++ pushTxs s.cfg t.fb sid) ∧
      (s.fbAlloc = true ∨ s.cfg.firstInitFill = .zero → ∀ a < s.cfg.fbSize, readByte t.fb a = 0x00) ∧
      t = { s with fb := t.fb, fbAlloc := true, x0 := sid.setWidth 16, x1 := 0, x2 := 0, x3 := 0, idx := 17,
                   ntx := BitVec.ofNat 16 (19 + chunkCount s.cfg), ofs := BitVec.ofNat 16 s.cfg.fbSize, last := .ok,
                   responses := s.responses ++ [0x00000000], requests := rest, answers := more, trace := t.trace,
                   draws := t.draws }

/-- A first `INIT` that cannot obtain the framebuffer, rule R202: the seventeen commands are sent, the window and the stream
are not, and the block halts with `E_ALLOC`. -/
def Obligations.FailedAllocationHalts : Prop :=
  ∀ (s : State) (sid : Byte) (rest : List Word) (more : List Answer), Inv s → Ready s → s.resetLine = false →
    s.fbAlloc = false → s.cfg.allocAvailable = false → s.requests = gWord 0x1 sid 0 :: rest →
    s.answers = List.replicate 17 .ok ++ more →
    ∃ t, runSteps 36 s = .next t ∧
      t = { s with x0 := sid.setWidth 16, x1 := 0, x2 := 0, x3 := 0, idx := 17, ntx := 17, halt := true, last := .alloc,
                   sticky := true, responses := s.responses ++ [0x20000000], requests := rest, answers := more,
                   trace := s.trace ++ answeredOk (initTxs s.cfg sid) }

/-- A `PUSH` of which transaction `k` fails, rule R169: the trace ends with it, `ERRPOS` is its ordinal, `ERRINFO` its error,
`OFS` the offset of the chunk that failed, the framebuffer is intact, and the block is idle and not halted. -/
def Obligations.FailedPushAborts : Prop :=
  ∀ (s : State) (sid : Byte) (k : Nat) (e : Half) (rest : List Word) (more : List Answer), Inv s → Ready s →
    s.resetLine = false → s.fbAlloc = true → k < 2 + chunkCount s.cfg → s.requests = gWord 0x9 sid 0 :: rest →
    s.answers = List.replicate k .ok ++ .fail e :: more →
    ∃ t tx, runSteps (1 + 2 * (k + 1)) s = .next t ∧ (pushTxs s.cfg s.fb sid)[k]? = some tx ∧
      (2 ≤ k → t.ofs.toNat = (k - 2) * s.cfg.maxBlk.toNat) ∧ t.errPos.toNat = k ∧
      t = { s with x0 := sid.setWidth 16, x1 := 0, x2 := 0, x3 := 0, ntx := t.ntx, ofs := t.ofs, errInfo := e,
                   errPos := t.errPos, last := .transport, sticky := true,
                   responses := s.responses ++ [0x10000000], requests := rest, answers := more,
                   trace := s.trace ++ answeredOk ((pushTxs s.cfg s.fb sid).take k) ++ [⟨tx, some (.fail e)⟩] }

/-- Rule R148, whole: `LOAD` of a pattern followed by `PUSH` sends exactly the two window commands and then data-channel
chunks, each no longer than `MAXBLK`, whose bytes joined are the pattern's; after the `LOAD` the framebuffer is the
pattern. -/
def Obligations.LoadThenPushSendsThePattern : Prop :=
  ∀ (s : State) (sid : Byte) (pay : List Byte) (rest : List Word) (more : List Answer), Inv s → Ready s →
    s.resetLine = false → s.fbAlloc = true → pay.length = s.cfg.fbSize →
    s.requests = (encode s.cfg.cmdEnc (.load pay)).words ++ (encode s.cfg.cmdEnc (.push sid)).words ++ rest →
    s.answers = List.replicate (2 + chunkCount s.cfg) .ok ++ more →
    ∃ t u chunks, runSteps 1 s = .next t ∧ (List.range s.cfg.fbSize).map (readByte t.fb) = pay ∧
      runSteps (1 + 2 * (2 + chunkCount s.cfg)) t = .next u ∧
      u.trace = s.trace ++ answeredOk (windowTxs s.cfg sid ++ chunks) ∧
      (∀ tx ∈ chunks, tx.ch = .data ∧ tx.bytes.length ≤ s.cfg.maxBlk.toNat) ∧ chunks.flatMap Tx.bytes = pay ∧
      u.responses = s.responses ++ [0x00000000, 0x00000000]

/-- Rule R133: `SCROLL` right or left and then off sends exactly three transactions, the configuration, the activate command
and the deactivate command: the configuration is not sent again. -/
def Obligations.ScrollThenOffSendsThree : Prop :=
  ∀ (s : State) (sid : Byte) (dir : Half) (rest : List Word) (more : List Answer), Inv s → Ready s →
    s.resetLine = false → dir = 1 ∨ dir = 2 → s.requests = gWord 0x3 sid dir :: gWord 0x3 sid 0 :: rest →
    s.answers = .ok :: .ok :: .ok :: more →
    ∃ t, runSteps 8 s = .next t ∧ Ready t ∧
      t.trace = s.trace ++ answeredOk (scrollTxs s.cfg sid dir ++
        [⟨.byte, sid, .cmd, [s.cfg.cmdEnc.deactivateScroll]⟩]) ∧
      t.responses = s.responses ++ [0x00000000, 0x00000000] ∧ t.fb = s.fb ∧ t.fbAlloc = s.fbAlloc ∧
      t.sticky = s.sticky

/-- Where the bytes of a push land, under the environment assumption of rule R170 (which is the spec's assumption about the
controller, not a property of the block): the `k`-th data byte goes to page `k / W`, column `k mod W`, and its bit `b`
is the pixel at that column and row `8 * page + b`. -/
def Obligations.PushedBytesLandAsPixels : Prop :=
  ∀ (c : Cfg) (m : Memory) (sid : Byte) (k b : Nat), c.WellFormed → k < c.fbSize → b < 8 →
    (landing c k).1 < c.pages ∧ (landing c k).2 < c.w ∧
    ∃ v, (dataBytes (pushTxs c m sid))[k]? = some v ∧
      v.getLsbD b = pixel c m (landing c k).2 (8 * (landing c k).1 + b)
end

