-- ==== Sys2Proof/Laws/State.lean ====
section
/-! SUPPORT. One lemma per field per update: what each named update of the state leaves in each field, so that no proof
unfolds a record update. -/

namespace Sys2Proof.Laws

open Sys2Proof.Machine

variable (s : State)

/-! `latchG` -/

@[simp] theorem latchG_fb (sid : Byte) (arg : Half) : (latchG sid arg s).fb = s.fb := rfl
@[simp] theorem latchG_fbAlloc (sid : Byte) (arg : Half) : (latchG sid arg s).fbAlloc = s.fbAlloc := rfl
@[simp] theorem latchG_x0 (sid : Byte) (arg : Half) : (latchG sid arg s).x0 = sid.setWidth 16 := rfl
@[simp] theorem latchG_x1 (sid : Byte) (arg : Half) : (latchG sid arg s).x1 = arg := rfl
@[simp] theorem latchG_x2 (sid : Byte) (arg : Half) : (latchG sid arg s).x2 = 0 := rfl
@[simp] theorem latchG_x3 (sid : Byte) (arg : Half) : (latchG sid arg s).x3 = 0 := rfl
@[simp] theorem latchG_phase (sid : Byte) (arg : Half) : (latchG sid arg s).phase = s.phase := rfl
@[simp] theorem latchG_idx (sid : Byte) (arg : Half) : (latchG sid arg s).idx = s.idx := rfl
@[simp] theorem latchG_ofs (sid : Byte) (arg : Half) : (latchG sid arg s).ofs = s.ofs := rfl
@[simp] theorem latchG_cbuf (sid : Byte) (arg : Half) : (latchG sid arg s).cbuf = s.cbuf := rfl
@[simp] theorem latchG_clen (sid : Byte) (arg : Half) : (latchG sid arg s).clen = s.clen := rfl
@[simp] theorem latchG_pend (sid : Byte) (arg : Half) : (latchG sid arg s).pend = s.pend := rfl
@[simp] theorem latchG_ntx (sid : Byte) (arg : Half) : (latchG sid arg s).ntx = 0 := rfl
@[simp] theorem latchG_halt (sid : Byte) (arg : Half) : (latchG sid arg s).halt = s.halt := rfl
@[simp] theorem latchG_sticky (sid : Byte) (arg : Half) : (latchG sid arg s).sticky = s.sticky := rfl
@[simp] theorem latchG_last (sid : Byte) (arg : Half) : (latchG sid arg s).last = s.last := rfl
@[simp] theorem latchG_errInfo (sid : Byte) (arg : Half) : (latchG sid arg s).errInfo = s.errInfo := rfl
@[simp] theorem latchG_errPos (sid : Byte) (arg : Half) : (latchG sid arg s).errPos = s.errPos := rfl
@[simp] theorem latchG_trace (sid : Byte) (arg : Half) : (latchG sid arg s).trace = s.trace := rfl
@[simp] theorem latchG_responses (sid : Byte) (arg : Half) : (latchG sid arg s).responses = s.responses := rfl
@[simp] theorem latchG_requests (sid : Byte) (arg : Half) : (latchG sid arg s).requests = s.requests := rfl
@[simp] theorem latchG_answers (sid : Byte) (arg : Half) : (latchG sid arg s).answers = s.answers := rfl
@[simp] theorem latchG_resetLine (sid : Byte) (arg : Half) : (latchG sid arg s).resetLine = s.resetLine := rfl
@[simp] theorem latchG_cfg (sid : Byte) (arg : Half) : (latchG sid arg s).cfg = s.cfg := rfl
@[simp] theorem latchG_draws (sid : Byte) (arg : Half) : (latchG sid arg s).draws = s.draws := rfl
@[simp] theorem latchG_reportedMaxBlk (sid : Byte) (arg : Half) : (latchG sid arg s).reportedMaxBlk = s.reportedMaxBlk := rfl

/-! `latchP` -/

@[simp] theorem latchP_fb (mode : BitVec 2) (x y : BitVec 12) : (latchP mode x y s).fb = s.fb := rfl
@[simp] theorem latchP_fbAlloc (mode : BitVec 2) (x y : BitVec 12) : (latchP mode x y s).fbAlloc = s.fbAlloc := rfl
@[simp] theorem latchP_x0 (mode : BitVec 2) (x y : BitVec 12) : (latchP mode x y s).x0 = 0 := rfl
@[simp] theorem latchP_x1 (mode : BitVec 2) (x y : BitVec 12) : (latchP mode x y s).x1 = x.setWidth 16 := rfl
@[simp] theorem latchP_x2 (mode : BitVec 2) (x y : BitVec 12) : (latchP mode x y s).x2 = y.setWidth 16 := rfl
@[simp] theorem latchP_x3 (mode : BitVec 2) (x y : BitVec 12) : (latchP mode x y s).x3 = mode.setWidth 16 := rfl
@[simp] theorem latchP_phase (mode : BitVec 2) (x y : BitVec 12) : (latchP mode x y s).phase = s.phase := rfl
@[simp] theorem latchP_idx (mode : BitVec 2) (x y : BitVec 12) : (latchP mode x y s).idx = s.idx := rfl
@[simp] theorem latchP_ofs (mode : BitVec 2) (x y : BitVec 12) : (latchP mode x y s).ofs = s.ofs := rfl
@[simp] theorem latchP_cbuf (mode : BitVec 2) (x y : BitVec 12) : (latchP mode x y s).cbuf = s.cbuf := rfl
@[simp] theorem latchP_clen (mode : BitVec 2) (x y : BitVec 12) : (latchP mode x y s).clen = s.clen := rfl
@[simp] theorem latchP_pend (mode : BitVec 2) (x y : BitVec 12) : (latchP mode x y s).pend = s.pend := rfl
@[simp] theorem latchP_ntx (mode : BitVec 2) (x y : BitVec 12) : (latchP mode x y s).ntx = 0 := rfl
@[simp] theorem latchP_halt (mode : BitVec 2) (x y : BitVec 12) : (latchP mode x y s).halt = s.halt := rfl
@[simp] theorem latchP_sticky (mode : BitVec 2) (x y : BitVec 12) : (latchP mode x y s).sticky = s.sticky := rfl
@[simp] theorem latchP_last (mode : BitVec 2) (x y : BitVec 12) : (latchP mode x y s).last = s.last := rfl
@[simp] theorem latchP_errInfo (mode : BitVec 2) (x y : BitVec 12) : (latchP mode x y s).errInfo = s.errInfo := rfl
@[simp] theorem latchP_errPos (mode : BitVec 2) (x y : BitVec 12) : (latchP mode x y s).errPos = s.errPos := rfl
@[simp] theorem latchP_trace (mode : BitVec 2) (x y : BitVec 12) : (latchP mode x y s).trace = s.trace := rfl
@[simp] theorem latchP_responses (mode : BitVec 2) (x y : BitVec 12) : (latchP mode x y s).responses = s.responses := rfl
@[simp] theorem latchP_requests (mode : BitVec 2) (x y : BitVec 12) : (latchP mode x y s).requests = s.requests := rfl
@[simp] theorem latchP_answers (mode : BitVec 2) (x y : BitVec 12) : (latchP mode x y s).answers = s.answers := rfl
@[simp] theorem latchP_resetLine (mode : BitVec 2) (x y : BitVec 12) : (latchP mode x y s).resetLine = s.resetLine := rfl
@[simp] theorem latchP_cfg (mode : BitVec 2) (x y : BitVec 12) : (latchP mode x y s).cfg = s.cfg := rfl
@[simp] theorem latchP_draws (mode : BitVec 2) (x y : BitVec 12) : (latchP mode x y s).draws = s.draws := rfl
@[simp] theorem latchP_reportedMaxBlk (mode : BitVec 2) (x y : BitVec 12) : (latchP mode x y s).reportedMaxBlk = s.reportedMaxBlk := rfl

/-! `respond` -/

@[simp] theorem respond_fb (code : ResultCode) (v : Half) : (respond code v s).fb = s.fb := rfl
@[simp] theorem respond_fbAlloc (code : ResultCode) (v : Half) : (respond code v s).fbAlloc = s.fbAlloc := rfl
@[simp] theorem respond_x0 (code : ResultCode) (v : Half) : (respond code v s).x0 = s.x0 := rfl
@[simp] theorem respond_x1 (code : ResultCode) (v : Half) : (respond code v s).x1 = s.x1 := rfl
@[simp] theorem respond_x2 (code : ResultCode) (v : Half) : (respond code v s).x2 = s.x2 := rfl
@[simp] theorem respond_x3 (code : ResultCode) (v : Half) : (respond code v s).x3 = s.x3 := rfl
@[simp] theorem respond_phase (code : ResultCode) (v : Half) : (respond code v s).phase = .idle := rfl
@[simp] theorem respond_idx (code : ResultCode) (v : Half) : (respond code v s).idx = s.idx := rfl
@[simp] theorem respond_ofs (code : ResultCode) (v : Half) : (respond code v s).ofs = s.ofs := rfl
@[simp] theorem respond_cbuf (code : ResultCode) (v : Half) : (respond code v s).cbuf = s.cbuf := rfl
@[simp] theorem respond_clen (code : ResultCode) (v : Half) : (respond code v s).clen = s.clen := rfl
@[simp] theorem respond_pend (code : ResultCode) (v : Half) : (respond code v s).pend = false := rfl
@[simp] theorem respond_ntx (code : ResultCode) (v : Half) : (respond code v s).ntx = s.ntx := rfl
@[simp] theorem respond_halt (code : ResultCode) (v : Half) : (respond code v s).halt = s.halt := rfl
@[simp] theorem respond_sticky (code : ResultCode) (v : Half) : (respond code v s).sticky = (s.sticky || decide (code ≠ .ok)) := rfl
@[simp] theorem respond_last (code : ResultCode) (v : Half) : (respond code v s).last = code := rfl
@[simp] theorem respond_errInfo (code : ResultCode) (v : Half) : (respond code v s).errInfo = s.errInfo := rfl
@[simp] theorem respond_errPos (code : ResultCode) (v : Half) : (respond code v s).errPos = s.errPos := rfl
@[simp] theorem respond_trace (code : ResultCode) (v : Half) : (respond code v s).trace = s.trace := rfl
@[simp] theorem respond_responses (code : ResultCode) (v : Half) : (respond code v s).responses = s.responses ++ [responseWord code v] := rfl
@[simp] theorem respond_requests (code : ResultCode) (v : Half) : (respond code v s).requests = s.requests := rfl
@[simp] theorem respond_answers (code : ResultCode) (v : Half) : (respond code v s).answers = s.answers := rfl
@[simp] theorem respond_resetLine (code : ResultCode) (v : Half) : (respond code v s).resetLine = s.resetLine := rfl
@[simp] theorem respond_cfg (code : ResultCode) (v : Half) : (respond code v s).cfg = s.cfg := rfl
@[simp] theorem respond_draws (code : ResultCode) (v : Half) : (respond code v s).draws = s.draws := rfl
@[simp] theorem respond_reportedMaxBlk (code : ResultCode) (v : Half) : (respond code v s).reportedMaxBlk = s.reportedMaxBlk := rfl

/-! `overwriteFb` -/

@[simp] theorem overwriteFb_fb (bs : List Byte) : (overwriteFb bs s).fb = writeBytes s.fb 0 bs := rfl
@[simp] theorem overwriteFb_fbAlloc (bs : List Byte) : (overwriteFb bs s).fbAlloc = s.fbAlloc := rfl
@[simp] theorem overwriteFb_x0 (bs : List Byte) : (overwriteFb bs s).x0 = s.x0 := rfl
@[simp] theorem overwriteFb_x1 (bs : List Byte) : (overwriteFb bs s).x1 = s.x1 := rfl
@[simp] theorem overwriteFb_x2 (bs : List Byte) : (overwriteFb bs s).x2 = s.x2 := rfl
@[simp] theorem overwriteFb_x3 (bs : List Byte) : (overwriteFb bs s).x3 = s.x3 := rfl
@[simp] theorem overwriteFb_phase (bs : List Byte) : (overwriteFb bs s).phase = s.phase := rfl
@[simp] theorem overwriteFb_idx (bs : List Byte) : (overwriteFb bs s).idx = s.idx := rfl
@[simp] theorem overwriteFb_ofs (bs : List Byte) : (overwriteFb bs s).ofs = s.ofs := rfl
@[simp] theorem overwriteFb_cbuf (bs : List Byte) : (overwriteFb bs s).cbuf = s.cbuf := rfl
@[simp] theorem overwriteFb_clen (bs : List Byte) : (overwriteFb bs s).clen = s.clen := rfl
@[simp] theorem overwriteFb_pend (bs : List Byte) : (overwriteFb bs s).pend = s.pend := rfl
@[simp] theorem overwriteFb_ntx (bs : List Byte) : (overwriteFb bs s).ntx = s.ntx := rfl
@[simp] theorem overwriteFb_halt (bs : List Byte) : (overwriteFb bs s).halt = s.halt := rfl
@[simp] theorem overwriteFb_sticky (bs : List Byte) : (overwriteFb bs s).sticky = s.sticky := rfl
@[simp] theorem overwriteFb_last (bs : List Byte) : (overwriteFb bs s).last = s.last := rfl
@[simp] theorem overwriteFb_errInfo (bs : List Byte) : (overwriteFb bs s).errInfo = s.errInfo := rfl
@[simp] theorem overwriteFb_errPos (bs : List Byte) : (overwriteFb bs s).errPos = s.errPos := rfl
@[simp] theorem overwriteFb_trace (bs : List Byte) : (overwriteFb bs s).trace = s.trace := rfl
@[simp] theorem overwriteFb_responses (bs : List Byte) : (overwriteFb bs s).responses = s.responses := rfl
@[simp] theorem overwriteFb_requests (bs : List Byte) : (overwriteFb bs s).requests = s.requests := rfl
@[simp] theorem overwriteFb_answers (bs : List Byte) : (overwriteFb bs s).answers = s.answers := rfl
@[simp] theorem overwriteFb_resetLine (bs : List Byte) : (overwriteFb bs s).resetLine = s.resetLine := rfl
@[simp] theorem overwriteFb_cfg (bs : List Byte) : (overwriteFb bs s).cfg = s.cfg := rfl
@[simp] theorem overwriteFb_draws (bs : List Byte) : (overwriteFb bs s).draws = s.draws := rfl
@[simp] theorem overwriteFb_reportedMaxBlk (bs : List Byte) : (overwriteFb bs s).reportedMaxBlk = s.reportedMaxBlk := rfl

/-! `issue` -/

@[simp] theorem issue_fb (tx : Tx) : (issue tx s).fb = s.fb := rfl
@[simp] theorem issue_fbAlloc (tx : Tx) : (issue tx s).fbAlloc = s.fbAlloc := rfl
@[simp] theorem issue_x0 (tx : Tx) : (issue tx s).x0 = s.x0 := rfl
@[simp] theorem issue_x1 (tx : Tx) : (issue tx s).x1 = s.x1 := rfl
@[simp] theorem issue_x2 (tx : Tx) : (issue tx s).x2 = s.x2 := rfl
@[simp] theorem issue_x3 (tx : Tx) : (issue tx s).x3 = s.x3 := rfl
@[simp] theorem issue_phase (tx : Tx) : (issue tx s).phase = s.phase := rfl
@[simp] theorem issue_idx (tx : Tx) : (issue tx s).idx = s.idx := rfl
@[simp] theorem issue_ofs (tx : Tx) : (issue tx s).ofs = s.ofs := rfl
@[simp] theorem issue_cbuf (tx : Tx) : (issue tx s).cbuf = s.cbuf := rfl
@[simp] theorem issue_clen (tx : Tx) : (issue tx s).clen = s.clen := rfl
@[simp] theorem issue_pend (tx : Tx) : (issue tx s).pend = true := rfl
@[simp] theorem issue_ntx (tx : Tx) : (issue tx s).ntx = s.ntx := rfl
@[simp] theorem issue_halt (tx : Tx) : (issue tx s).halt = s.halt := rfl
@[simp] theorem issue_sticky (tx : Tx) : (issue tx s).sticky = s.sticky := rfl
@[simp] theorem issue_last (tx : Tx) : (issue tx s).last = s.last := rfl
@[simp] theorem issue_errInfo (tx : Tx) : (issue tx s).errInfo = s.errInfo := rfl
@[simp] theorem issue_errPos (tx : Tx) : (issue tx s).errPos = s.errPos := rfl
@[simp] theorem issue_trace (tx : Tx) : (issue tx s).trace = s.trace ++ [⟨tx, none⟩] := rfl
@[simp] theorem issue_responses (tx : Tx) : (issue tx s).responses = s.responses := rfl
@[simp] theorem issue_requests (tx : Tx) : (issue tx s).requests = s.requests := rfl
@[simp] theorem issue_answers (tx : Tx) : (issue tx s).answers = s.answers := rfl
@[simp] theorem issue_resetLine (tx : Tx) : (issue tx s).resetLine = s.resetLine := rfl
@[simp] theorem issue_cfg (tx : Tx) : (issue tx s).cfg = s.cfg := rfl
@[simp] theorem issue_draws (tx : Tx) : (issue tx s).draws = s.draws := rfl
@[simp] theorem issue_reportedMaxBlk (tx : Tx) : (issue tx s).reportedMaxBlk = s.reportedMaxBlk := rfl

/-! `startInit` -/

@[simp] theorem startInit_fb : (startInit s).fb = s.fb := rfl
@[simp] theorem startInit_fbAlloc : (startInit s).fbAlloc = s.fbAlloc := rfl
@[simp] theorem startInit_x0 : (startInit s).x0 = s.x0 := rfl
@[simp] theorem startInit_x1 : (startInit s).x1 = s.x1 := rfl
@[simp] theorem startInit_x2 : (startInit s).x2 = s.x2 := rfl
@[simp] theorem startInit_x3 : (startInit s).x3 = s.x3 := rfl
@[simp] theorem startInit_phase : (startInit s).phase = .initCmd := rfl
@[simp] theorem startInit_idx : (startInit s).idx = 0 := rfl
@[simp] theorem startInit_ofs : (startInit s).ofs = s.ofs := rfl
@[simp] theorem startInit_cbuf : (startInit s).cbuf = s.cbuf := rfl
@[simp] theorem startInit_clen : (startInit s).clen = s.clen := rfl
@[simp] theorem startInit_pend : (startInit s).pend = s.pend := rfl
@[simp] theorem startInit_ntx : (startInit s).ntx = s.ntx := rfl
@[simp] theorem startInit_halt : (startInit s).halt = s.halt := rfl
@[simp] theorem startInit_sticky : (startInit s).sticky = s.sticky := rfl
@[simp] theorem startInit_last : (startInit s).last = s.last := rfl
@[simp] theorem startInit_errInfo : (startInit s).errInfo = s.errInfo := rfl
@[simp] theorem startInit_errPos : (startInit s).errPos = s.errPos := rfl
@[simp] theorem startInit_trace : (startInit s).trace = s.trace := rfl
@[simp] theorem startInit_responses : (startInit s).responses = s.responses := rfl
@[simp] theorem startInit_requests : (startInit s).requests = s.requests := rfl
@[simp] theorem startInit_answers : (startInit s).answers = s.answers := rfl
@[simp] theorem startInit_resetLine : (startInit s).resetLine = s.resetLine := rfl
@[simp] theorem startInit_cfg : (startInit s).cfg = s.cfg := rfl
@[simp] theorem startInit_draws : (startInit s).draws = s.draws := rfl
@[simp] theorem startInit_reportedMaxBlk : (startInit s).reportedMaxBlk = s.reportedMaxBlk := rfl

/-! `startSingle` -/

@[simp] theorem startSingle_fb (bs : List Byte) : (startSingle bs s).fb = s.fb := rfl
@[simp] theorem startSingle_fbAlloc (bs : List Byte) : (startSingle bs s).fbAlloc = s.fbAlloc := rfl
@[simp] theorem startSingle_x0 (bs : List Byte) : (startSingle bs s).x0 = s.x0 := rfl
@[simp] theorem startSingle_x1 (bs : List Byte) : (startSingle bs s).x1 = s.x1 := rfl
@[simp] theorem startSingle_x2 (bs : List Byte) : (startSingle bs s).x2 = s.x2 := rfl
@[simp] theorem startSingle_x3 (bs : List Byte) : (startSingle bs s).x3 = s.x3 := rfl
@[simp] theorem startSingle_phase (bs : List Byte) : (startSingle bs s).phase = .single := rfl
@[simp] theorem startSingle_idx (bs : List Byte) : (startSingle bs s).idx = s.idx := rfl
@[simp] theorem startSingle_ofs (bs : List Byte) : (startSingle bs s).ofs = s.ofs := rfl
@[simp] theorem startSingle_cbuf (bs : List Byte) : (startSingle bs s).cbuf = s.cbuf.load bs := rfl
@[simp] theorem startSingle_clen (bs : List Byte) : (startSingle bs s).clen = BitVec.ofNat 3 bs.length := rfl
@[simp] theorem startSingle_pend (bs : List Byte) : (startSingle bs s).pend = s.pend := rfl
@[simp] theorem startSingle_ntx (bs : List Byte) : (startSingle bs s).ntx = s.ntx := rfl
@[simp] theorem startSingle_halt (bs : List Byte) : (startSingle bs s).halt = s.halt := rfl
@[simp] theorem startSingle_sticky (bs : List Byte) : (startSingle bs s).sticky = s.sticky := rfl
@[simp] theorem startSingle_last (bs : List Byte) : (startSingle bs s).last = s.last := rfl
@[simp] theorem startSingle_errInfo (bs : List Byte) : (startSingle bs s).errInfo = s.errInfo := rfl
@[simp] theorem startSingle_errPos (bs : List Byte) : (startSingle bs s).errPos = s.errPos := rfl
@[simp] theorem startSingle_trace (bs : List Byte) : (startSingle bs s).trace = s.trace := rfl
@[simp] theorem startSingle_responses (bs : List Byte) : (startSingle bs s).responses = s.responses := rfl
@[simp] theorem startSingle_requests (bs : List Byte) : (startSingle bs s).requests = s.requests := rfl
@[simp] theorem startSingle_answers (bs : List Byte) : (startSingle bs s).answers = s.answers := rfl
@[simp] theorem startSingle_resetLine (bs : List Byte) : (startSingle bs s).resetLine = s.resetLine := rfl
@[simp] theorem startSingle_cfg (bs : List Byte) : (startSingle bs s).cfg = s.cfg := rfl
@[simp] theorem startSingle_draws (bs : List Byte) : (startSingle bs s).draws = s.draws := rfl
@[simp] theorem startSingle_reportedMaxBlk (bs : List Byte) : (startSingle bs s).reportedMaxBlk = s.reportedMaxBlk := rfl

/-! `raise`: an exception changes only what it records, `HALT` when it is fatal, and what `respond` changes. -/

@[simp] theorem raise_fb (x : Exn) : (raise x s).fb = s.fb := by cases x <;> rfl
@[simp] theorem raise_fbAlloc (x : Exn) : (raise x s).fbAlloc = s.fbAlloc := by cases x <;> rfl
@[simp] theorem raise_x0 (x : Exn) : (raise x s).x0 = s.x0 := by cases x <;> rfl
@[simp] theorem raise_x1 (x : Exn) : (raise x s).x1 = s.x1 := by cases x <;> rfl
@[simp] theorem raise_x2 (x : Exn) : (raise x s).x2 = s.x2 := by cases x <;> rfl
@[simp] theorem raise_x3 (x : Exn) : (raise x s).x3 = s.x3 := by cases x <;> rfl
@[simp] theorem raise_phase (x : Exn) : (raise x s).phase = .idle := by cases x <;> rfl
@[simp] theorem raise_idx (x : Exn) : (raise x s).idx = s.idx := by cases x <;> rfl
@[simp] theorem raise_ofs (x : Exn) : (raise x s).ofs = s.ofs := by cases x <;> rfl
@[simp] theorem raise_cbuf (x : Exn) : (raise x s).cbuf = s.cbuf := by cases x <;> rfl
@[simp] theorem raise_clen (x : Exn) : (raise x s).clen = s.clen := by cases x <;> rfl
@[simp] theorem raise_pend (x : Exn) : (raise x s).pend = false := by cases x <;> rfl
@[simp] theorem raise_ntx (x : Exn) : (raise x s).ntx = s.ntx := by cases x <;> rfl
@[simp] theorem raise_halt (x : Exn) : (raise x s).halt = (s.halt || x.fatal) := by cases x <;> rfl
@[simp] theorem raise_sticky (x : Exn) : (raise x s).sticky = true := by cases x <;> simp [raise, Exn.resultCode, respond, recordCode]
@[simp] theorem raise_last (x : Exn) : (raise x s).last = x.resultCode := by cases x <;> rfl
@[simp] theorem raise_trace (x : Exn) : (raise x s).trace = s.trace := by cases x <;> rfl
@[simp] theorem raise_responses (x : Exn) : (raise x s).responses = s.responses ++ [responseWord x.resultCode 0] := by cases x <;> rfl
@[simp] theorem raise_requests (x : Exn) : (raise x s).requests = s.requests := by cases x <;> rfl
@[simp] theorem raise_answers (x : Exn) : (raise x s).answers = s.answers := by cases x <;> rfl
@[simp] theorem raise_resetLine (x : Exn) : (raise x s).resetLine = s.resetLine := by cases x <;> rfl
@[simp] theorem raise_cfg (x : Exn) : (raise x s).cfg = s.cfg := by cases x <;> rfl
@[simp] theorem raise_draws (x : Exn) : (raise x s).draws = s.draws := by cases x <;> rfl
@[simp] theorem raise_reportedMaxBlk (x : Exn) : (raise x s).reportedMaxBlk = s.reportedMaxBlk := by cases x <;> rfl
@[simp] theorem raise_transport_errInfo (e : Half) : (raise (.transportFail e) s).errInfo = e := rfl
@[simp] theorem raise_transport_errPos (e : Half) : (raise (.transportFail e) s).errPos = s.ntx := rfl
@[simp] theorem raise_allocFail_errInfo : (raise .allocFail s).errInfo = s.errInfo := rfl
@[simp] theorem raise_allocFail_errPos : (raise .allocFail s).errPos = s.errPos := rfl
@[simp] theorem raise_lengthMismatch_errInfo : (raise .lengthMismatch s).errInfo = s.errInfo := rfl
@[simp] theorem raise_lengthMismatch_errPos : (raise .lengthMismatch s).errPos = s.errPos := rfl
@[simp] theorem raise_fbUnallocated_errInfo : (raise .fbUnallocated s).errInfo = s.errInfo := rfl
@[simp] theorem raise_fbUnallocated_errPos : (raise .fbUnallocated s).errPos = s.errPos := rfl
@[simp] theorem raise_illegalRequest_errInfo : (raise .illegalRequest s).errInfo = s.errInfo := rfl
@[simp] theorem raise_illegalRequest_errPos : (raise .illegalRequest s).errPos = s.errPos := rfl
@[simp] theorem raise_haltedRequest_errInfo : (raise .haltedRequest s).errInfo = s.errInfo := rfl
@[simp] theorem raise_haltedRequest_errPos : (raise .haltedRequest s).errPos = s.errPos := rfl

/-! Reset, rule R36. -/

@[simp] theorem applyReset_fb : (applyReset s).fb = [] := rfl
@[simp] theorem applyReset_fbAlloc : (applyReset s).fbAlloc = false := rfl
@[simp] theorem applyReset_x0 : (applyReset s).x0 = 0 := rfl
@[simp] theorem applyReset_x1 : (applyReset s).x1 = 0 := rfl
@[simp] theorem applyReset_x2 : (applyReset s).x2 = 0 := rfl
@[simp] theorem applyReset_x3 : (applyReset s).x3 = 0 := rfl
@[simp] theorem applyReset_phase : (applyReset s).phase = .idle := rfl
@[simp] theorem applyReset_idx : (applyReset s).idx = 0 := rfl
@[simp] theorem applyReset_ofs : (applyReset s).ofs = 0 := rfl
@[simp] theorem applyReset_cbuf : (applyReset s).cbuf = ⟨0, 0, 0, 0, 0, 0, 0⟩ := rfl
@[simp] theorem applyReset_clen : (applyReset s).clen = 0 := rfl
@[simp] theorem applyReset_pend : (applyReset s).pend = false := rfl
@[simp] theorem applyReset_ntx : (applyReset s).ntx = 0 := rfl
@[simp] theorem applyReset_halt : (applyReset s).halt = false := rfl
@[simp] theorem applyReset_sticky : (applyReset s).sticky = false := rfl
@[simp] theorem applyReset_last : (applyReset s).last = .ok := rfl
@[simp] theorem applyReset_errInfo : (applyReset s).errInfo = 0 := rfl
@[simp] theorem applyReset_errPos : (applyReset s).errPos = 0 := rfl
@[simp] theorem applyReset_trace : (applyReset s).trace = [] := rfl
@[simp] theorem applyReset_responses : (applyReset s).responses = [] := rfl
@[simp] theorem applyReset_requests : (applyReset s).requests = s.requests := rfl
@[simp] theorem applyReset_answers : (applyReset s).answers = s.answers := rfl
@[simp] theorem applyReset_resetLine : (applyReset s).resetLine = false := rfl
@[simp] theorem applyReset_cfg : (applyReset s).cfg = { s.cfg with maxBlk := s.reportedMaxBlk } := rfl
@[simp] theorem applyReset_draws : (applyReset s).draws = s.draws := rfl
@[simp] theorem applyReset_reportedMaxBlk : (applyReset s).reportedMaxBlk = s.reportedMaxBlk := rfl

end Sys2Proof.Laws
end

