-- ==== Sys2Proof/Laws/Commands.lean ====
section
/-! SUPPORT. The controller commands: decoding loses no byte, executing one issues its bytes, and so the command buffer goes
out unchanged whether or not its bytes are a command of the table (rule R96). -/

namespace Sys2Proof.Laws

open Sys2Proof.Machine

/-- A row found in a table by its byte is a row with that byte. -/
theorem mem_of_lookup {β : Type} (l : List (Byte × β)) (b : Byte) (v : β) (h : l.lookup b = some v) : (b, v) ∈ l := by
  induction l with
  | nil => cases h
  | cons e l ih =>
    obtain ⟨k, u⟩ := e
    by_cases hk : b = k
    · subst hk
      rw [List.lookup_cons_self] at h
      cases h
      exact List.mem_cons_self
    · have hk' : (b == k) = false := by simpa using hk
      simp only [List.lookup, hk'] at h
      exact List.mem_cons_of_mem _ (ih h)

theorem lookup_of_mem {β : Type} (l : List (Byte × β)) (hn : (l.map Prod.fst).Nodup) {b : Byte} {v : β}
    (hm : (b, v) ∈ l) : l.lookup b = some v := by
  induction l with
  | nil => cases hm
  | cons e l ih =>
    obtain ⟨k, w⟩ := e
    simp only [List.map_cons, List.nodup_cons] at hn
    rw [List.lookup_cons]
    rcases List.mem_cons.1 hm with h | h
    · cases h; simp
    · have : (b == k) = false := by
        simp only [beq_eq_false_iff_ne]; rintro rfl; exact hn.1 (List.mem_map.2 ⟨_, h, rfl⟩)
      simp only [this]; exact ih hn.2 h

/-- Every row of the one-byte table stands for the command that is sent as its byte (rule R92). -/
theorem oneByteRows_encode (c : CmdEnc) :
    ∀ row ∈ oneByteRows c, encodeCommand c row.2 = [row.1] ∧ row.2.isCommand = true := by
  simp [oneByteRows, encodeCommand, Instr.isCommand]

/-- Every row of the two-byte table stands for the command that is sent as its byte and the parameter (rules R92, R93). -/
theorem twoByteRows_encode (c : CmdEnc) (p : Byte) :
    ∀ row ∈ twoByteRows c p, encodeCommand c row.2 = [row.1, p] ∧ row.2.isCommand = true := by
  simp [twoByteRows, encodeCommand, Instr.isCommand]

/-- Decoding a command loses no byte: encoding what was decoded gives the bytes back, under any command table. -/
theorem encode_decodeCommand (c : CmdEnc) (bs : List Byte) (i : Instr) (h : decodeCommand c bs = some i) :
    encodeCommand c i = bs ∧ i.isCommand = true := by
  unfold decodeCommand at h
  split at h
  · split at h
    · rename_i j hl
      cases h
      exact oneByteRows_encode c _ (mem_of_lookup _ _ _ hl)
    · split at h
      · rename_i hb
        cases h
        exact ⟨by simp only [encodeCommand, hb], rfl⟩
      · cases h
  · exact twoByteRows_encode c _ _ (mem_of_lookup _ _ _ h)
  · split at h
    · rename_i hb; cases h; exact ⟨by simp only [encodeCommand, hb], rfl⟩
    · split at h
      · rename_i hb; cases h; exact ⟨by simp only [encodeCommand, hb], rfl⟩
      · cases h
  · split at h
    · rename_i hb; cases h; exact ⟨by simp only [encodeCommand, hb], rfl⟩
    · split at h
      · rename_i hb; cases h; exact ⟨by simp only [encodeCommand, hb], rfl⟩
      · cases h
  · cases h

/-- Executing a controller command issues its bytes (rule R113), for every command of the table. -/
theorem exec_command (i : Instr) (s : State) (h : i.isCommand = true) :
    exec i s = .next (issueCommand (encodeCommand s.cfg.cmdEnc i) s) := by
  cases i <;> first | rfl | cases h

/-- Whether or not the bytes of the command buffer are a command of the table, they are sent unchanged (rule R96). -/
theorem exec_bufferedCommand (s : State) (bs : List Byte) (h : nextIssue s = bufferedCommand s.cfg.cmdEnc bs) :
    issueStep s = .next (issueCommand bs s) := by
  unfold issueStep
  rw [h]
  unfold bufferedCommand
  cases hd : decodeCommand s.cfg.cmdEnc bs with
  | none => rfl
  | some i =>
    obtain ⟨he, hc⟩ := encode_decodeCommand _ _ _ hd
    simp only [exec_command i s hc, he]

/-- The machine's initialisation sequence, encoded, is the table of rule R116. -/
theorem initSeq_bytes (c : Cfg) : (initSeq c).map (encodeCommand c.cmdEnc) = initBytes c := rfl

theorem initSeq_isCommand (c : Cfg) : ∀ i ∈ initSeq c, i.isCommand = true := by simp [initSeq, Instr.isCommand]

@[simp] theorem initSeq_length (c : Cfg) : (initSeq c).length = 17 := rfl
@[simp] theorem initBytes_length (c : Cfg) : (initBytes c).length = 17 := rfl

/-- The machine's kind of a byte list is the one by length. -/
theorem kindOf_eq (bs : List Byte) : kindOf bs = kindByLength bs.length := by
  unfold kindOf kindByLength
  split
  · simp_all
  · simp_all
  · rename_i h1 h2; rw [if_neg h1, if_neg h2]

/-- The transaction of a command, in the statements' terms. -/
theorem commandTx_eq (s : State) (bs : List Byte) : commandTx s bs = cmdTx (s.x0.setWidth 8) bs := by
  simp [commandTx, cmdTx, kindOf_eq, sessionOf]

end Sys2Proof.Laws
end

