-- ==== Sys2Proof/Laws/Config.lean ====
section
/-! SUPPORT. Arithmetic of a well-formed configuration: the framebuffer's length (rules R6, R9, R26) and the number of chunks
of a push (rule R167). -/

namespace Sys2Proof.Laws

open Sys2Proof.Machine

variable {c : Cfg}

theorem fbSize_pos (h : c.WellFormed) : 0 < c.fbSize := by
  obtain ⟨h0, _, h1, _⟩ := h
  unfold Cfg.fbSize
  have : 1 * 8 ≤ c.w * c.h := Nat.mul_le_mul h0 h1
  omega

/-- `N <= 8192`, rule R26. -/
theorem fbSize_le (h : c.WellFormed) : c.fbSize ≤ 8192 := by
  obtain ⟨_, h1, _, h2, _⟩ := h
  unfold Cfg.fbSize
  have : c.w * c.h ≤ 256 * 256 := Nat.mul_le_mul h1 h2
  omega

/-- `N = P * W` and `H = 8 * P`. -/
theorem fbSize_eq (h : c.WellFormed) : c.fbSize = c.pages * c.w ∧ c.h = 8 * c.pages := by
  obtain ⟨-, -, -, -, h8, -⟩ := h
  have hP : c.h = 8 * (c.h / 8) := by omega
  refine ⟨?_, hP⟩
  unfold Cfg.fbSize Cfg.pages
  conv_lhs => rw [hP]
  rw [show c.w * (8 * (c.h / 8)) = 8 * (c.h / 8 * c.w) by ring, Nat.mul_div_cancel_left _ (by omega)]

theorem maxBlk_ge (h : c.WellFormed) : 7 ≤ c.maxBlk.toNat := h.2.2.2.2.2.1

/-- A chunk starts inside the framebuffer. -/
theorem chunk_start_lt (h : c.WellFormed) {j : Nat} (hj : j < chunkCount c) : j * c.maxBlk.toNat < c.fbSize := by
  have := maxBlk_ge h
  unfold chunkCount ceilDiv at hj
  rw [Nat.lt_iff_add_one_le, Nat.le_div_iff_mul_le (by omega), Nat.succ_mul] at hj
  omega

/-- The chunks cover the framebuffer. -/
theorem chunks_cover (h : c.WellFormed) : c.fbSize ≤ chunkCount c * c.maxBlk.toNat := by
  have := maxBlk_ge h
  unfold chunkCount ceilDiv
  have h1 := Nat.div_add_mod (c.fbSize + c.maxBlk.toNat - 1) c.maxBlk.toNat
  have h2 := Nat.mod_lt (c.fbSize + c.maxBlk.toNat - 1) (show 0 < c.maxBlk.toNat by omega)
  rw [Nat.mul_comm] at h1
  omega

theorem chunkCount_pos (h : c.WellFormed) : 0 < chunkCount c := by
  have h1 := chunks_cover h
  have h2 := fbSize_pos h
  rcases Nat.eq_zero_or_pos (chunkCount c) with h0 | h0
  · rw [h0] at h1; omega
  · exact h0

/-! ## Rule R93 -/

/-- The reference instance has the reference parameters of its own height. -/
theorem reference_initParams : InitParams.referenceFor Cfg.reference.h = some Cfg.reference.initParams := rfl

/-- Where rule R93 gives reference parameters, the multiplex ratio of a well-formed height is one less than it. -/
theorem referenceFor_multiplex {h : Nat} {p : InitParams} (hp : InitParams.referenceFor h = some p) :
    p.multiplex.toNat = h - 1 := by
  unfold InitParams.referenceFor referenceComPins at hp
  split at hp
  · subst h; cases hp; rfl
  split at hp
  · subst h; cases hp; rfl
  · cases hp

end Sys2Proof.Laws
end

