-- ==== Sys2Proof/Laws/Memory.lean ====
section
/-! SUPPORT. The laws of the framebuffer: what a read gives after a write, that every write keeps the canonical form and the
range, and that two canonical memories with the same reads are equal. -/

namespace Sys2Proof.Laws

open Sys2Proof.Machine

theorem cellsAt_fst_bounds (bs : List Byte) : ∀ a, ∀ e ∈ cellsAt a bs, a ≤ e.1 ∧ e.1 < a + bs.length := by
  induction bs with
  | nil => simp [cellsAt]
  | cons b bs ih =>
    intro a e he
    simp only [cellsAt] at he
    split at he
    · have := ih (a + 1) e he; simp; omega
    · rcases List.mem_cons.1 he with rfl | he
      · simp
      · have := ih (a + 1) e he; simp; omega

theorem cellsAt_listed (bs : List Byte) : ∀ a, ∀ e ∈ cellsAt a bs, e.2 ≠ Memory.unlisted := by
  induction bs with
  | nil => simp [cellsAt]
  | cons b bs ih =>
    intro a e he
    simp only [cellsAt] at he
    split at he
    · exact ih (a + 1) e he
    · rename_i h
      rcases List.mem_cons.1 he with rfl | he
      · exact h
      · exact ih (a + 1) e he

theorem cellsAt_rising (bs : List Byte) : ∀ a, ((cellsAt a bs).map Prod.fst).Pairwise (· < ·) := by
  induction bs with
  | nil => simp [cellsAt]
  | cons b bs ih =>
    intro a
    simp only [cellsAt]
    split
    · exact ih (a + 1)
    · simp only [List.map_cons, List.pairwise_cons]
      refine ⟨fun k hk => ?_, ih (a + 1)⟩
      obtain ⟨e, he, rfl⟩ := List.mem_map.1 hk
      have := cellsAt_fst_bounds bs (a + 1) e he
      omega

/-- A read through a list of entries of which none has the offset goes on behind it. -/
theorem readByte_append_of_not_mem (l m : Memory) (k : Nat) (h : ∀ e ∈ l, e.1 ≠ k) :
    readByte (l ++ m) k = readByte m k := by
  induction l with
  | nil => rfl
  | cons e l ih =>
    obtain ⟨a, v⟩ := e
    have ha : a ≠ k := h (a, v) (by simp)
    simp only [List.cons_append, readByte, if_neg ha]
    exact ih fun e he => h e (by simp [he])

/-- An offset no entry has reads as an unlisted one. -/
theorem readByte_of_not_mem (m : Memory) (k : Nat) (h : ∀ e ∈ m, e.1 ≠ k) : readByte m k = Memory.unlisted := by
  simpa [readByte] using readByte_append_of_not_mem m [] k h

/-- Entries that a read of `k` does not ask for may be filtered out. -/
theorem readByte_filter (p : Nat → Bool) (m : Memory) (k : Nat) (hk : p k = true) :
    readByte (m.filter fun e => p e.1) k = readByte m k := by
  induction m with
  | nil => rfl
  | cons e m ih =>
    obtain ⟨a, v⟩ := e
    by_cases hp : p a = true
    · simp only [List.filter_cons, hp, if_true, readByte, ih]
    · have ha : a ≠ k := fun h => hp (h ▸ hk)
      simp [hp, readByte, ha, ih]

/-- The first list decides where the offset is not in the second. -/
theorem readByte_append_right_absent (l m : Memory) (k : Nat) (h : ∀ e ∈ m, e.1 ≠ k) :
    readByte (l ++ m) k = readByte l k := by
  induction l with
  | nil => simpa [readByte] using readByte_of_not_mem m k h
  | cons e l ih =>
    obtain ⟨a, v⟩ := e
    simp only [List.cons_append, readByte, ih]

theorem readByte_cellsAt (bs : List Byte) :
    ∀ a k, readByte (cellsAt a bs) k = if a ≤ k ∧ k < a + bs.length then bs.getD (k - a) Memory.unlisted
      else Memory.unlisted := by
  induction bs with
  | nil => intro a k; simp [cellsAt, readByte]
  | cons b bs ih =>
    intro a k
    have step : readByte (cellsAt a (b :: bs)) k = if k = a then b else readByte (cellsAt (a + 1) bs) k := by
      simp only [cellsAt]
      by_cases hb : b = Memory.unlisted
      · simp only [hb, if_true]
        split
        · subst k
          exact readByte_of_not_mem _ _ fun e he => by have := cellsAt_fst_bounds bs (a + 1) e he; omega
        · rfl
      · simp only [hb, if_false, readByte, eq_comm]
    rw [step, ih]
    by_cases hk : k = a
    · subst hk; simp
    · rw [if_neg hk]
      by_cases h1 : a ≤ k ∧ k < a + (b :: bs).length
      · have h2 : a + 1 ≤ k ∧ k < a + 1 + bs.length := by simp at h1; omega
        obtain ⟨d, rfl⟩ : ∃ d, k = a + 1 + d := ⟨k - (a + 1), by omega⟩
        rw [if_pos h1, if_pos h2, show a + 1 + d - (a + 1) = d by omega, show a + 1 + d - a = d + 1 by omega]
        simp
      · have h2 : ¬(a + 1 ≤ k ∧ k < a + 1 + bs.length) := by simp at h1; omega
        rw [if_neg h1, if_neg h2]

/-- A read after a write: inside the written bytes the written byte, outside what was there. -/
theorem readByte_writeBytes (m : Memory) (a : Nat) (bs : List Byte) (k : Nat) :
    readByte (writeBytes m a bs) k =
      if a ≤ k ∧ k < a + bs.length then bs.getD (k - a) Memory.unlisted else readByte m k := by
  unfold writeBytes
  by_cases h : a ≤ k ∧ k < a + bs.length
  · rw [readByte_append_right_absent, readByte_append_of_not_mem, readByte_cellsAt, if_pos h, if_pos h]
    · intro e he; have := (List.mem_filter.1 he).2; simp at this; omega
    · intro e he; have := (List.mem_filter.1 he).2; simp at this; omega
  · rw [if_neg h]
    by_cases hlow : k < a
    · rw [readByte_append_right_absent, readByte_append_right_absent]
      · exact readByte_filter (fun i => decide (i < a)) m k (by simpa using hlow)
      · intro e he; have := cellsAt_fst_bounds bs a e he; omega
      · intro e he; have := (List.mem_filter.1 he).2; simp at this; omega
    · rw [readByte_append_of_not_mem]
      · exact readByte_filter (fun i => decide (a + bs.length ≤ i)) m k (by simp; omega)
      · intro e he
        rcases List.mem_append.1 he with he | he
        · have := (List.mem_filter.1 he).2; simp at this; omega
        · have := cellsAt_fst_bounds bs a e he; omega

theorem readByte_writeBytes_inside (m : Memory) (a : Nat) (bs : List Byte) (i : Nat) (h : i < bs.length) :
    readByte (writeBytes m a bs) (a + i) = bs[i] := by
  rw [readByte_writeBytes, if_pos ⟨by omega, by omega⟩, show a + i - a = i by omega]
  simp [List.getD, h]

theorem readByte_writeBytes_outside (m : Memory) (a : Nat) (bs : List Byte) (k : Nat)
    (h : k < a ∨ a + bs.length ≤ k) : readByte (writeBytes m a bs) k = readByte m k := by
  rw [readByte_writeBytes, if_neg (by omega)]

/-- Every write keeps the canonical form. -/
theorem writeBytes_wf (m : Memory) (a : Nat) (bs : List Byte) (h : Memory.wf m) : Memory.wf (writeBytes m a bs) := by
  obtain ⟨hr, hv⟩ := h
  have sub : ∀ p : Host.Cell → Bool, ((m.filter p).map Prod.fst).Pairwise (· < ·) := fun p =>
    hr.sublist ((List.filter_sublist (l := m)).map _)
  refine ⟨?_, ?_⟩
  · unfold writeBytes
    rw [List.map_append, List.map_append, List.pairwise_append, List.pairwise_append]
    refine ⟨⟨sub _, cellsAt_rising bs a, ?_⟩, sub _, ?_⟩
    · intro x hx y hy
      obtain ⟨e, he, rfl⟩ := List.mem_map.1 hx
      obtain ⟨f, hf, rfl⟩ := List.mem_map.1 hy
      have h1 := (List.mem_filter.1 he).2
      have h2 := cellsAt_fst_bounds bs a f hf
      simp at h1; omega
    · intro x hx y hy
      obtain ⟨f, hf, rfl⟩ := List.mem_map.1 hy
      have h2 := (List.mem_filter.1 hf).2
      simp only [decide_eq_true_eq] at h2
      rcases List.mem_append.1 hx with hx | hx <;> obtain ⟨e, he, rfl⟩ := List.mem_map.1 hx
      · have h1 := (List.mem_filter.1 he).2
        simp at h1; omega
      · have h1 := cellsAt_fst_bounds bs a e he
        omega
  · intro e he
    simp only [writeBytes, List.mem_append, List.mem_filter] at he
    rcases he with (⟨he, -⟩ | he) | ⟨he, -⟩
    · exact hv e he
    · exact cellsAt_listed bs a e he
    · exact hv e he

/-- A write inside the range keeps every entry inside it. -/
theorem writeBytes_range (m : Memory) (a n : Nat) (bs : List Byte) (h : ∀ e ∈ m, e.1 < n) (hb : a + bs.length ≤ n) :
    ∀ e ∈ writeBytes m a bs, e.1 < n := by
  intro e he
  simp only [writeBytes, List.mem_append, List.mem_filter] at he
  rcases he with (⟨he, -⟩ | he) | ⟨he, -⟩
  · exact h e he
  · have := cellsAt_fst_bounds bs a e he; omega
  · exact h e he

theorem readByte_head (a : Nat) (v : Byte) (m : Memory) : readByte ((a, v) :: m) a = v := by simp [readByte]

/-- Two canonical memories with the same reads are equal data. -/
theorem memory_ext : ∀ m n : Memory, Memory.wf m → Memory.wf n → (∀ k, readByte m k = readByte n k) → m = n := by
  have low : ∀ (a : Nat) (v : Byte) (m : Memory), Memory.wf ((a, v) :: m) → ∀ e ∈ m, a < e.1 := by
    intro a v m h e he
    exact (List.pairwise_cons.1 h.1).1 e.1 (List.mem_map.2 ⟨e, he, rfl⟩)
  have tail : ∀ (e : Host.Cell) (m : Memory), Memory.wf (e :: m) → Memory.wf m := fun e m h =>
    ⟨(List.pairwise_cons.1 h.1).2, fun f hf => h.2 f (by simp [hf])⟩
  have absent : ∀ (a : Nat) (v : Byte) (m : Memory) (k : Nat), Memory.wf ((a, v) :: m) → k < a →
      readByte ((a, v) :: m) k = Memory.unlisted := fun a v m k h hk =>
    readByte_of_not_mem _ _ fun e he => by
      rcases List.mem_cons.1 he with rfl | he
      · simp; omega
      · have := low a v m h e he; omega
  intro m
  induction m with
  | nil =>
    intro n _ hn h
    cases n with
    | nil => rfl
    | cons e n =>
      obtain ⟨a, v⟩ := e
      exact absurd ((readByte_head a v n).symm.trans (h a).symm) (hn.2 (a, v) (by simp))
  | cons e m ih =>
    obtain ⟨a, v⟩ := e
    intro n hm hn h
    cases n with
    | nil => exact absurd ((readByte_head a v m).symm.trans (h a)) (hm.2 (a, v) (by simp))
    | cons f n =>
      obtain ⟨b, w⟩ := f
      have hab : a = b := by
        rcases Nat.lt_trichotomy a b with hlt | heq | hgt
        · exact absurd ((readByte_head a v m).symm.trans ((h a).trans (absent b w n a hn hlt))) (hm.2 (a, v) (by simp))
        · exact heq
        · exact absurd ((readByte_head b w n).symm.trans ((h b).symm.trans (absent a v m b hm hgt)))
            (hn.2 (b, w) (by simp))
      subst hab
      have hvw : v = w := by simpa [readByte] using h a
      subst hvw
      congr 1
      refine ih n (tail _ _ hm) (tail _ _ hn) fun k => ?_
      by_cases hk : a = k
      · subst hk
        rw [readByte_of_not_mem m a fun e he => by have := low a v m hm e he; omega,
          readByte_of_not_mem n a fun e he => by have := low a v n hn e he; omega]
      · simpa [readByte, hk] using h k

theorem readBytes_eq_map (m : Memory) : ∀ n a, readBytes m a n = (List.range n).map fun i => readByte m (a + i) := by
  intro n
  induction n with
  | zero => intro a; rfl
  | succ n ih =>
    intro a
    rw [readBytes, ih, List.range_succ_eq_map]
    simp only [List.map_cons, List.map_map, Nat.add_zero, List.cons.injEq, true_and]
    refine List.map_congr_left fun i _ => ?_
    simp [Nat.add_assoc, Nat.add_comm 1]

@[simp] theorem readBytes_length (m : Memory) (a n : Nat) : (readBytes m a n).length = n := by
  rw [readBytes_eq_map]; simp

/-- Consecutive reads join. -/
theorem readBytes_add (m : Memory) (a n k : Nat) : readBytes m a (n + k) = readBytes m a n ++ readBytes m (a + n) k := by
  induction n generalizing a with
  | zero => simp [readBytes]
  | succ n ih =>
    rw [show n + 1 + k = (n + k) + 1 by omega, readBytes, readBytes, ih]
    simp [show a + 1 + n = a + (n + 1) by omega]

/-- Every byte of a whole-framebuffer write of zeros reads zero. -/
theorem readByte_zeroBytes (c : Cfg) (m : Memory) (k : Nat) (h : k < c.fbSize) :
    readByte (writeBytes m 0 (zeroBytes c)) k = 0 := by
  have := readByte_writeBytes_inside m 0 (zeroBytes c) k (by simpa [zeroBytes] using h)
  simpa [zeroBytes] using this

theorem reset_memory_wf (c : Cfg) : Memory.wf (State.resetWith c).fb := by
  constructor <;> simp [State.resetWith]

end Sys2Proof.Laws
end

