-- ==== Sys2Proof/Laws/Words.lean ====
section
/-! SUPPORT. The fields of an assembled request word, a word put together again from its fields, and the payload. -/

namespace Sys2Proof.Laws

open Sys2Proof.Machine

section GWord
variable (o : BitVec 4) (sid : Byte) (arg : Half)

@[simp] theorem wordOpc_gWord : wordOpc (gWord o sid arg) = o := by
  refine BitVec.eq_of_getLsbD_eq fun i hi => ?_
  simp only [wordOpc, gWord, BitVec.getLsbD_extractLsb', BitVec.getLsbD_append]
  simp [hi, show ¬28 + i < 16 by omega, show ¬28 + i - 16 < 8 by omega, show ¬28 + i - 16 - 8 < 4 by omega,
    show 28 + i - 16 - 8 - 4 = i by omega]

@[simp] theorem wordZG_gWord : wordZG (gWord o sid arg) = 0 := by
  refine BitVec.eq_of_getLsbD_eq fun i hi => ?_
  simp only [wordZG, gWord, BitVec.getLsbD_extractLsb', BitVec.getLsbD_append]
  simp [show ¬24 + i < 16 by omega, show ¬24 + i - 16 < 8 by omega, show 24 + i - 16 - 8 < 4 by omega]

@[simp] theorem wordSid_gWord : wordSid (gWord o sid arg) = sid := by
  refine BitVec.eq_of_getLsbD_eq fun i hi => ?_
  simp only [wordSid, gWord, BitVec.getLsbD_extractLsb', BitVec.getLsbD_append]
  simp [hi]

@[simp] theorem wordArg_gWord : wordArg (gWord o sid arg) = arg := by
  refine BitVec.eq_of_getLsbD_eq fun i hi => ?_
  simp only [wordArg, gWord, BitVec.getLsbD_extractLsb', BitVec.getLsbD_append]
  simp [hi]

end GWord

section PWord
variable (mode : BitVec 2) (x y : BitVec 12)

@[simp] theorem wordOpc_pWord : wordOpc (pWord mode x y) = 5 := by
  refine BitVec.eq_of_getLsbD_eq fun i hi => ?_
  simp only [wordOpc, pWord, BitVec.getLsbD_extractLsb', BitVec.getLsbD_append]
  simp [hi, show ¬28 + i < 12 by omega, show ¬28 + i - 12 < 12 by omega, show ¬28 + i - 12 - 12 < 2 by omega,
    show ¬28 + i - 12 - 12 - 2 < 2 by omega, show 28 + i - 12 - 12 - 2 - 2 = i by omega]

@[simp] theorem wordZP_pWord : wordZP (pWord mode x y) = 0 := by
  refine BitVec.eq_of_getLsbD_eq fun i hi => ?_
  simp only [wordZP, pWord, BitVec.getLsbD_extractLsb', BitVec.getLsbD_append]
  simp [show ¬26 + i < 12 by omega, show ¬26 + i - 12 < 12 by omega, show ¬26 + i - 12 - 12 < 2 by omega,
    show 26 + i - 12 - 12 - 2 < 2 by omega]

@[simp] theorem wordMode_pWord : wordMode (pWord mode x y) = mode := by
  refine BitVec.eq_of_getLsbD_eq fun i hi => ?_
  simp only [wordMode, pWord, BitVec.getLsbD_extractLsb', BitVec.getLsbD_append]
  simp [hi, show ¬24 + i < 12 by omega, show ¬24 + i - 12 < 12 by omega,
    show 24 + i - 12 - 12 = i by omega]

@[simp] theorem wordX_pWord : wordX (pWord mode x y) = x := by
  refine BitVec.eq_of_getLsbD_eq fun i hi => ?_
  simp only [wordX, pWord, BitVec.getLsbD_extractLsb', BitVec.getLsbD_append]
  simp [hi]

@[simp] theorem wordY_pWord : wordY (pWord mode x y) = y := by
  refine BitVec.eq_of_getLsbD_eq fun i hi => ?_
  simp only [wordY, pWord, BitVec.getLsbD_extractLsb', BitVec.getLsbD_append]
  simp [hi]

end PWord

section Reserved
variable (o : BitVec 4) (x : BitVec 28)

@[simp] theorem wordOpc_reserved : wordOpc (o ++ x : Word) = o := by
  refine BitVec.eq_of_getLsbD_eq fun i hi => ?_
  simp only [wordOpc, BitVec.getLsbD_extractLsb', BitVec.getLsbD_append]
  simp [hi]

@[simp] theorem wordRest_reserved : wordRest (o ++ x : Word) = x := by
  refine BitVec.eq_of_getLsbD_eq fun i hi => ?_
  simp only [wordRest, BitVec.getLsbD_extractLsb', BitVec.getLsbD_append]
  simp [hi]

@[simp] theorem wordSid_reserved : wordSid (o ++ x : Word) = x.extractLsb' 16 8 := by
  refine BitVec.eq_of_getLsbD_eq fun i hi => ?_
  simp only [wordSid, BitVec.getLsbD_extractLsb', BitVec.getLsbD_append]
  simp [hi, show 16 + i < 28 by omega]

@[simp] theorem wordArg_reserved : wordArg (o ++ x : Word) = x.extractLsb' 0 16 := by
  refine BitVec.eq_of_getLsbD_eq fun i hi => ?_
  simp only [wordArg, BitVec.getLsbD_extractLsb', BitVec.getLsbD_append]
  simp [hi, show i < 28 by omega]

end Reserved

/-- A word is its opcode and its other 28 bits. -/
theorem reserved_of_fields (w : Word) : (wordOpc w ++ wordRest w : Word) = w := by
  refine BitVec.eq_of_getLsbD_eq fun i hi => ?_
  simp only [wordOpc, wordRest, BitVec.getLsbD_append, BitVec.getLsbD_extractLsb']
  by_cases h : i < 28
  · simp [h]
  · simp [h, show i - 28 < 4 by omega, show 28 + (i - 28) = i by omega]

/-- A word of format G with `Z = 0` is its three other fields. -/
theorem gWord_of_fields (w : Word) (h : wordZG w = 0) : gWord (wordOpc w) (wordSid w) (wordArg w) = w := by
  refine BitVec.eq_of_getLsbD_eq fun i hi => ?_
  have hz : 24 ≤ i → i < 28 → w.getLsbD i = false := fun h1 h2 => by
    have := congrArg (fun b => b.getLsbD (i - 24)) h
    simpa [wordZG, show i - 24 < 4 by omega, show 24 + (i - 24) = i by omega] using this
  simp only [gWord, wordOpc, wordSid, wordArg, BitVec.getLsbD_append, BitVec.getLsbD_extractLsb']
  by_cases h1 : i < 16
  · simp [h1]
  by_cases h2 : i < 24
  · simp [h1, show i - 16 < 8 by omega, show 16 + (i - 16) = i by omega]
  by_cases h3 : i < 28
  · simp [h1, show ¬i - 16 < 8 by omega, show i - 16 - 8 < 4 by omega, hz (by omega) h3]
  · simp [h1, show ¬i - 16 < 8 by omega, show ¬i - 16 - 8 < 4 by omega, show i - 16 - 8 - 4 < 4 by omega,
      show 28 + (i - 16 - 8 - 4) = i by omega]

/-- A word of format P with `Z = 0` is its three other fields. -/
theorem pWord_of_fields (w : Word) (ho : wordOpc w = 5) (h : wordZP w = 0) :
    pWord (wordMode w) (wordX w) (wordY w) = w := by
  refine BitVec.eq_of_getLsbD_eq fun i hi => ?_
  have hz : 26 ≤ i → i < 28 → w.getLsbD i = false := fun h1 h2 => by
    have := congrArg (fun b => b.getLsbD (i - 26)) h
    simpa [wordZP, show i - 26 < 2 by omega, show 26 + (i - 26) = i by omega] using this
  have hopc : 28 ≤ i → w.getLsbD i = (5#4).getLsbD (i - 28) := fun h1 => by
    have := congrArg (fun b => b.getLsbD (i - 28)) ho
    simpa [wordOpc, show i - 28 < 4 by omega, show 28 + (i - 28) = i by omega] using this
  simp only [pWord, wordMode, wordX, wordY, BitVec.getLsbD_append, BitVec.getLsbD_extractLsb']
  by_cases h1 : i < 12
  · simp [h1]
  by_cases h2 : i < 24
  · simp [h1, show i - 12 < 12 by omega, show 12 + (i - 12) = i by omega]
  by_cases h3 : i < 26
  · simp [h1, show ¬i - 12 < 12 by omega, show i - 12 - 12 < 2 by omega, show 24 + (i - 12 - 12) = i by omega]
  by_cases h4 : i < 28
  · simp [h1, show ¬i - 12 < 12 by omega, show ¬i - 12 - 12 < 2 by omega, show i - 12 - 12 - 2 < 2 by omega,
      hz (by omega) h4]
  · simp [h1, show ¬i - 12 < 12 by omega, show ¬i - 12 - 12 < 2 by omega, show ¬i - 12 - 12 - 2 < 2 by omega,
      show i - 12 - 12 - 2 - 2 = i - 28 by omega, hopc (by omega)]

/-! ## The latches a word writes -/

theorem latchWord_gWord (o : BitVec 4) (sid : Byte) (arg : Half) (s : State) (ho : o ≠ 5) :
    latchWord (gWord o sid arg) s = latchG sid arg s := by
  unfold latchWord; rw [if_neg (by rw [wordOpc_gWord]; exact ho), wordSid_gWord, wordArg_gWord]

theorem latchWord_pWord (m : BitVec 2) (x y : BitVec 12) (s : State) : latchWord (pWord m x y) s = latchP m x y s := by
  unfold latchWord; rw [if_pos (by rw [wordOpc_pWord]), wordMode_pWord, wordX_pWord, wordY_pWord]

theorem latchWord_reserved (o : BitVec 4) (x : BitVec 28) (s : State) (ho : o ≠ 5) :
    latchWord (o ++ x : Word) s = latchG (x.extractLsb' 16 8) (x.extractLsb' 0 16) s := by
  unfold latchWord; rw [if_neg (by rw [wordOpc_reserved]; exact ho), wordSid_reserved, wordArg_reserved]

/-! ## Taking a request from the port -/

theorem takeExactly_spec {α : Type} : ∀ (n : Nat) (l p r : List α),
    takeExactly n l = some (p, r) ↔ p.length = n ∧ l = p ++ r := by
  intro n
  induction n with
  | zero =>
    intro l p r
    cases p <;> simp [takeExactly, eq_comm]
  | succ n ih =>
    intro l p r
    cases l with
    | nil => cases p <;> simp [takeExactly]
    | cons a l =>
      cases p with
      | nil => cases h : takeExactly n l with
        | none => simp [takeExactly, h]
        | some q => simp [takeExactly, h]
      | cons b p =>
        have := ih l p r
        cases h : takeExactly n l with
        | none => simp only [h] at this; simp [takeExactly, h]; intro hp _ hl; exact absurd (this.2 ⟨hp, hl⟩) (by simp)
        | some q =>
          obtain ⟨q1, q2⟩ := q
          rw [h] at this
          simp only [Option.some.injEq, Prod.mk.injEq] at this
          simp only [takeExactly, h, Option.some.injEq, Prod.mk.injEq, List.cons.injEq, List.length_cons,
            List.cons_append, Nat.add_right_cancel_iff]
          constructor
          · rintro ⟨⟨rfl, rfl⟩, rfl⟩; have := this.1 ⟨rfl, rfl⟩; simp [this.1, this.2]
          · rintro ⟨hp, rfl, hl⟩; have := this.2 ⟨hp, hl⟩; simp [this.1, this.2]

/-- What is fetched, rule R75: the first word, exactly its payload words, and the rest. -/
theorem fetchRequest_spec (ws : List Word) (w : Word) (pay rest : List Word) :
    fetchRequest ws = some (w, pay, rest) ↔ ws = w :: (pay ++ rest) ∧ pay.length = payloadWords w := by
  cases ws with
  | nil => simp [fetchRequest]
  | cons a ws =>
    cases h : takeExactly (payloadWords a) ws with
    | none =>
      simp only [fetchRequest, h]
      constructor
      · intro hc; cases hc
      · rintro ⟨hw, hp⟩
        injection hw with h1 h2
        subst h1
        exact absurd ((takeExactly_spec _ _ pay rest).2 ⟨hp, h2⟩) (by simp [h])
    | some q =>
      obtain ⟨p, r⟩ := q
      have hs := (takeExactly_spec _ _ _ _).1 h
      simp only [fetchRequest, h, Option.some.injEq, Prod.mk.injEq, List.cons.injEq]
      constructor
      · rintro ⟨rfl, rfl, rfl⟩; exact ⟨⟨rfl, hs.2⟩, hs.1⟩
      · rintro ⟨⟨rfl, hl⟩, hp⟩
        have := (takeExactly_spec _ _ pay rest).2 ⟨hp, hl⟩
        rw [h] at this; simp at this; exact ⟨rfl, this.1, this.2⟩

/-! ## The payload -/

@[simp] theorem wordBytes_pack (a b c d : Byte) : wordBytes (d ++ c ++ b ++ a : Word) = [a, b, c, d] := by
  have h0 : (d ++ c ++ b ++ a : Word).extractLsb' 0 8 = a := by
    refine BitVec.eq_of_getLsbD_eq fun i hi => ?_
    simp only [BitVec.getLsbD_extractLsb', BitVec.getLsbD_append]; simp [hi]
  have h1 : (d ++ c ++ b ++ a : Word).extractLsb' 8 8 = b := by
    refine BitVec.eq_of_getLsbD_eq fun i hi => ?_
    simp only [BitVec.getLsbD_extractLsb', BitVec.getLsbD_append]; simp [hi]
  have h2 : (d ++ c ++ b ++ a : Word).extractLsb' 16 8 = c := by
    refine BitVec.eq_of_getLsbD_eq fun i hi => ?_
    simp only [BitVec.getLsbD_extractLsb', BitVec.getLsbD_append]
    simp [hi, show ¬16 + i < 8 by omega, show ¬16 + i - 8 < 8 by omega,
      show 16 + i - 8 - 8 = i by omega]
  have h3 : (d ++ c ++ b ++ a : Word).extractLsb' 24 8 = d := by
    refine BitVec.eq_of_getLsbD_eq fun i hi => ?_
    simp only [BitVec.getLsbD_extractLsb', BitVec.getLsbD_append]
    simp [hi, show ¬24 + i < 8 by omega, show ¬24 + i - 8 < 8 by omega, show ¬24 + i - 8 - 8 < 8 by omega,
      show 24 + i - 8 - 8 - 8 = i by omega]
  simp only [wordBytes, h0, h1, h2, h3]

@[simp] theorem packPayload_length (bs : List Byte) : (packPayload bs).length = ceilDiv bs.length 4 := by
  induction bs using packPayload.induct with
  | case1 => simp [packPayload, ceilDiv]
  | case2 => simp [packPayload, ceilDiv]
  | case3 => simp [packPayload, ceilDiv]
  | case4 => simp [packPayload, ceilDiv]
  | case5 a b c d rest ih => simp only [packPayload, List.length_cons, ih, ceilDiv]; omega

/-- Packing and unpacking give the payload back, rule R77. -/
theorem unpack_pack (bs : List Byte) : unpackPayload bs.length (packPayload bs) = bs := by
  induction bs using packPayload.induct with
  | case1 => rfl
  | case2 a =>
    simp only [unpackPayload, packPayload, List.flatMap_cons, List.flatMap_nil, wordBytes_pack]; rfl
  | case3 a b =>
    simp only [unpackPayload, packPayload, List.flatMap_cons, List.flatMap_nil, wordBytes_pack]; rfl
  | case4 a b c =>
    simp only [unpackPayload, packPayload, List.flatMap_cons, List.flatMap_nil, wordBytes_pack]; rfl
  | case5 a b c d rest ih =>
    simp only [unpackPayload] at ih
    simp [unpackPayload, packPayload, ih]

theorem flatMap_wordBytes_length (pay : List Word) : (pay.flatMap wordBytes).length = 4 * pay.length := by
  induction pay with
  | nil => rfl
  | cons w pay ih => simp only [List.flatMap_cons, List.length_append, ih, List.length_cons, wordBytes, List.length_nil]; omega

theorem unpackPayload_length (len : Nat) (pay : List Word) (h : len ≤ 4 * pay.length) :
    (unpackPayload len pay).length = len := by
  rw [unpackPayload, List.length_take, flatMap_wordBytes_length, Nat.min_eq_left h]

@[simp] theorem payloadLen_toNat (bs : List Byte) (h : bs.length < 65536) : (payloadLen bs).toNat = bs.length := by
  simp [payloadLen, Nat.mod_eq_of_lt h]

end Sys2Proof.Laws
end

