-- ==== Sys2Proof/Laws/PerInstr.lean ====
section
/-! SUPPORT. One statement for every instruction as syntax, one lemma per constructor: a request encodes to a word with as many
payload words as the word asks for (rule R75), a controller command to one to seven bytes (rule R92). -/

namespace Sys2Proof.Laws

open Sys2Proof.Machine

/-- Where an instruction's encoding lies: on the request port, or on the command channel. -/
def EncodedSpace.Statement (i : Instr) : Prop :=
  ∀ c : CmdEnc,
    (i.isCommand = true → encode c i = .command (encodeCommand c i) ∧ 1 ≤ (encodeCommand c i).length ∧
      (encodeCommand c i).length ≤ 7) ∧
    (i.isCommand = false → i.wf = true → ∃ w pay, encode c i = .request w pay ∧ pay.length = payloadWords w)

/-- A controller command. -/
theorem EncodedSpace.of_command {i : Instr} (h : i.isCommand = true) : EncodedSpace.Statement i := by
  refine fun c => ⟨fun _ => ?_, fun h' => by rw [h] at h'; cases h'⟩
  cases i <;> first
    | (cases h; done)
    | exact ⟨rfl, by simp [encodeCommand]⟩

theorem payloadWords_other {w : Word} (h4 : wordOpc w ≠ 0x4) (h6 : wordOpc w ≠ 0x6) : payloadWords w = 0 := by
  unfold payloadWords
  rw [if_neg (by rintro (h | h); exacts [h4 h, h6 h])]

/-- A request without payload. -/
theorem EncodedSpace.of_request {i : Instr} {w : Word} (h : i.isCommand = false)
    (he : ∀ c, encode c i = .request w []) (o : BitVec 4) (ho : wordOpc w = o) (h4 : o ≠ 0x4) (h6 : o ≠ 0x6) :
    EncodedSpace.Statement i :=
  fun c => ⟨fun h' => (by rw [h] at h'; cases h'), fun _ _ => ⟨w, [], he c, by
    rw [payloadWords_other (ho ▸ h4) (ho ▸ h6)]; rfl⟩⟩

/-- A request with a payload. -/
theorem EncodedSpace.of_payload {i : Instr} {o : BitVec 4} {sid : Byte} {pay : List Byte} (h : i.isCommand = false)
    (he : ∀ c, encode c i = .request (gWord o sid (payloadLen pay)) (packPayload pay)) (ho : o = 0x4 ∨ o = 0x6)
    (hl : i.wf = true → pay.length < 65536) : EncodedSpace.Statement i :=
  fun c => ⟨fun h' => (by rw [h] at h'; cases h'), fun _ hw => ⟨_, _, he c, by
    rw [packPayload_length, payloadWords, wordOpc_gWord, if_pos ho, wordArg_gWord, payloadLen_toNat _ (hl hw)]⟩⟩

theorem EncodedSpace.init (sid : Byte) : EncodedSpace.Statement (.init sid) :=
  EncodedSpace.of_request rfl (fun _ => rfl) 0x1 (wordOpc_gWord _ _ _) (by decide) (by decide)

theorem EncodedSpace.awake (sid : Byte) (on : Bool) : EncodedSpace.Statement (.awake sid on) :=
  EncodedSpace.of_request rfl (fun _ => rfl) 0x2 (wordOpc_gWord _ _ _) (by decide) (by decide)

theorem EncodedSpace.scroll (sid : Byte) (dir : Half) : EncodedSpace.Statement (.scroll sid dir) :=
  EncodedSpace.of_request rfl (fun _ => rfl) 0x3 (wordOpc_gWord _ _ _) (by decide) (by decide)

theorem EncodedSpace.wrcmd (sid : Byte) (pay : List Byte) : EncodedSpace.Statement (.wrcmd sid pay) :=
  EncodedSpace.of_payload rfl (fun _ => rfl) (.inl rfl) of_decide_eq_true

theorem EncodedSpace.plot (mode : BitVec 2) (x y : BitVec 12) : EncodedSpace.Statement (.plot mode x y) :=
  EncodedSpace.of_request rfl (fun _ => rfl) 0x5 (wordOpc_pWord _ _ _) (by decide) (by decide)

theorem EncodedSpace.load (pay : List Byte) : EncodedSpace.Statement (.load pay) :=
  EncodedSpace.of_payload rfl (fun _ => rfl) (.inr rfl) of_decide_eq_true

theorem EncodedSpace.loadrom (k : Half) : EncodedSpace.Statement (.loadrom k) :=
  EncodedSpace.of_request rfl (fun _ => rfl) 0x7 (wordOpc_gWord _ _ _) (by decide) (by decide)

theorem EncodedSpace.clear : EncodedSpace.Statement .clear :=
  EncodedSpace.of_request rfl (fun _ => rfl) 0x8 (wordOpc_gWord _ _ _) (by decide) (by decide)

theorem EncodedSpace.push (sid : Byte) : EncodedSpace.Statement (.push sid) :=
  EncodedSpace.of_request rfl (fun _ => rfl) 0x9 (wordOpc_gWord _ _ _) (by decide) (by decide)

theorem EncodedSpace.rdfb (ofs : Half) : EncodedSpace.Statement (.rdfb ofs) :=
  EncodedSpace.of_request rfl (fun _ => rfl) 0xA (wordOpc_gWord _ _ _) (by decide) (by decide)

theorem EncodedSpace.rdreg (reg : BitVec 3) : EncodedSpace.Statement (.rdreg reg) :=
  EncodedSpace.of_request rfl (fun _ => rfl) 0xB (wordOpc_gWord _ _ _) (by decide) (by decide)

theorem EncodedSpace.reserved0 (x : BitVec 28) : EncodedSpace.Statement (.reserved0 x) :=
  EncodedSpace.of_request rfl (fun _ => rfl) 0x0 (wordOpc_reserved _ _) (by decide) (by decide)

theorem EncodedSpace.reservedC (x : BitVec 28) : EncodedSpace.Statement (.reservedC x) :=
  EncodedSpace.of_request rfl (fun _ => rfl) 0xC (wordOpc_reserved _ _) (by decide) (by decide)

theorem EncodedSpace.reservedD (x : BitVec 28) : EncodedSpace.Statement (.reservedD x) :=
  EncodedSpace.of_request rfl (fun _ => rfl) 0xD (wordOpc_reserved _ _) (by decide) (by decide)

theorem EncodedSpace.reservedE (x : BitVec 28) : EncodedSpace.Statement (.reservedE x) :=
  EncodedSpace.of_request rfl (fun _ => rfl) 0xE (wordOpc_reserved _ _) (by decide) (by decide)

theorem EncodedSpace.reservedF (x : BitVec 28) : EncodedSpace.Statement (.reservedF x) :=
  EncodedSpace.of_request rfl (fun _ => rfl) 0xF (wordOpc_reserved _ _) (by decide) (by decide)

theorem EncodedSpace.ccDisplayOff : EncodedSpace.Statement .ccDisplayOff :=
  EncodedSpace.of_command rfl

theorem EncodedSpace.ccSetClockDiv (p : Byte) : EncodedSpace.Statement (.ccSetClockDiv p) :=
  EncodedSpace.of_command rfl

theorem EncodedSpace.ccSetMultiplex (p : Byte) : EncodedSpace.Statement (.ccSetMultiplex p) :=
  EncodedSpace.of_command rfl

theorem EncodedSpace.ccSetDisplayOffset (p : Byte) : EncodedSpace.Statement (.ccSetDisplayOffset p) :=
  EncodedSpace.of_command rfl

theorem EncodedSpace.ccSetStartLine (line : BitVec 6) : EncodedSpace.Statement (.ccSetStartLine line) :=
  EncodedSpace.of_command rfl

theorem EncodedSpace.ccChargePump (p : Byte) : EncodedSpace.Statement (.ccChargePump p) :=
  EncodedSpace.of_command rfl

theorem EncodedSpace.ccSetMemoryMode (p : Byte) : EncodedSpace.Statement (.ccSetMemoryMode p) :=
  EncodedSpace.of_command rfl

theorem EncodedSpace.ccSegRemapReversed : EncodedSpace.Statement .ccSegRemapReversed :=
  EncodedSpace.of_command rfl

theorem EncodedSpace.ccComScanReversed : EncodedSpace.Statement .ccComScanReversed :=
  EncodedSpace.of_command rfl

theorem EncodedSpace.ccSetComPins (p : Byte) : EncodedSpace.Statement (.ccSetComPins p) :=
  EncodedSpace.of_command rfl

theorem EncodedSpace.ccSetContrast (p : Byte) : EncodedSpace.Statement (.ccSetContrast p) :=
  EncodedSpace.of_command rfl

theorem EncodedSpace.ccSetPrecharge (p : Byte) : EncodedSpace.Statement (.ccSetPrecharge p) :=
  EncodedSpace.of_command rfl

theorem EncodedSpace.ccSetVcomDeselect (p : Byte) : EncodedSpace.Statement (.ccSetVcomDeselect p) :=
  EncodedSpace.of_command rfl

theorem EncodedSpace.ccNormalDisplay : EncodedSpace.Statement .ccNormalDisplay :=
  EncodedSpace.of_command rfl

theorem EncodedSpace.ccDisplayFollowRam : EncodedSpace.Statement .ccDisplayFollowRam :=
  EncodedSpace.of_command rfl

theorem EncodedSpace.ccDeactivateScroll : EncodedSpace.Statement .ccDeactivateScroll :=
  EncodedSpace.of_command rfl

theorem EncodedSpace.ccDisplayOn : EncodedSpace.Statement .ccDisplayOn :=
  EncodedSpace.of_command rfl

theorem EncodedSpace.ccSetColumnWindow (first last : Byte) : EncodedSpace.Statement (.ccSetColumnWindow first last) :=
  EncodedSpace.of_command rfl

theorem EncodedSpace.ccSetPageWindow (first last : Byte) : EncodedSpace.Statement (.ccSetPageWindow first last) :=
  EncodedSpace.of_command rfl

theorem EncodedSpace.ccScrollRightCfg (fill0 startPage interval endPage fill1 fill2 : Byte) : EncodedSpace.Statement (.ccScrollRightCfg fill0 startPage interval endPage fill1 fill2) :=
  EncodedSpace.of_command rfl

theorem EncodedSpace.ccScrollLeftCfg (fill0 startPage interval endPage fill1 fill2 : Byte) : EncodedSpace.Statement (.ccScrollLeftCfg fill0 startPage interval endPage fill1 fill2) :=
  EncodedSpace.of_command rfl

theorem EncodedSpace.ccActivateScroll : EncodedSpace.Statement .ccActivateScroll :=
  EncodedSpace.of_command rfl

end Sys2Proof.Laws
end

