-- ==== Sys2Proof/Laws/Step.lean ====
section
/-! SUPPORT. What one step can do: the equation of each kind of step, the issue step against `TxOf`, the outcomes of a request,
and the inversion of a step. -/

namespace Sys2Proof.Laws

open Sys2Proof.Machine

/-- `OFS` does not wrap while it advances by a chunk. -/
theorem ofs_add {s : State} (hc : s.cfg.WellFormed) (ho : s.ofs.toNat ≤ s.cfg.fbSize) :
    (s.ofs + BitVec.ofNat 16 (chunkLen s)).toNat = s.ofs.toNat + chunkLen s := by
  have := fbSize_le hc
  have : chunkLen s ≤ s.cfg.fbSize - s.ofs.toNat := Nat.min_le_right _ _
  rw [BitVec.toNat_add, BitVec.toNat_ofNat]
  omega

/-! ## The kinds of step -/

theorem step_eq_runStep {s : State} (hc : s.cfg.WellFormed) (hr : s.resetLine = false) : step s = runStep s := by
  unfold step
  rw [if_pos hc, if_neg (by simp [hr])]

theorem step_reset {s : State} (hc : s.cfg.WellFormed) (hr : s.resetLine = true) : step s = .next (applyReset s) := by
  unfold step
  rw [if_pos hc, if_pos hr]

/-- A reset samples a well-formed `MAXBLK` where the transport reports one. -/
theorem applyReset_wellFormed {s : State} (hc : s.cfg.WellFormed) (hm : cmdMax ≤ s.reportedMaxBlk.toNat) :
    (applyReset s).cfg.WellFormed :=
  ⟨hc.1, hc.2.1, hc.2.2.1, hc.2.2.2.1, hc.2.2.2.2.1, hm, hc.2.2.2.2.2.2⟩

theorem step_illFormed {s : State} (hc : ¬s.cfg.WellFormed) : step s = .refused .illFormedConfig := by
  unfold step
  rw [if_neg hc]

theorem runStep_pend {s : State} (h : s.pend = true) : runStep s = answerStep s := by
  unfold runStep
  rw [if_pos h]

theorem runStep_idle {s : State} (h : Idle s) : runStep s = acceptStep s := by
  unfold runStep
  rw [if_neg (by simp [h.2]), h.1]

theorem runStep_fill {s : State} (h : s.phase = .initFill) (hp : s.pend = false) :
    runStep s = .next (fillStep s) := by
  unfold runStep
  rw [if_neg (by simp [hp]), h]

/-- The phases that issue a transaction (rule R113). -/
def Issuing (p : Phase) : Prop := p ≠ .idle ∧ p ≠ .initFill

theorem runStep_issue {s : State} (h : Issuing s.phase) (hp : s.pend = false) : runStep s = issueStep s := by
  obtain ⟨h1, h2⟩ := h
  unfold runStep
  rw [if_neg (by simp [hp])]
  split
  · exact absurd ‹_› h1
  · exact absurd ‹_› h2
  all_goals rfl

/-- Where a request of the table heads the port of an idle block, the accepting step executes it. -/
theorem acceptStep_exec {s : State} {w : Word} {pay rest : List Word} {i : Instr}
    (hf : fetchRequest s.requests = some (w, pay, rest)) (hd : decodeRequest w pay = .ok i) :
    acceptStep s = exec i { s with requests := rest } := by
  unfold acceptStep
  simp only [hf, hd]

theorem acceptStep_refuse {s : State} {w : Word} {pay rest : List Word} {r : DecodeReject}
    (hf : fetchRequest s.requests = some (w, pay, rest)) (hd : decodeRequest w pay = .error r) :
    acceptStep s = .next (refuseWord w { s with requests := rest }) := by
  unfold acceptStep
  simp only [hf, hd]

theorem acceptStep_wait {s : State} (hf : fetchRequest s.requests = none) : acceptStep s = .next s := by
  unfold acceptStep
  simp only [hf]

/-! ## The issue step is the issue of `TxOf` -/

theorem issueStep_command {s : State} {i : Instr} (h : nextIssue s = .command i) (hc : i.isCommand = true) :
    issueStep s = .next (issueCommand (encodeCommand s.cfg.cmdEnc i) s) := by
  unfold issueStep
  simp only [h, exec_command i s hc]

theorem issueStep_chunk {s : State} {tx : Tx} (h : nextIssue s = .chunk tx) : issueStep s = .next (issue tx s) := by
  unfold issueStep
  simp only [h]

theorem issueStep_stuck {s : State} {f : Fault} (h : nextIssue s = .stuck f) : issueStep s = .fault f := by
  unfold issueStep
  simp only [h]

theorem commandBuffer_length (s : State) : (commandBuffer s).length = s.clen.toNat := by
  have := s.clen.isLt
  simp [commandBuffer, CBuf.toList]
  omega

/-- Rule R113: in a phase that issues, under the conditions of rules R113, R119 and R165, the step appends exactly
`TxOf`. -/
theorem issueStep_txOf {s : State} (hp : Issuing s.phase) (hi : s.phase = .initCmd → s.idx.toNat ≤ 16)
    (ho : s.phase = .stream → s.fbAlloc = true ∧ s.ofs.toNat < s.cfg.fbSize) (hl : s.phase = .single → s.clen ≠ 0) :
    ∃ tx, txOf s = some tx ∧ issueStep s = .next (issue tx s) := by
  cases h : s.phase with
  | idle => exact absurd h hp.1
  | initFill => exact absurd h hp.2
  | initCmd =>
    have hlt : s.idx.toNat < (initSeq s.cfg).length := by have := hi h; rw [initSeq_length]; omega
    have hn : nextIssue s = .command (initSeq s.cfg)[s.idx.toNat] := by
      unfold nextIssue; simp only [h, List.getElem?_eq_getElem hlt]
    have hb : encodeCommand s.cfg.cmdEnc (initSeq s.cfg)[s.idx.toNat] =
        (initBytes s.cfg)[s.idx.toNat]'(by rw [initBytes_length]; simpa using hlt) := by
      simp only [← initSeq_bytes, List.getElem_map]
    refine ⟨commandTx s (encodeCommand s.cfg.cmdEnc (initSeq s.cfg)[s.idx.toNat]), ?_, ?_⟩
    · have hlt' : s.idx.toNat < (initTxs s.cfg (s.x0.setWidth 8)).length := by simpa [initTxs] using hlt
      simp only [txOf, h, commandTx_eq, hb]
      rw [List.getElem?_eq_getElem hlt']
      simp only [initTxs, List.getElem_map]
    · exact issueStep_command hn (initSeq_isCommand _ _ (List.getElem_mem hlt))
  | winCol =>
    exact ⟨_, by simp only [txOf, h, windowTxs]; rfl, issueStep_command (i := columnWindow s.cfg)
      (by unfold nextIssue; simp only [h]) rfl⟩
  | winPage =>
    exact ⟨_, by simp only [txOf, h, windowTxs]; rfl, issueStep_command (i := pageWindow s.cfg)
      (by unfold nextIssue; simp only [h]) rfl⟩
  | stream =>
    obtain ⟨ha, hlt⟩ := ho h
    refine ⟨chunkTx s, ?_, issueStep_chunk (by unfold nextIssue; simp [h, ha, hlt])⟩
    simp only [txOf, h, chunkTx, readBytes_eq_map, sessionOf, chunkLen]
  | scrollCfg =>
    exact ⟨commandTx s s.cbuf.toList, by simp only [txOf, h]; rfl,
      exec_bufferedCommand s _ (by unfold nextIssue; simp only [h])⟩
  | scrollAct =>
    exact ⟨_, by simp only [txOf, h]; rfl, issueStep_command (i := .ccActivateScroll)
      (by unfold nextIssue; simp only [h]) rfl⟩
  | single =>
    refine ⟨commandTx s (commandBuffer s), by simp only [txOf, h, commandTx_eq]; rfl,
      exec_bufferedCommand s _ (by unfold nextIssue; simp only [h]; rw [if_neg (hl h)])⟩

/-- Whatever the phase, an issue step that answers a next state has issued one transaction. -/
theorem issueStep_next {s t : State} (h : issueStep s = .next t) (hp : Issuing s.phase) :
    ∃ tx, txOf s = some tx ∧ t = issue tx s := by
  have key : (s.phase = .initCmd → s.idx.toNat ≤ 16) ∧
      (s.phase = .stream → s.fbAlloc = true ∧ s.ofs.toNat < s.cfg.fbSize) ∧ (s.phase = .single → s.clen ≠ 0) := by
    refine ⟨fun hph => ?_, fun hph => ?_, fun hph hc => ?_⟩
    · by_contra hlt
      have : nextIssue s = .stuck .initIndexPastEnd := by
        unfold nextIssue; simp only [hph]
        rw [List.getElem?_eq_none (by rw [initSeq_length]; omega)]
      rw [issueStep_stuck this] at h; cases h
    · by_contra hno
      cases ha : s.fbAlloc with
      | false =>
        rw [issueStep_stuck (f := .streamWithoutFramebuffer) (by unfold nextIssue; simp [hph, ha])] at h; cases h
      | true =>
        rw [issueStep_stuck (f := .streamPastEnd)
          (by unfold nextIssue; simp only [hph, ha]; simp; exact Nat.le_of_not_lt fun hx => hno ⟨ha, hx⟩)] at h; cases h
    · rw [issueStep_stuck (f := .emptyCommand) (by unfold nextIssue; simp [hph, hc])] at h; cases h
  obtain ⟨tx, htx, hs⟩ := issueStep_txOf hp key.1 key.2.1 key.2.2
  rw [hs] at h
  cases h
  exact ⟨tx, htx, rfl⟩

/-! ## The trace -/

@[simp] theorem answerLatest_append (a : Answer) (l : List BusEntry) (e : BusEntry) :
    answerLatest a (l ++ [e]) = l ++ [{ e with answer := some a }] := by
  induction l with
  | nil => rfl
  | cons f l ih =>
    cases l with
    | nil => rfl
    | cons g l => simp only [List.cons_append, answerLatest] at ih ⊢; rw [ih]

/-- An answer changes no transaction of the trace. -/
@[simp] theorem answerLatest_txs (a : Answer) (l : List BusEntry) :
    (answerLatest a l).map BusEntry.tx = l.map BusEntry.tx := by
  induction l with
  | nil => rfl
  | cons e l ih =>
    cases l with
    | nil => rfl
    | cons f l => simp only [answerLatest, List.map_cons] at ih ⊢; rw [ih]

/-! ## Inversion of a step -/

/-- What a step that answers a next state did: a reset event, the answer to the transaction in flight, the acceptance of a
request, waiting for one, the fill step, or the issue of the next transaction. -/
theorem step_cases {s t : State} (h : step s = .next t) :
    s.cfg.WellFormed ∧
    ((s.resetLine = true ∧ t = applyReset s) ∨
     (s.resetLine = false ∧ s.pend = true ∧ ∃ rest, s.answers = .ok :: rest ∧
        advance { s with answers := rest, trace := answerLatest .ok s.trace, pend := false, ntx := s.ntx + 1 } =
          .next t) ∨
     (s.resetLine = false ∧ s.pend = true ∧ ∃ e rest, s.answers = .fail e :: rest ∧
        t = raise (.transportFail e) { s with answers := rest, trace := answerLatest (.fail e) s.trace }) ∨
     (s.resetLine = false ∧ Idle s ∧ fetchRequest s.requests = none ∧ t = s) ∨
     (s.resetLine = false ∧ Idle s ∧ ∃ w pay rest i, fetchRequest s.requests = some (w, pay, rest) ∧
        decodeRequest w pay = .ok i ∧ exec i { s with requests := rest } = .next t) ∨
     (s.resetLine = false ∧ Idle s ∧ ∃ w pay rest r, fetchRequest s.requests = some (w, pay, rest) ∧
        decodeRequest w pay = .error r ∧ t = refuseWord w { s with requests := rest }) ∨
     (s.resetLine = false ∧ s.pend = false ∧ s.phase = .initFill ∧ t = fillStep s) ∨
     (s.resetLine = false ∧ s.pend = false ∧ Issuing s.phase ∧ ∃ tx, txOf s = some tx ∧ t = issue tx s)) := by
  by_cases hc : s.cfg.WellFormed
  swap
  · rw [step_illFormed hc] at h; cases h
  refine ⟨hc, ?_⟩
  by_cases hr : s.resetLine = true
  · rw [step_reset hc hr] at h
    exact .inl ⟨hr, by injection h with h; exact h.symm⟩
  refine .inr ?_
  have hr : s.resetLine = false := by simpa using hr
  rw [step_eq_runStep hc hr] at h
  by_cases hp : s.pend = true
  · rw [runStep_pend hp] at h
    unfold answerStep at h
    split at h
    · cases h
    · exact .inl ⟨hr, hp, _, ‹_›, h⟩
    · injection h with h
      exact .inr (.inl ⟨hr, hp, _, _, ‹_›, h.symm⟩)
  refine .inr (.inr ?_)
  have hp : s.pend = false := by simpa using hp
  by_cases hid : s.phase = .idle
  · have hI : Idle s := ⟨hid, hp⟩
    rw [runStep_idle hI] at h
    cases hf : fetchRequest s.requests with
    | none =>
      rw [acceptStep_wait hf] at h
      injection h with h
      exact .inl ⟨hr, hI, rfl, h.symm⟩
    | some q =>
      obtain ⟨w, pay, rest⟩ := q
      cases hd : decodeRequest w pay with
      | ok i =>
        rw [acceptStep_exec hf hd] at h
        exact .inr (.inl ⟨hr, hI, w, pay, rest, i, rfl, hd, h⟩)
      | error r =>
        rw [acceptStep_refuse hf hd] at h
        injection h with h
        exact .inr (.inr (.inl ⟨hr, hI, w, pay, rest, r, rfl, hd, h.symm⟩))
  · by_cases hfill : s.phase = .initFill
    · rw [runStep_fill hfill hp] at h
      injection h with h
      exact .inr (.inr (.inr (.inl ⟨hr, hp, hfill, h.symm⟩)))
    · rw [runStep_issue ⟨hid, hfill⟩ hp] at h
      exact .inr (.inr (.inr (.inr ⟨hr, hp, ⟨hid, hfill⟩, issueStep_next h ⟨hid, hfill⟩⟩)))

/-! ## The outcomes of a request -/

/-- Decoding a word of the request port gives no controller command. -/
theorem decodeRequest_notCommand {w : Word} {pay : List Word} {i : Instr} (h : decodeRequest w pay = .ok i) :
    i.isCommand = false := by
  have hg : ∀ (a b : Bool) (j : Instr), j.isCommand = false → checkG w a b j = .ok i → i.isCommand = false := by
    intro a b j hj h
    unfold checkG at h
    split at h
    · cases h
    split at h
    · cases h
    split at h
    · cases h
    · cases h; exact hj
  unfold decodeRequest at h
  split at h
  · cases h
  split at h
  all_goals first
    | (cases h; rfl)
    | exact hg _ _ _ rfl h
    | (split at h <;> first | (cases h; done) | (cases h; rfl))

/-- Everything the execution of a request can do, with `t` the state after it and `l` the state with the operands latched:
an exception other than the bus's; a completion, with the framebuffer as it was or written inside its range; or the
start of a sequence of transactions. -/
inductive RequestOutcome (l t : State) : Prop where
  | raised (x : Exn) (h : x.record l = l) (hx : x = .haltedRequest ∨ l.halt = false) (ht : t = raise x l)
  | completed (v : Half) (hh : l.halt = false) (ht : t = respond .ok v l)
  | written (a : Nat) (bs : List Byte) (hh : l.halt = false) (ha : l.fbAlloc = true)
      (hb : l.cfg.WellFormed → a + bs.length ≤ l.cfg.fbSize)
      (ht : t = respond .ok 0 { l with fb := writeBytes l.fb a bs })
  | initStarted (hh : l.halt = false) (ht : t = startInit l)
  | singleStarted (bs : List Byte) (hh : l.halt = false) (hb : 1 ≤ bs.length ∧ bs.length ≤ 7) (ht : t = startSingle bs l)
  | scrollStarted (dir : Half) (hh : l.halt = false)
      (ht : t = { l with cbuf := l.cbuf.load (scrollConfig l.cfg dir), clen := 7, phase := .scrollCfg })
  | pushStarted (hh : l.halt = false) (ha : l.fbAlloc = true) (ht : t = { l with phase := .winCol })

/-- The latched state of a request: the operands of rule R76. -/
def latched (i : Instr) (s : State) : State :=
  match i with
  | .init sid | .push sid => latchG sid 0 s
  | .awake sid on => latchG sid (if on then 1 else 0) s
  | .scroll sid dir => latchG sid dir s
  | .wrcmd sid pay => latchG sid (payloadLen pay) s
  | .plot mode x y => latchP mode x y s
  | .load pay => latchG 0 (payloadLen pay) s
  | .loadrom k => latchG 0 k s
  | .clear => latchG 0 0 s
  | .rdfb ofs => latchG 0 ofs s
  | .rdreg reg => latchG 0 (reg.setWidth 16) s
  | .reserved0 x | .reservedC x | .reservedD x | .reservedE x | .reservedF x =>
    latchG (x.extractLsb' 16 8) (x.extractLsb' 0 16) s
  | _ => s

/-- The offset of an in-range pixel is an address of the framebuffer, rule R54. -/
theorem pixelAddress_lt {c : Cfg} (hc : c.WellFormed) {x y : Nat} (h : offDisplay c x y = false) :
    (pixelAddress c x y).1 < c.fbSize := by
  simp only [offDisplay, Bool.or_eq_false_iff, decide_eq_false_iff_not, Nat.not_le] at h
  obtain ⟨hx, hy⟩ := h
  obtain ⟨-, -, -, -, h8, -⟩ := hc
  have hP : c.h = 8 * (c.h / 8) := by omega
  have hN : c.fbSize = c.h / 8 * c.w := by
    unfold Cfg.fbSize
    conv_lhs => rw [hP]
    rw [show c.w * (8 * (c.h / 8)) = 8 * (c.h / 8 * c.w) by ring, Nat.mul_div_cancel_left _ (by omega)]
  have hp : y / 8 + 1 ≤ c.h / 8 := by omega
  calc (pixelAddress c x y).1 = y / 8 * c.w + x := rfl
    _ < y / 8 * c.w + c.w := by omega
    _ = (y / 8 + 1) * c.w := by ring
    _ ≤ c.h / 8 * c.w := Nat.mul_le_mul_right _ hp
    _ = c.fbSize := hN.symm

theorem patternBytes_length {c : Cfg} (hc : c.WellFormed) {k : Nat} (hk : k < c.npat) :
    (patternBytes c k).length = c.fbSize := by
  obtain ⟨-, -, -, -, -, -, -, hp, -⟩ := hc
  have : k < c.patterns.length := hk
  have he : patternBytes c k = c.patterns[k] := by simp [patternBytes, List.getD, this]
  rw [he]
  exact hp _ (List.getElem_mem this)

@[simp] theorem zeroBytes_length (c : Cfg) : (zeroBytes c).length = c.fbSize := by simp [zeroBytes]
@[simp] theorem freeBytes_length (c : Cfg) (k : Nat) : (freeBytes c k).length = c.fbSize := by simp [freeBytes]

/-- The gates of rule R207: halted first, then the body. -/
theorem unlessHalted_cases {body : State → State} {l : State}
    (h : l.halt = false → RequestOutcome l (body l)) : RequestOutcome l (unlessHalted body l) := by
  unfold unlessHalted
  split
  · exact .raised .haltedRequest rfl (.inl rfl) rfl
  · exact h (by simpa using ‹¬l.halt = true›)

theorem withFramebuffer_cases {body : State → State} {l : State} (hh : l.halt = false)
    (h : l.fbAlloc = true → RequestOutcome l (body l)) : RequestOutcome l (withFramebuffer body l) := by
  unfold withFramebuffer
  split
  · exact h ‹_›
  · exact .raised .fbUnallocated rfl (.inr hh) rfl

theorem ifLegal_cases {ok : Bool} {body : State → State} {l : State} (hh : l.halt = false)
    (h : ok = true → RequestOutcome l (body l)) : RequestOutcome l (ifLegal ok body l) := by
  unfold ifLegal
  split
  · exact h ‹_›
  · exact .raised .illegalRequest rfl (.inr hh) rfl

/-! Each meaning's body, from a latched state that is not halted. -/

theorem startSingle_cases (bs : List Byte) (hb : 1 ≤ bs.length ∧ bs.length ≤ 7) {l : State} (hh : l.halt = false) :
    RequestOutcome l (startSingle bs l) := .singleStarted bs hh hb rfl

theorem startScroll_cases (dir : Half) {l : State} (hh : l.halt = false) : RequestOutcome l (startScroll dir l) := by
  unfold startScroll
  split
  · exact startSingle_cases _ (by simp) hh
  split
  · exact .scrollStarted _ hh rfl
  · exact .completed 0 hh rfl

theorem rawCommand_cases (pay : List Byte) {l : State} (hh : l.halt = false) :
    RequestOutcome l (ifLegal (legalRaw pay) (startSingle pay) l) :=
  ifLegal_cases hh fun hl => startSingle_cases pay (by simpa [legalRaw, cmdMax] using of_decide_eq_true hl) hh

theorem plotBody_cases (mode : BitVec 2) (x y : Nat) {l : State} (hh : l.halt = false) :
    RequestOutcome l (plotBody mode x y l) := by
  unfold plotBody
  by_cases ho : offDisplay l.cfg x y = true
  · rw [if_pos ho]; exact .completed 0 hh rfl
  · rw [if_neg ho]
    have ho : offDisplay l.cfg x y = false := by simpa using ho
    exact withFramebuffer_cases hh fun ha =>
      .written (pixelAddress l.cfg x y).1
        [plottedByte mode (pixelAddress l.cfg x y).2 (readByte l.fb (pixelAddress l.cfg x y).1)] hh ha
        (fun hc => pixelAddress_lt hc ho) rfl

theorem overwrite_cases (bs : List Byte) {l : State} (hh : l.halt = false)
    (hb : l.cfg.WellFormed → bs.length = l.cfg.fbSize) :
    RequestOutcome l (withFramebuffer (fun t => respond .ok 0 (overwriteFb bs t)) l) :=
  withFramebuffer_cases hh fun ha => .written 0 bs hh ha (fun hc => by rw [hb hc, Nat.zero_add]) rfl

theorem loadBody_cases (pay : List Byte) {l : State} (hh : l.halt = false) : RequestOutcome l (loadBody pay l) := by
  unfold loadBody
  by_cases hlen : pay.length = l.cfg.fbSize
  · rw [if_neg (by simpa using hlen)]; exact overwrite_cases pay hh fun _ => hlen
  · rw [if_pos hlen]; exact .raised .lengthMismatch rfl (.inr hh) rfl

theorem romBody_cases (k : Half) {l : State} (hh : l.halt = false) :
    RequestOutcome l (ifLegal (decide (k.toNat < l.cfg.npat))
      (withFramebuffer fun t => respond .ok 0 (overwriteFb (patternBytes t.cfg k.toNat) t)) l) :=
  ifLegal_cases hh fun hl =>
    withFramebuffer_cases hh fun ha => .written 0 (patternBytes l.cfg k.toNat) hh ha
      (fun hc => by rw [patternBytes_length hc (of_decide_eq_true hl), Nat.zero_add]) rfl

theorem clearBody_cases {l : State} (hh : l.halt = false) :
    RequestOutcome l (withFramebuffer (fun t => respond .ok 0 (overwriteFb (zeroBytes t.cfg) t)) l) :=
  withFramebuffer_cases hh fun ha => .written 0 (zeroBytes l.cfg) hh ha
    (fun _ => by rw [zeroBytes_length, Nat.zero_add]) rfl

theorem pushBody_cases {l : State} (hh : l.halt = false) :
    RequestOutcome l (withFramebuffer (fun t => { t with phase := .winCol }) l) :=
  withFramebuffer_cases hh fun ha => .pushStarted hh ha rfl

theorem readBody_cases (ofs : Nat) {l : State} (hh : l.halt = false) :
    RequestOutcome l (ifLegal (decide (ofs < l.cfg.fbSize))
      (withFramebuffer fun t => respond .ok ((readByte t.fb ofs).setWidth 16) t) l) :=
  ifLegal_cases hh fun _ => withFramebuffer_cases hh fun _ => .completed _ hh rfl

theorem refuse_cases {l : State} (hh : l.halt = false) : RequestOutcome l (raise .illegalRequest l) :=
  .raised .illegalRequest rfl (.inr hh) rfl

/-- Everything the execution of a request can do. -/
theorem exec_request (i : Instr) (s : State) (h : i.isCommand = false) :
    ∃ t, exec i s = .next t ∧ RequestOutcome (latched i s) t := by
  cases i with
  | init sid => exact ⟨_, rfl, unlessHalted_cases fun hh => .initStarted hh rfl⟩
  | awake sid on => exact ⟨_, rfl, unlessHalted_cases fun hh => startSingle_cases _ (by simp) hh⟩
  | scroll sid dir => exact ⟨_, rfl, unlessHalted_cases fun hh => startScroll_cases dir hh⟩
  | wrcmd sid pay => exact ⟨_, rfl, unlessHalted_cases fun hh => rawCommand_cases pay hh⟩
  | plot mode x y =>
    exact ⟨_, rfl, unlessHalted_cases fun hh => ifLegal_cases hh fun _ => plotBody_cases mode _ _ hh⟩
  | load pay => exact ⟨_, rfl, unlessHalted_cases fun hh => loadBody_cases pay hh⟩
  | loadrom k => exact ⟨_, rfl, unlessHalted_cases fun hh => romBody_cases (l := latchG 0 k s) k hh⟩
  | clear => exact ⟨_, rfl, unlessHalted_cases fun hh => clearBody_cases hh⟩
  | push sid => exact ⟨_, rfl, unlessHalted_cases fun hh => pushBody_cases hh⟩
  | rdfb ofs => exact ⟨_, rfl, unlessHalted_cases fun hh => readBody_cases (l := latchG 0 ofs s) ofs.toNat hh⟩
  | rdreg reg => exact ⟨_, rfl, unlessHalted_cases fun hh => .completed _ hh rfl⟩
  | reserved0 x => exact ⟨_, rfl, unlessHalted_cases fun hh => refuse_cases hh⟩
  | reservedC x => exact ⟨_, rfl, unlessHalted_cases fun hh => refuse_cases hh⟩
  | reservedD x => exact ⟨_, rfl, unlessHalted_cases fun hh => refuse_cases hh⟩
  | reservedE x => exact ⟨_, rfl, unlessHalted_cases fun hh => refuse_cases hh⟩
  | reservedF x => exact ⟨_, rfl, unlessHalted_cases fun hh => refuse_cases hh⟩
  | _ => cases h

/-- A word that is no row of the table: refused, halted or not. -/
theorem refuseWord_cases (w : Word) (s : State) : RequestOutcome (latchWord w s) (refuseWord w s) :=
  unlessHalted_cases fun hh => refuse_cases hh

/-! ## Runs -/

@[simp] theorem runSteps_zero (s : State) : runSteps 0 s = .next s := rfl

theorem runSteps_succ {s t : State} (h : step s = .next t) (n : Nat) : runSteps (n + 1) s = runSteps n t := by
  simp only [runSteps, h]

theorem runSteps_add {s t : State} {n : Nat} (h : runSteps n s = .next t) (k : Nat) :
    runSteps (n + k) s = runSteps k t := by
  induction n generalizing s with
  | zero => simp only [runSteps_zero] at h; cases h; rw [Nat.zero_add]
  | succ n ih =>
    rw [show n + 1 + k = n + k + 1 by omega]
    simp only [runSteps] at h ⊢
    split at h
    · exact ih h
    · cases h
    · cases h

/-- A transaction and its answer `ok`, in two steps: the trace and the counters, then the advance of the phase. -/
theorem runSteps_transaction {s : State} (hI : Inv s) (hr : s.resetLine = false) (hp : s.pend = false)
    (hph : Issuing s.phase) {more : List Answer} (ha : s.answers = .ok :: more) :
    ∃ tx, txOf s = some tx ∧ ∀ n u,
      advance { s with trace := s.trace ++ [⟨tx, some .ok⟩], answers := more, pend := false, ntx := s.ntx + 1 } = .next u →
      runSteps (n + 2) s = runSteps n u := by
  obtain ⟨tx, htx, hs⟩ := issueStep_txOf hph hI.idxCmd
    (fun h => ⟨hI.allocPhase (.inr (.inr h)), hI.ofsStream h⟩)
    (fun h hc => by have := hI.clenPos (.inr h); rw [hc] at this; simp at this)
  refine ⟨tx, htx, fun n u hu => ?_⟩
  have h1 : step s = .next (issue tx s) := by rw [step_eq_runStep hI.cfgWf hr, runStep_issue hph hp, hs]
  rw [show n + 2 = n + 1 + 1 by omega, runSteps_succ h1]
  refine runSteps_succ ?_ n
  rw [step_eq_runStep (s := issue tx s) hI.cfgWf hr, runStep_pend rfl]
  unfold answerStep
  simp only [issue, ha, answerLatest_append]
  exact hu

/-- A run here is the host's run of the core. -/
theorem runSteps_eq_run : ∀ (n : Nat) (s : State), runSteps n s = Host.Core.run Sys2Proof.core n s := by
  intro n
  induction n with
  | zero => intro s; rfl
  | succ n ih =>
    intro s
    simp only [runSteps, Host.Core.run, Sys2Proof.core]
    cases step s with
    | next t => exact ih t
    | fault f => rfl
    | refused r => rfl

end Sys2Proof.Laws
end

