-- ==== Sys2Proof/Tests/Slice0.lean ====
section
/-! SUPPORT. The model's own tests. First well-formedness and decoding; then one step each on the small instance of the spec's
`95_test_vectors.md` section 0 ("Tiny"); then, for every statement with hypotheses, a concrete state and operands that
meet them. Every expected value is written out from the rule or the vector named beside it. -/

namespace Sys2Proof.Tests

open Sys2Proof.Machine

/-! ## Well-formedness: for each check an ill-formed term -/

/-- Instance Tiny of `95_test_vectors.md` section 0; the COM-pin byte is the vector's own choice. -/
def tiny : Cfg where
  w := 8
  h := 16
  maxBlk := 7
  cmdEnc := CmdEnc.reference
  initParams := InitParams.referenceWith 16 0x02
  chCmd := 0x00
  chData := 0x40
  scrollStartPage := 0x00
  scrollEndPage := 0x07
  scrollInterval := 0x00
  patterns := [[1, 2, 3, 4, 5, 6, 7, 8, 9, 10, 11, 12, 13, 14, 15, 16], List.replicate 16 0xFF]
  allocAvailable := true
  firstInitFill := .zero

theorem test_tiny_wellFormed : tiny.WellFormed := by decide
theorem test_reference_unambiguous : CmdEnc.reference.Unambiguous := by decide

theorem test_cfg_w_low : ¬{ tiny with w := 0 }.WellFormed := by decide
theorem test_cfg_w_high : ¬{ tiny with w := 257, patterns := [] }.WellFormed := by decide
theorem test_cfg_h_low : ¬{ tiny with h := 0, patterns := [[], []] }.WellFormed := by decide
theorem test_cfg_h_high : ¬{ tiny with h := 264, patterns := [] }.WellFormed := by decide
theorem test_cfg_h_pages : ¬{ tiny with h := 17, patterns := [List.replicate 17 0, List.replicate 17 0] }.WellFormed := by
  decide
theorem test_cfg_maxBlk : ¬{ tiny with maxBlk := 6 }.WellFormed := by decide
theorem test_cfg_npat : ¬{ tiny with patterns := [List.replicate 16 0] }.WellFormed := by decide
theorem test_cfg_pattern_length : ¬{ tiny with patterns := [List.replicate 16 0, List.replicate 15 0] }.WellFormed := by
  decide
theorem test_cfg_channels : ¬{ tiny with chData := 0x00 }.WellFormed := by decide

theorem wf_wrcmd (sid : Byte) (pay : List Byte) : (Instr.wrcmd sid pay).wf = decide (pay.length < 65536) := rfl
theorem wf_load (pay : List Byte) : (Instr.load pay).wf = decide (pay.length < 65536) := rfl
theorem test_wf_wrcmd_long : (Instr.wrcmd 0x3C (List.replicate 65536 0)).wf = false := by
  rw [wf_wrcmd, List.length_replicate]; decide
theorem test_wf_load_long : (Instr.load (List.replicate 65536 0)).wf = false := by
  rw [wf_load, List.length_replicate]; decide
theorem test_wf_load_longest : (Instr.load (List.replicate 65535 0)).wf = true := by
  rw [wf_load, List.length_replicate]; decide
theorem test_wf_scroll_fillers :
    (Instr.ccScrollRightCfg 1 0 0 7 0 0xFF).wf = false ∧ (Instr.ccScrollRightCfg 0 0 0 7 1 0xFF).wf = false ∧
    (Instr.ccScrollRightCfg 0 0 0 7 0 0xFE).wf = false ∧ (Instr.ccScrollLeftCfg 1 0 0 7 0 0xFF).wf = false ∧
    (Instr.ccScrollLeftCfg 0 0 0 7 1 0xFF).wf = false ∧ (Instr.ccScrollLeftCfg 0 0 0 7 0 0xFE).wf = false ∧
    (Instr.ccScrollLeftCfg 0 0 0 7 0 0xFF).wf = true := by decide

/-! ## Decoding: words written out from the encodings -/

/-- A request word written bit by bit: `OPC`, `Z`, `SID`, `ARG` of rule R73. -/
theorem test_decode_bits_G :
    decodeRequest 0b0011_0000_00111100_0000000000000010 [] = .ok (.scroll 0x3C 2) := by rfl
/-- `OPC`, `Z`, `MODE`, `X`, `Y` of rule R74. -/
theorem test_decode_bits_P :
    decodeRequest 0b0101_00_10_000001111111_000000011111 [] = .ok (.plot 2 127 31) := by rfl

/-- V-ENC, the rows without payload. -/
theorem test_decode_requests :
    decodeRequest 0x10000000 [] = .ok (.init 0x00) ∧ decodeRequest 0x203C0000 [] = .ok (.awake 0x3C false) ∧
    decodeRequest 0x303C0007 [] = .ok (.scroll 0x3C 7) ∧ decodeRequest 0x51080000 [] = .ok (.plot 1 128 0) ∧
    decodeRequest 0x52FFFFFF [] = .ok (.plot 2 4095 4095) ∧ decodeRequest 0x70000001 [] = .ok (.loadrom 1) ∧
    decodeRequest 0x80000000 [] = .ok .clear ∧ decodeRequest 0x903C0000 [] = .ok (.push 0x3C) ∧
    decodeRequest 0xA00001FF [] = .ok (.rdfb 511) ∧ decodeRequest 0xB0000007 [] = .ok (.rdreg 7) := by
  refine ⟨?_, ?_, ?_, ?_, ?_, ?_, ?_, ?_, ?_, ?_⟩ <;> rfl

/-- V-ENC, the rows with payload. -/
theorem test_decode_payloads :
    decodeRequest 0x403C0001 [0x000000A7] = .ok (.wrcmd 0x3C [0xA7]) ∧
    decodeRequest 0x403C0007 [0x04030201, 0x00070605] = .ok (.wrcmd 0x3C [1, 2, 3, 4, 5, 6, 7]) ∧
    decodeRequest 0x60000000 [] = .ok (.load []) := by refine ⟨?_, ?_, ?_⟩ <;> rfl

/-- Rule R79, the reserved opcodes. -/
theorem test_decode_reserved :
    decodeRequest 0x00000000 [] = .ok (.reserved0 0) ∧ decodeRequest 0xC0000000 [] = .ok (.reservedC 0) ∧
    decodeRequest 0xD0000001 [] = .ok (.reservedD 1) ∧ decodeRequest 0xE0010000 [] = .ok (.reservedE 0x0010000) ∧
    decodeRequest 0xFFFFFFFF [] = .ok (.reservedF 0xFFFFFFF) := by refine ⟨?_, ?_, ?_, ?_, ?_⟩ <;> rfl

/-- V-ERR and rules R73, R75, R78: words that are no row of the table, each rejected by name. -/
theorem test_decode_rejects :
    decodeRequest 0x113C0000 [] = .error .zNotZero ∧ decodeRequest 0x55000000 [] = .error .zNotZero ∧
    decodeRequest 0x60010003 [0] = .error .sidNotZero ∧ decodeRequest 0xB0010000 [] = .error .sidNotZero ∧
    decodeRequest 0x103C0001 [] = .error .argNotAdmitted ∧ decodeRequest 0x203C0002 [] = .error .argNotAdmitted ∧
    decodeRequest 0x80000001 [] = .error .argNotAdmitted ∧ decodeRequest 0x903C0001 [] = .error .argNotAdmitted ∧
    decodeRequest 0xB0000008 [] = .error .argNotAdmitted ∧ decodeRequest 0x60000003 [] = .error .payloadCount := by
  refine ⟨?_, ?_, ?_, ?_, ?_, ?_, ?_, ?_, ?_, ?_⟩ <;> rfl

/-- Rules R92 and R116: every one-byte command, by the byte the rule's table gives. -/
theorem test_decode_one_byte :
    [0xAE, 0x40, 0x7F, 0xA1, 0xC8, 0xA6, 0xA4, 0x2E, 0xAF, 0x2F].map (fun b => decodeCommand CmdEnc.reference [b]) =
      [some .ccDisplayOff, some (.ccSetStartLine 0), some (.ccSetStartLine 63), some .ccSegRemapReversed,
       some .ccComScanReversed, some .ccNormalDisplay, some .ccDisplayFollowRam, some .ccDeactivateScroll,
       some .ccDisplayOn, some .ccActivateScroll] := by decide

/-- Rules R92 and R116: every two-byte command. -/
theorem test_decode_two_bytes :
    [[0xD5, 0x80], [0xA8, 0x1F], [0xD3, 0x00], [0x8D, 0x14], [0x20, 0x02], [0xDA, 0x02], [0x81, 0x8F], [0xD9, 0xF1],
     [0xDB, 0x40]].map (decodeCommand CmdEnc.reference) =
      [some (.ccSetClockDiv 0x80), some (.ccSetMultiplex 0x1F), some (.ccSetDisplayOffset 0x00),
       some (.ccChargePump 0x14), some (.ccSetMemoryMode 0x02), some (.ccSetComPins 0x02),
       some (.ccSetContrast 0x8F), some (.ccSetPrecharge 0xF1), some (.ccSetVcomDeselect 0x40)] := by decide

/-- Rules R94 and R95; and bytes that are no command. -/
theorem test_decode_long_commands :
    [[0x21, 0x00, 0x7F], [0x22, 0x00, 0x03], [0x26, 0x00, 0x00, 0x00, 0x07, 0x00, 0xFF],
     [0x27, 0x00, 0x00, 0x00, 0x07, 0x00, 0xFF], [0xA7], [0xAE, 0x00], []].map (decodeCommand CmdEnc.reference) =
      [some (.ccSetColumnWindow 0x00 0x7F), some (.ccSetPageWindow 0x00 0x03),
       some (.ccScrollRightCfg 0x00 0x00 0x00 0x07 0x00 0xFF), some (.ccScrollLeftCfg 0x00 0x00 0x00 0x07 0x00 0xFF),
       none, none, none] := by decide

/-- The opcode table's numbering: a request with its payload word above it, and a command's first byte lowest. -/
theorem test_decodeTableWord :
    decodeTableWord 32 0x103C0000 = some (.init 0x3C) ∧
    decodeTableWord 64 0x00007F81403C0002 = some (.wrcmd 0x3C [0x81, 0x7F]) ∧
    decodeTableWord 8 0x21 = some (.ccSetColumnWindow 0 0) ∧ decodeTableWord 16 0x80D5 = some (.ccSetClockDiv 0x80) := by
  refine ⟨?_, ?_, ?_, ?_⟩ <;> rfl

/-- The notation of rules R81 and R82. -/
theorem test_assemble :
    assemble "WRCMD 0x3C, 0x81, 0x7F ; contrast" = some [0x403C0002, 0x00007F81] ∧
    assemble "INVPX 5, 10\nRDREG ERRPOS" = some [0x5200500A, 0xB0000007] ∧
    assemble "DEMO 60, logo" = some [0x103C0000, 0x70000001, 0x903C0000] ∧
    assemble ".bytes p = 0xAA, 0xBB, 0xCC\nLOAD @p" = some [0x60000003, 0x00CCBBAA] ∧
    assemble "PLOT 1, 2" = none := by refine ⟨?_, ?_, ?_, ?_, ?_⟩ <;> decide

/-! ## One step -/

/-- The state a step answers, where it answers one. -/
def after : Outcome → Option State
  | .next t => some t
  | .fault _ | .refused _ => none

/-- What `after` finds is a next state. -/
theorem next_of {o : Outcome} {t : State} (h : after o = some t) : o = .next t := by
  cases o with
  | next u => exact congrArg Host.Outcome.next (Option.some.inj h)
  | fault f => cases h
  | refused r => cases h

/-- A step that answers a state, as an existential. -/
theorem next_exists {o : Outcome} {P : State → Prop} (h : ∃ t, after o = some t ∧ P t) : ∃ t, o = .next t ∧ P t :=
  h.elim fun t ht => ⟨t, next_of ht.1, ht.2⟩

/-- Tiny right after reset. -/
def dark : State := State.resetWith tiny

/-- Tiny with a framebuffer: `FB[8] = 0xA5`, every other byte zero. -/
def lit : State := { dark with fbAlloc := true, fb := [(8, 0xA5)] }

/-- Tiny halted. -/
def halted : State := { lit with halt := true, sticky := true, last := .length }

/-- Tiny with a framebuffer, in a phase that issues, every field the phases read at a value rule R37 allows. -/
def busy (p : Phase) : State :=
  { lit with phase := p, x0 := 0x3C, ofs := 7, idx := 3, clen := 7, ntx := 2, cbuf := ⟨0x26, 0, 0, 0, 7, 0, 0xFF⟩ }

/-- An answered transaction, and one to be in flight. -/
def earlier : List BusEntry := [⟨⟨.byte, 0x3C, .cmd, [0xAE]⟩, some .ok⟩]
def flying : Tx := ⟨.byte, 0x3C, .cmd, [0x2F]⟩

/-- `busy`, with a transaction in flight. -/
def waiting (p : Phase) : State := { busy p with pend := true, trace := earlier ++ [⟨flying, none⟩] }

/-- V-PLOT on Tiny: `(7, 15)` is bit 7 of `FB[15]`; the pixel's byte and the response. -/
theorem test_plot_set :
    (after (exec (.plot 1 7 15) lit)).map (fun t => (readByte t.fb 15, readByte t.fb 8, t.responses, t.x1)) =
      some (0x80, 0xA5, [0x00000000], 7) := by decide
/-- V-PLOT row 6 on Tiny: invert of `(0, 10)`, bit 2 of `FB[8]`: `0xA5` gives `0xA1`. -/
theorem test_plot_invert :
    (after (exec (.plot 2 0 10) lit)).map (fun t => readByte t.fb 8) = some 0xA1 := by decide
/-- V-PLOT rows 12 and 13. -/
theorem test_plot_stops :
    (after (exec (.plot 1 0 0) dark)).map (fun t => (t.responses, t.halt, t.sticky)) = some ([0x40000000], true, true) ∧
    (after (exec (.plot 3 0 0) lit)).map (fun t => (t.responses, t.halt, t.fb)) =
      some ([0x50000000], false, [(8, 0xA5)]) := by decide
/-- V-LOAD row 1. -/
theorem test_load :
    (after (exec (.load [1, 2, 3, 4, 5, 6, 7, 8, 9, 10, 11, 12, 13, 14, 15, 16]) lit)).map
      (fun t => (readBytes t.fb 0 16, t.responses)) =
      some ([1, 2, 3, 4, 5, 6, 7, 8, 9, 10, 11, 12, 13, 14, 15, 16], [0x00000000]) := by decide
/-- V-LOAD rows 2 and 6: the length wins. -/
theorem test_load_length :
    (after (exec (.load (List.replicate 15 0xFF)) lit)).map (fun t => (t.responses, t.halt, t.fb)) =
      some ([0x30000000], true, [(8, 0xA5)]) ∧
    (after (exec (.load (List.replicate 15 0xFF)) dark)).map State.responses = some [0x30000000] := by decide
/-- V-LOAD rows 7 and 8. -/
theorem test_loadrom :
    (after (exec (.loadrom 1) lit)).map (fun t => (readByte t.fb 0, readByte t.fb 15, readByte t.fb 16)) =
      some (0xFF, 0xFF, 0x00) ∧
    (after (exec (.loadrom 2) lit)).map (fun t => (t.responses, t.halt)) = some ([0x50000000], false) := by decide
/-- V-LOAD rows 9 and 11. -/
theorem test_clear :
    (after (exec .clear lit)).map (fun t => (t.fb, t.responses)) = some ([], [0x00000000]) ∧
    (after (exec .clear dark)).map (fun t => (t.responses, t.halt)) = some ([0x40000000], true) := by decide
/-- V-RD: `RDFB`. -/
theorem test_rdfb :
    (after (exec (.rdfb 8) lit)).map State.responses = some [0x000000A5] ∧
    (after (exec (.rdfb 16) dark)).map (fun t => (t.responses, t.halt)) = some ([0x50000000], false) := by decide
/-- V-RD: `RDREG` on Tiny, registers 0 to 5. -/
theorem test_rdreg :
    [0, 1, 2, 3, 4, 5].map (fun r => (after (exec (.rdreg r) lit)).map State.responses) =
      [some [0x00000008], some [0x00000010], some [0x00000002], some [0x00000010], some [0x00000007],
       some [0x00000004]] := by decide
/-- V-ERR: `STATUS` after an `E_ILLEGAL`, `0x5C`, and at the next reading, `0x0C`. -/
theorem test_status_after_illegal :
    ((after (exec (.reserved0 0) lit)).bind fun t => after (exec (.rdreg 5) t)).map State.responses =
      some [0x50000000, 0x0000005C] ∧
    (after (exec (.rdreg 5) { lit with sticky := true })).map State.responses = some [0x0000000C] := by decide
/-- V-ERR: a halted block refuses before everything, and the payload is consumed. -/
theorem test_halted :
    [[0xB0000005], [0x103C0000], [0x00000000], [0x60000005, 1, 2]].map
      (fun ws => (after (step { halted with requests := ws })).map fun t => (t.responses, t.requests)) =
      List.replicate 4 (some ([0x60000000], [])) := by decide
/-- V-ERR: words that are illegal, before bounds and length. -/
theorem test_illegal :
    [[0x113C0000], [0x103C0001], [0x203C0002], [0x55000000], [0x53FFFFFF], [0x60010003, 1], [0x903C0001], [0xB0010000],
     [0x403C0000], [0x403C0008, 1, 2], [0xB0000008], [0x80000001], [0xC0000000]].map
      (fun ws => (after (step { dark with requests := ws })).map fun t => (t.responses, t.halt, t.requests)) =
      List.replicate 13 (some ([0x50000000], false, [])) := by decide

/-- V-AWAKE: acceptance, then the byte. -/
theorem test_awake :
    (((after (exec (.awake 0x3C true) dark)).bind fun t => after (step t)).map State.trace) =
      some [⟨⟨.byte, 0x3C, .cmd, [0xAF]⟩, none⟩] ∧
    (((after (exec (.awake 0x3C false) dark)).bind fun t => after (step t)).map State.trace) =
      some [⟨⟨.byte, 0x3C, .cmd, [0xAE]⟩, none⟩] := by decide
/-- V-SCROLL: the configuration command. -/
theorem test_scroll :
    (((after (exec (.scroll 0x3C 2) dark)).bind fun t => after (step t)).map State.trace) =
      some [⟨⟨.block, 0x3C, .cmd, [0x27, 0x00, 0x00, 0x00, 0x07, 0x00, 0xFF]⟩, none⟩] ∧
    (after (exec (.scroll 0x3C 7) dark)).map (fun t => (t.responses, t.phase)) = some ([0x00000000], .idle) := by decide
/-- V-WRCMD: bytes sent as they are, a command of the table or not. -/
theorem test_wrcmd :
    [[0xA7], [0x81, 0x7F], [0x21, 0x00, 0x7F], [1, 2, 3, 4, 5, 6, 7]].map
      (fun p => ((after (exec (.wrcmd 0x3C p) dark)).bind fun t => after (step t)).map State.trace) =
      [some [⟨⟨.byte, 0x3C, .cmd, [0xA7]⟩, none⟩], some [⟨⟨.word, 0x3C, .cmd, [0x81, 0x7F]⟩, none⟩],
       some [⟨⟨.block, 0x3C, .cmd, [0x21, 0x00, 0x7F]⟩, none⟩],
       some [⟨⟨.block, 0x3C, .cmd, [1, 2, 3, 4, 5, 6, 7]⟩, none⟩]] := by decide
/-- V-INIT with P1: transaction by transaction on Tiny. -/
theorem test_init_sequence :
    (List.range 17).map (fun k => txOf { busy .initCmd with idx := BitVec.ofNat 5 k }) =
      [some ⟨.byte, 0x3C, .cmd, [0xAE]⟩, some ⟨.word, 0x3C, .cmd, [0xD5, 0x80]⟩, some ⟨.word, 0x3C, .cmd, [0xA8, 0x0F]⟩,
       some ⟨.word, 0x3C, .cmd, [0xD3, 0x00]⟩, some ⟨.byte, 0x3C, .cmd, [0x40]⟩, some ⟨.word, 0x3C, .cmd, [0x8D, 0x14]⟩,
       some ⟨.word, 0x3C, .cmd, [0x20, 0x02]⟩, some ⟨.byte, 0x3C, .cmd, [0xA1]⟩, some ⟨.byte, 0x3C, .cmd, [0xC8]⟩,
       some ⟨.word, 0x3C, .cmd, [0xDA, 0x02]⟩, some ⟨.word, 0x3C, .cmd, [0x81, 0x8F]⟩,
       some ⟨.word, 0x3C, .cmd, [0xD9, 0xF1]⟩, some ⟨.word, 0x3C, .cmd, [0xDB, 0x40]⟩, some ⟨.byte, 0x3C, .cmd, [0xA6]⟩,
       some ⟨.byte, 0x3C, .cmd, [0xA4]⟩, some ⟨.byte, 0x3C, .cmd, [0x2E]⟩, some ⟨.byte, 0x3C, .cmd, [0xAF]⟩] := by decide
/-- Rule R93 by height: multiplex `H - 1` and COM pins `0x02` for 32 rows, `0x12` for 64, no reference value for 16. -/
theorem test_init_params :
    (InitParams.referenceFor 32).map (fun p => (p.multiplex, p.comPins)) = some (0x1F, 0x02) ∧
    (InitParams.referenceFor 64).map (fun p => (p.multiplex, p.comPins)) = some (0x3F, 0x12) ∧
    InitParams.referenceFor 16 = none ∧ tiny.initParams.multiplex = 0x0F := by decide
/-- The machine's own issue step sends command 9 of rule R116. -/
theorem test_init_issue :
    (after (step { busy .initCmd with idx := 9 })).map State.trace =
      some [⟨⟨.word, 0x3C, .cmd, [0xDA, 0x02]⟩, none⟩] := by decide
/-- P1: the windows, and the chunk at offset 7 of seven bytes. -/
theorem test_push_issue :
    (after (step (busy .winCol))).map State.trace = some [⟨⟨.block, 0x3C, .cmd, [0x21, 0x00, 0x07]⟩, none⟩] ∧
    (after (step (busy .winPage))).map State.trace = some [⟨⟨.block, 0x3C, .cmd, [0x22, 0x00, 0x01]⟩, none⟩] ∧
    (after (step (busy .stream))).map State.trace =
      some [⟨⟨.block, 0x3C, .data, [0x00, 0xA5, 0x00, 0x00, 0x00, 0x00, 0x00]⟩, none⟩] := by decide
/-- P1: after the chunk at offset 14, of two bytes, the push is done. -/
theorem test_push_end :
    (after (step { waiting .stream with ofs := 14, ntx := 4, answers := [.ok] })).map
      (fun t => (t.ofs, t.ntx, t.phase, t.responses)) = some (16, 5, .idle, [0x00000000]) := by decide
/-- V-SCROLL, the transport fails the second transaction. -/
theorem test_transport_failure :
    (after (step { waiting .scrollAct with ntx := 1, answers := [.fail 0x0009] })).map
      (fun t => (t.responses, t.errInfo, t.errPos, t.phase, t.pend, t.halt)) =
      some ([0x10000000], 0x0009, 1, .idle, false, false) := by decide
/-- P8: the fill step without a framebuffer to be had. -/
theorem test_fill_fails :
    (after (step { dark with cfg := { tiny with allocAvailable := false }, phase := .initFill, ntx := 17 })).map
      (fun t => (t.responses, t.halt, t.fbAlloc, t.trace)) = some ([0x20000000], true, false, []) := by decide
/-- Rule R91 and V-INIT: the word handed to the transport for `[0xD5, 0x80]` is `0x80D5`. -/
theorem test_transport_word :
    transportCall tiny ⟨.word, 0x3C, .cmd, [0xD5, 0x80]⟩ = some (.writeWord 0x3C 0x00 0x80D5) ∧
    transportCall tiny ⟨.block, 0x3C, .data, [7]⟩ = some (.writeBlock 0x3C 0x40 [7]) := by decide
/-- P9 hung. -/
def hung : State := { waiting .stream with sticky := true, errInfo := 5, errPos := 2 }
/-- V-RESET, from a hang; and the sampling of `MAXBLK` (rule R231). -/
theorem test_reset :
    (after (step { hung with resetLine := true, reportedMaxBlk := 16 })).map State.cfg = some { tiny with maxBlk := 16 } ∧
    (after (step { hung with resetLine := true })).map
      (fun t => [t.phase.code.toNat, t.pend.toNat, t.fbAlloc.toNat, (statusWord t).toNat, t.ofs.toNat, t.idx.toNat,
                 t.ntx.toNat, t.errInfo.toNat, t.errPos.toNat, t.trace.length]) = some (List.replicate 10 0) := by decide
/-- The reference machine's first step after reset runs the word put before it. -/
theorem test_withFetchWord :
    (after (step (State.reset.withFetchWord 32 0x103C0000))).map (fun t => (t.phase, t.x0)) = some (.initCmd, 0x3C) ∧
    (after (step (State.reset.withFetchWord 8 0x21))).map State.trace =
      some [⟨⟨.block, 0x00, .cmd, [0x21, 0x00, 0x00]⟩, none⟩] := by decide +kernel

/-! ## Witnesses: for each statement with hypotheses, a concrete state and operands that meet all of them together -/

/-- The invariant of a concrete state, from what `decide` settles and its trace. -/
theorem inv_of {s : State}
    (h : (s.cfg.WellFormed ∧ cmdMax ≤ s.reportedMaxBlk.toNat) ∧ s.idx.toNat ≤ 17 ∧ (s.phase = .initCmd → s.idx.toNat ≤ 16) ∧ s.ofs.toNat ≤ s.cfg.fbSize ∧
      (s.phase = .stream → s.ofs.toNat < s.cfg.fbSize) ∧
      (s.phase = .winCol ∨ s.phase = .winPage ∨ s.phase = .stream → s.fbAlloc = true) ∧ (s.halt = true → Idle s) ∧
      (s.phase = .scrollCfg ∨ s.phase = .single → 1 ≤ s.clen.toNat) ∧ s.x0.toNat < 256 ∧ Memory.wf s.fb ∧
      ∀ e ∈ s.fb, e.1 < s.cfg.fbSize)
    (hp : s.pend = true → s.phase ≠ .idle ∧ s.phase ≠ .initFill)
    (hf : s.pend = true → ∃ done tx, s.trace = done ++ [⟨tx, none⟩] ∧ AllAnswered done)
    (hs : s.pend = false → AllAnswered s.trace) : Inv s :=
  ⟨h.1.1, h.1.2, h.2.1, h.2.2.1, h.2.2.2.1, h.2.2.2.2.1, hp, h.2.2.2.2.2.1, h.2.2.2.2.2.2.1, h.2.2.2.2.2.2.2.1,
    h.2.2.2.2.2.2.2.2.1, h.2.2.2.2.2.2.2.2.2.1, h.2.2.2.2.2.2.2.2.2.2, hf, hs⟩

/-- The invariant of a concrete state with no transaction in flight. -/
theorem inv_settled {s : State}
    (h : (s.cfg.WellFormed ∧ cmdMax ≤ s.reportedMaxBlk.toNat) ∧ s.idx.toNat ≤ 17 ∧ (s.phase = .initCmd → s.idx.toNat ≤ 16) ∧ s.ofs.toNat ≤ s.cfg.fbSize ∧
      (s.phase = .stream → s.ofs.toNat < s.cfg.fbSize) ∧
      (s.phase = .winCol ∨ s.phase = .winPage ∨ s.phase = .stream → s.fbAlloc = true) ∧ (s.halt = true → Idle s) ∧
      (s.phase = .scrollCfg ∨ s.phase = .single → 1 ≤ s.clen.toNat) ∧ s.x0.toNat < 256 ∧ Memory.wf s.fb ∧
      ∀ e ∈ s.fb, e.1 < s.cfg.fbSize)
    (hp : s.pend = false) (hs : AllAnswered s.trace) : Inv s :=
  have hn : s.pend ≠ true := by rw [hp]; decide
  inv_of h (fun h' => absurd h' hn) (fun h' => absurd h' hn) fun _ => hs

theorem dark_inv : Inv dark := inv_settled (by decide) (by decide) (by decide)
theorem lit_inv : Inv lit := inv_settled (by decide) (by decide) (by decide)
theorem halted_inv : Inv halted := inv_settled (by decide) (by decide) (by decide)

/-- Every phase that issues. -/
def issuingPhases : List Phase := [.initCmd, .winCol, .winPage, .stream, .scrollCfg, .scrollAct, .single]

theorem busy_inv (p : Phase) (hp : p ∈ issuingPhases) : Inv (busy p) := by
  simp only [issuingPhases, List.mem_cons, List.not_mem_nil, or_false] at hp
  rcases hp with rfl | rfl | rfl | rfl | rfl | rfl | rfl <;> exact inv_settled (by decide) (by decide) (by decide)

theorem waiting_inv (p : Phase) (hp : p ∈ issuingPhases) : Inv (waiting p) := by
  simp only [issuingPhases, List.mem_cons, List.not_mem_nil, or_false] at hp
  rcases hp with rfl | rfl | rfl | rfl | rfl | rfl | rfl <;>
    exact inv_of (by decide) (fun _ => by decide) (fun _ => ⟨earlier, flying, rfl, by decide⟩)
      fun h => absurd h (by decide)

/-- The invariant says nothing of what the host and the transport will do. -/
theorem inv_inputs {s : State} (h : Inv s) (rq : List Word) (an : List Answer) :
    Inv { s with requests := rq, answers := an } :=
  ⟨h.1, h.2, h.3, h.4, h.5, h.6, h.7, h.8, h.9, h.10, h.11, h.12, h.13, h.14, h.15⟩

/-! Encoding -/

theorem witness_DecodeOfEncodeGivesTheInstruction :
    CmdEnc.reference.Unambiguous ∧ (Instr.load (List.replicate 65535 0)).wf = true ∧
    (Instr.ccScrollLeftCfg 0 0xFF 0 7 0 0xFF).wf = true ∧ (Instr.reservedF 0xFFFFFFF).wf = true :=
  ⟨by decide, test_wf_load_longest, by decide, by decide⟩

/-- With a payload word whose positions beyond `LEN` are not zero. -/
theorem witness_DecodedRequestKeepsEveryBit :
    decodeRequest 0x403C0002 [0xABCD7F81] = .ok (.wrcmd 0x3C [0x81, 0x7F]) := by rfl

/-- `LEN` 0, 5 and 65535. -/
theorem witness_PayloadBytePacking :
    ([] : List Word).length = ((0 : Half).toNat + 3) / 4 ∧
    [0x04030201#32, 0x00000005#32].length = ((5 : Half).toNat + 3) / 4 ∧ 4 < (5 : Half).toNat ∧
    (List.replicate 16384 (0 : Word)).length = ((65535 : Half).toNat + 3) / 4 :=
  ⟨by decide, by decide, by decide, by rw [List.length_replicate]; decide⟩

/-! The request port -/

/-- A row without payload, and one with two payload words and another request behind it. -/
theorem witness_StepRunsDecodedRequest :
    (Runs { lit with requests := [0x5107F01F] } ∧ Idle { lit with requests := [0x5107F01F] } ∧
      Presents { lit with requests := [0x5107F01F] } 0x5107F01F [] [] ∧
      decodeRequest 0x5107F01F [] = .ok (.plot 1 127 31)) ∧
    Runs { lit with requests := [0x403C0007, 0x04030201, 0x00070605, 0x80000000] } ∧
    Idle { lit with requests := [0x403C0007, 0x04030201, 0x00070605, 0x80000000] } ∧
    Presents { lit with requests := [0x403C0007, 0x04030201, 0x00070605, 0x80000000] } 0x403C0007
      [0x04030201, 0x00070605] [0x80000000] ∧
    decodeRequest 0x403C0007 [0x04030201, 0x00070605] = .ok (.wrcmd 0x3C [1, 2, 3, 4, 5, 6, 7]) :=
  ⟨⟨by decide, by decide, by decide, rfl⟩, by decide, by decide, by decide, rfl⟩

/-- Each of the six phases; in the last the buffer holds the two-byte contrast command. -/
theorem witness_StepRunsSequencedCommand :
    (∀ p ∈ issuingPhases, Runs (busy p) ∧ (busy p).pend = false ∧ (busy p).phase = p) ∧
    (initSeq tiny)[(busy .initCmd).idx.toNat]? = some (.ccSetDisplayOffset 0x00) ∧
    (initSeq tiny)[({ busy .initCmd with idx := 16 } : State).idx.toNat]? = some .ccDisplayOn ∧
    decodeCommand tiny.cmdEnc (busy .scrollCfg).cbuf.toList = some (.ccScrollRightCfg 0 0 0 7 0 0xFF) ∧
    (let s := { busy .single with cbuf := ⟨0x81, 0x7F, 0, 0, 0, 0, 0⟩, clen := 2 }
     Runs s ∧ s.pend = false ∧ s.phase = .single ∧ s.clen ≠ 0 ∧
      decodeCommand s.cfg.cmdEnc (commandBuffer s) = some (.ccSetContrast 0x7F)) := by decide

/-- One request of each format, each legal or not, the last one on a halted block. -/
theorem witness_DecodingWritesLatches :
    (let s := { dark with requests := [0x52FFFFFF] }
     Runs s ∧ Idle s ∧ Presents s 0x52FFFFFF [] [] ∧ wordOpc 0x52FFFFFF = 0x5) ∧
    (let s := { dark with requests := [0xFFFFFFFF, 0x80000000] }
     Runs s ∧ Idle s ∧ Presents s 0xFFFFFFFF [] [0x80000000] ∧ wordOpc 0xFFFFFFFF ≠ 0x5) ∧
    (let s := { halted with requests := [0x403C0002, 0x00007F81] }
     Runs s ∧ Idle s ∧ Presents s 0x403C0002 [0x00007F81] [] ∧ wordOpc 0x403C0002 ≠ 0x5) := by decide

/-- The least `LEN` above the legal range of `WRCMD`, the least `K` and `REG` above theirs, and a reserved opcode. -/
theorem witness_IllegalRequestIsRefused :
    (let s := { dark with requests := [0x403C0008, 1, 2, 3] }
     Runs s ∧ Ready s ∧ Presents s 0x403C0008 [1, 2] [3] ∧ legalWord s.cfg 0x403C0008 = false) ∧
    ∀ w ∈ [0x70000002#32, 0xB0000008#32, 0xA0000010#32, 0xC0000000#32, 0x53000000#32],
      let s := { lit with requests := [w] }
      Runs s ∧ Ready s ∧ Presents s w [] [] ∧ legalWord s.cfg w = false := by
  refine ⟨by decide, fun w hw => ?_⟩
  simp only [List.mem_cons, List.not_mem_nil, or_false] at hw
  rcases hw with rfl | rfl | rfl | rfl | rfl <;> decide

/-- The greatest legal `K`, `REG`, `OFS` and `DIR`, and a request that completes at once. -/
theorem witness_LegalRequestIsNotRefused :
    ∀ w ∈ [0x70000001#32, 0xB0000007#32, 0xA000000F#32, 0x303CFFFF#32, 0x52FFFFFF#32, 0x80000000#32, 0x103C0000#32],
      let s := { lit with requests := [w] }
      Runs s ∧ Ready s ∧ Presents s w [] [] ∧ legalWord s.cfg w = true := by
  intro w hw
  simp only [List.mem_cons, List.not_mem_nil, or_false] at hw
  rcases hw with rfl | rfl | rfl | rfl | rfl | rfl | rfl <;> decide

/-- A legal request with a payload; the all-zero word; and a step from a halted block without and with a reset event. -/
theorem witness_HaltedBlockRefusesEveryRequest :
    (let s := { halted with requests := [0x60000005, 1, 2] }
     Runs s ∧ Idle s ∧ s.halt = true ∧ Presents s 0x60000005 [1, 2] []) ∧
    (let s := { halted with requests := [0x00000000] }
     Runs s ∧ Idle s ∧ s.halt = true ∧ Presents s 0x00000000 [] []) ∧
    (∃ t, step halted = .next t) ∧
    ∃ t, step { halted with resetLine := true } = .next t :=
  ⟨by decide, by decide, ⟨halted, next_of (by decide)⟩, ⟨dark, next_of (by decide)⟩⟩

theorem witness_BusyBlockHoldsRequests :
    Runs { busy .scrollAct with requests := [0x80000000] } ∧ ¬Idle { busy .scrollAct with requests := [0x80000000] } ∧
    ∃ t, step { busy .scrollAct with requests := [0x80000000] } = .next t :=
  ⟨by decide, by decide, ⟨{ waiting .scrollAct with requests := [0x80000000], trace := [⟨flying, none⟩] },
    next_of (by decide)⟩⟩

/-- Nothing presented; and one payload word of four. -/
theorem witness_IdleBlockWaits :
    (Runs dark ∧ Idle dark ∧ ∀ w pay rest, ¬Presents dark w pay rest) ∧
    Runs { dark with requests := [0x60000010, 1] } ∧ Idle { dark with requests := [0x60000010, 1] } ∧
    ∀ w pay rest, ¬Presents { dark with requests := [0x60000010, 1] } w pay rest := by
  refine ⟨⟨by decide, by decide, fun w pay rest h => nomatch h.1⟩, by decide, by decide, fun w pay rest h => ?_⟩
  obtain ⟨h1, h2⟩ := h
  injection h1 with hw hp
  subst hw
  have hl := congrArg List.length hp
  simp only [List.length_append, List.length_cons, List.length_nil] at hl
  have h4 : pay.length = 4 := h2
  omega

/-- `W = 0`, `MAXBLK = 6` and equal channels; and Tiny, which has `MAXBLK = 7`, the longest command's length. -/
theorem witness_IllFormedConfigurationIsRefused :
    dark.cfg.WellFormed ∧ encode dark.cfg.cmdEnc (.ccScrollLeftCfg 0 0 0 7 0 0xFF) = .command [0x27, 0, 0, 0, 7, 0, 0xFF] ∧
    ∀ c ∈ [{ tiny with w := 0, patterns := [[], []] }, { tiny with maxBlk := 6 }, { tiny with chData := 0x00 }],
      let s := State.resetWith c
      ¬(1 ≤ s.cfg.w ∧ s.cfg.w ≤ 256 ∧ 8 ≤ s.cfg.h ∧ s.cfg.h ≤ 256 ∧ s.cfg.h % 8 = 0 ∧ 7 ≤ s.cfg.maxBlk.toNat ∧
        2 ≤ s.cfg.patterns.length ∧ (∀ p ∈ s.cfg.patterns, p.length = s.cfg.w * s.cfg.h / 8) ∧
        s.cfg.chCmd ≠ s.cfg.chData) := by decide

/-! The sequencer -/

theorem witness_IssueStepSendsTxOf : ∀ p ∈ issuingPhases,
    Inv (busy p) ∧ (busy p).resetLine = false ∧ (busy p).pend = false ∧ (busy p).phase ≠ .idle ∧
      (busy p).phase ≠ .initFill :=
  fun p hp => ⟨busy_inv p hp, by revert p; decide⟩

/-- The longest and the shortest chunk, a command of each length, and an instruction of each kind. -/
theorem witness_TransactionForms :
    (∀ p ∈ issuingPhases, Inv (busy p) ∧ (txOf (busy p)).isSome = true) ∧
    txOf (busy .stream) = some ⟨.block, 0x3C, .data, [0x00, 0xA5, 0x00, 0x00, 0x00, 0x00, 0x00]⟩ ∧
    txOf { busy .stream with ofs := 15 } = some ⟨.block, 0x3C, .data, [0x00]⟩ ∧
    encode tiny.cmdEnc .ccDisplayOn = .command [0xAF] ∧ encode tiny.cmdEnc (.ccSetContrast 0x8F) = .command [0x81, 0x8F] ∧
    encode tiny.cmdEnc (.ccSetColumnWindow 0 7) = .command [0x21, 0, 7] :=
  ⟨fun p hp => ⟨busy_inv p hp, by revert p; decide⟩, by decide, by decide, rfl, rfl, rfl⟩

/-- Each phase; the last command of the initialisation, and the last chunk of a push. -/
theorem witness_AnswerOkAdvances :
    (∀ p ∈ issuingPhases,
      let s := { waiting p with answers := [.ok] }
      Inv s ∧ s.resetLine = false ∧ s.pend = true ∧ s.answers = .ok :: [] ∧ s.trace = earlier ++ [⟨flying, none⟩] ∧
        s.phase = p) ∧
    (let s := { waiting .initCmd with answers := [.ok], idx := 16 }
     s.phase = .initCmd ∧ s.idx.toNat + 1 = 17) ∧
    (let s := { waiting .stream with answers := [.ok], ofs := 14 }
     s.phase = .stream ∧ s.ofs.toNat + min s.cfg.maxBlk.toNat (s.cfg.fbSize - s.ofs.toNat) = s.cfg.fbSize) :=
  ⟨fun p hp => ⟨inv_inputs (waiting_inv p hp) [] [.ok], rfl, rfl, rfl, rfl, rfl⟩, by decide, by decide⟩

theorem witness_AnswerFailAborts : ∀ p ∈ issuingPhases,
    let s := { waiting p with answers := [.fail 0xFFFF, .ok] }
    Runs s ∧ s.pend = true ∧ s.answers = .fail 0xFFFF :: [.ok] ∧ s.trace = earlier ++ [⟨flying, none⟩] :=
  fun _ _ => ⟨⟨test_tiny_wellFormed, rfl⟩, rfl, rfl, rfl⟩

theorem witness_UnansweredTransactionHangs :
    (hung.cfg.WellFormed ∧ hung.pend = true ∧ hung.answers = [] ∧ hung.resetLine = false) ∧
    let s := { hung with resetLine := true }
    s.cfg.WellFormed ∧ s.pend = true ∧ s.answers = [] ∧ s.resetLine = true := by decide

/-- The three cases of the fill step. -/
theorem witness_FillStepEffect :
    (let s := { dark with phase := .initFill, cfg := { tiny with allocAvailable := false } }
     Runs s ∧ s.phase = .initFill ∧ s.pend = false ∧ s.fbAlloc = false ∧ s.cfg.allocAvailable = false) ∧
    (let s := { dark with phase := .initFill }
     Runs s ∧ s.phase = .initFill ∧ s.pend = false ∧ s.fbAlloc = false ∧ s.cfg.allocAvailable = true ∧
      s.cfg.firstInitFill = .zero ∧ 15 < s.cfg.fbSize) ∧
    let s := { lit with phase := .initFill }
    Runs s ∧ s.phase = .initFill ∧ s.pend = false ∧ s.fbAlloc = true := by decide

/-! The requests of the Device Protocol -/

/-- For `InitIsAccepted`, `AwakeIsAccepted`, `ScrollIsAccepted`, `ScrollUnknownDirectionDoesNothing` and
`RawCommandIsAccepted`: the block right after reset; the directions 1, 2, 3 and 65535; the lengths 1 and 7. -/
theorem witness_InitIsAccepted : Ready dark ∧ Ready lit := by decide
theorem witness_AwakeIsAccepted : Ready dark ∧ Ready lit := by decide
theorem witness_ScrollIsAccepted : Ready dark ∧ ((1 : Half) = 1 ∨ (1 : Half) = 2) ∧ ((2 : Half) = 1 ∨ (2 : Half) = 2) := by
  decide
theorem witness_ScrollUnknownDirectionDoesNothing :
    Ready dark ∧ 3 ≤ (3 : Half).toNat ∧ 3 ≤ (65535 : Half).toNat := by decide
theorem witness_RawCommandIsAccepted :
    Ready dark ∧ (1 ≤ [0xA7#8].length ∧ [0xA7#8].length ≤ 7) ∧
    1 ≤ [1#8, 2#8, 3#8, 4#8, 5#8, 6#8, 7#8].length ∧ [1#8, 2#8, 3#8, 4#8, 5#8, 6#8, 7#8].length ≤ 7 := by decide

/-- Each reserved opcode, with all of the word's other bits set. -/
theorem witness_ReservedOpcodesAreRefused :
    Ready dark ∧
    ∀ i ∈ [Instr.reserved0 0xFFFFFFF, .reservedC 0xFFFFFFF, .reservedD 0xFFFFFFF, .reservedE 0xFFFFFFF,
        .reservedF 0xFFFFFFF],
      i = .reserved0 0xFFFFFFF ∨ i = .reservedC 0xFFFFFFF ∨ i = .reservedD 0xFFFFFFF ∨ i = .reservedE 0xFFFFFFF ∨
        i = .reservedF 0xFFFFFFF :=
  ⟨by decide, fun i hi => by simpa using hi⟩

/-- Every one of the twenty-two, with the bytes it is sent as. -/
theorem witness_ControllerCommandsAreSent :
    [.ccDisplayOff, .ccSetClockDiv 0x80, .ccSetMultiplex 0x0F, .ccSetDisplayOffset 0, .ccSetStartLine 63,
     .ccChargePump 0x14, .ccSetMemoryMode 2, .ccSegRemapReversed, .ccComScanReversed, .ccSetComPins 2,
     .ccSetContrast 0x8F, .ccSetPrecharge 0xF1, .ccSetVcomDeselect 0x40, .ccNormalDisplay, .ccDisplayFollowRam,
     .ccDeactivateScroll, .ccDisplayOn, .ccSetColumnWindow 0 7, .ccSetPageWindow 0 1, .ccScrollRightCfg 0 0 0 7 0 0xFF,
     .ccScrollLeftCfg 0 0 0 7 0 0xFF, .ccActivateScroll].map (encode dark.cfg.cmdEnc) =
    [.command [0xAE], .command [0xD5, 0x80], .command [0xA8, 0x0F], .command [0xD3, 0], .command [0x7F],
     .command [0x8D, 0x14], .command [0x20, 2], .command [0xA1], .command [0xC8], .command [0xDA, 2],
     .command [0x81, 0x8F], .command [0xD9, 0xF1], .command [0xDB, 0x40], .command [0xA6], .command [0xA4],
     .command [0x2E], .command [0xAF], .command [0x21, 0, 7], .command [0x22, 0, 1],
     .command [0x26, 0, 0, 0, 7, 0, 0xFF], .command [0x27, 0, 0, 0, 7, 0, 0xFF], .command [0x2F]] := by decide

/-! The framebuffer requests -/

/-- The last pixel and the last bit. -/
theorem witness_PixelTranslationIsABijection :
    tiny.WellFormed ∧ (7 < tiny.w ∧ 15 < tiny.h) ∧ 15 < tiny.fbSize ∧ 7 ≤ 7 := by decide

theorem witness_PlotChangesOneBit :
    Ready lit ∧ lit.fbAlloc = true ∧ (2 : BitVec 2) ≠ 3 ∧ (7 : BitVec 12).toNat < lit.cfg.w ∧
    (15 : BitVec 12).toNat < lit.cfg.h := by decide

/-- The first column and the first row outside; with and without a framebuffer. -/
theorem witness_PlotOutOfBoundsIsDropped :
    (Ready lit ∧ (0 : BitVec 2) ≠ 3 ∧ (lit.cfg.w ≤ (8 : BitVec 12).toNat ∨ lit.cfg.h ≤ (0 : BitVec 12).toNat)) ∧
    Ready dark ∧ (2 : BitVec 2) ≠ 3 ∧ (dark.cfg.w ≤ (0 : BitVec 12).toNat ∨ dark.cfg.h ≤ (16 : BitVec 12).toNat) := by
  decide

/-- `lit` after `PLOT 0, 10` in a mode, with the byte at offset 8 as given. -/
def plotted (mode : BitVec 2) (b : Byte) (n : Nat) : State :=
  { lit with fb := [(8, b)], x2 := 10, x3 := mode.setWidth 16, responses := List.replicate n 0x00000000 }

/-- Invert twice, as V-PLOT rows 6 and 7 have it (`0xA5`, `0xA1`, `0xA5`), the later invert also from a state in which
another pixel of the byte has been written; and for clear and set a pixel that has the value already. -/
theorem witness_PlotModesBitByBit :
    (Inv lit ∧ Ready lit ∧ lit.fbAlloc = true ∧ (2 : BitVec 2) ≠ 3 ∧ (0 : BitVec 12).toNat < lit.cfg.w ∧
      (10 : BitVec 12).toNat < lit.cfg.h ∧ exec (.plot 2 0 10) lit = .next (plotted 2 0xA1 1) ∧
      exec (.plot 2 0 10) (plotted 2 0xA1 1) = .next (plotted 2 0xA5 2) ∧
      Ready (plotted 1 0xA3 2) ∧ (plotted 1 0xA3 2).fbAlloc = true ∧ (plotted 1 0xA3 2).cfg = lit.cfg ∧
      exec (.plot 2 0 10) (plotted 1 0xA3 2) = .next (plotted 2 0xA7 3) ∧
      pixel lit.cfg (plotted 1 0xA3 2).fb 0 10 = pixel lit.cfg (plotted 2 0xA1 1).fb 0 10) ∧
    (exec (.plot 1 0 10) lit = .next (plotted 1 0xA5 1) ∧ exec (.plot 1 0 10) (plotted 1 0xA5 1) = .next (plotted 1 0xA5 2) ∧
      pixel lit.cfg lit.fb 0 10 = true) ∧
    exec (.plot 0 0 9) lit = .next { plotted 0 0xA5 1 with x2 := 9 } ∧
    exec (.plot 0 0 9) { plotted 0 0xA5 1 with x2 := 9 } = .next { plotted 0 0xA5 2 with x2 := 9 } ∧
    pixel lit.cfg lit.fb 0 9 = false :=
  ⟨⟨lit_inv, by decide, rfl, by decide, by decide, by decide, next_of (by decide), next_of (by decide), by decide, rfl, rfl,
    next_of (by decide), by decide⟩, ⟨next_of (by decide), next_of (by decide), by decide⟩, next_of (by decide),
    next_of (by decide), by decide⟩

/-- Two pixels of one byte; and a `PLOT` outside. -/
theorem witness_PlotProperties :
    (Inv lit ∧ Ready lit ∧ lit.fbAlloc = true ∧ (1 : BitVec 2) ≠ 3 ∧ (2 : BitVec 2) ≠ 3 ∧
      exec (.plot 1 0 10) lit = .next (plotted 1 0xA5 1) ∧ (0 : BitVec 12).toNat < lit.cfg.w ∧
      (10 : BitVec 12).toNat < lit.cfg.h ∧ (15 : BitVec 12).toNat < lit.cfg.h ∧ ((0 : BitVec 12), (10 : BitVec 12)) ≠ (0, 15)) ∧
    exec (.plot 1 8 10) lit = .next { plotted 1 0xA5 1 with x1 := 8 } ∧ lit.cfg.w ≤ (8 : BitVec 12).toNat :=
  ⟨⟨lit_inv, by decide, rfl, by decide, by decide, next_of (by decide), by decide, by decide, by decide, by decide⟩,
    next_of (by decide), by decide⟩

theorem witness_LoadOverwritesTheFramebuffer :
    Ready lit ∧ lit.fbAlloc = true ∧ (List.replicate 16 (0xFF : Byte)).length = lit.cfg.fbSize := by decide

/-- Lengths 0, `N - 1` and `N + 1`. -/
theorem witness_LoadOfWrongLengthHalts :
    (Ready lit ∧ Ready dark) ∧ ([] : List Byte).length ≠ lit.cfg.fbSize ∧
    (List.replicate 15 (0 : Byte)).length ≠ lit.cfg.fbSize ∧ (List.replicate 17 (0 : Byte)).length ≠ dark.cfg.fbSize := by
  decide

/-- The last pattern, and the first number that names none. -/
theorem witness_LoadRomOverwritesTheFramebuffer :
    lit.cfg.WellFormed ∧ Ready lit ∧ ((1 : Half).toNat < lit.cfg.patterns.length ∧ lit.fbAlloc = true) ∧
    lit.cfg.patterns.length ≤ (2 : Half).toNat := by decide

/-- `CLEAR` from `lit`, and the state after it for the reading of the last offset. -/
theorem witness_ClearZeroFillsTheFramebuffer :
    (Ready lit ∧ lit.fbAlloc = true ∧ lit.cfg.fbSize ≤ 65536) ∧
    let t := { lit with fb := [], responses := [0x00000000] }
    exec .clear lit = .next t ∧ Ready t ∧ t.fbAlloc = true ∧ t.cfg = lit.cfg ∧ t.fb = t.fb ∧ 15 < lit.cfg.fbSize :=
  ⟨by decide, next_of (by decide), by decide, rfl, rfl, rfl, by decide⟩

/-- Each of the six, at the end of its range; and a `PLOT` outside. -/
theorem witness_UnallocatedFramebufferHalts :
    (Ready dark ∧ dark.fbAlloc = false) ∧
    ((1 : BitVec 2) ≠ 3 ∧ (7 : BitVec 12).toNat < dark.cfg.w ∧ (15 : BitVec 12).toNat < dark.cfg.h) ∧
    (List.replicate 16 (0 : Byte)).length = dark.cfg.fbSize ∧ (1 : Half).toNat < dark.cfg.patterns.length ∧
    (15 : Half).toNat < dark.cfg.fbSize ∧ dark.cfg.w ≤ (8 : BitVec 12).toNat ∧ dark.cfg.h ≤ (16 : BitVec 12).toNat := by
  decide

theorem witness_PushIsAccepted :
    (Ready lit ∧ lit.fbAlloc = true) ∧ Ready dark ∧ dark.fbAlloc = false := by decide

/-! The read-back requests -/

/-- The last offset, and the first one that is not an address. -/
theorem witness_ReadFramebufferByte :
    Ready lit ∧ ((15 : Half).toNat < lit.cfg.fbSize ∧ lit.fbAlloc = true) ∧ lit.cfg.fbSize ≤ (16 : Half).toNat := by decide

/-- In a state in which the eight values differ. -/
theorem witness_ReadRegister :
    let s := { lit with errInfo := 0x00A5, errPos := 9 }
    Ready s ∧ s.errInfo = 0x00A5 ∧ s.errPos = 9 ∧ statusWord s = 4 := by decide

theorem witness_StatusFields :
    Ready { lit with sticky := true, last := .illegal } ∧
    statusWord { lit with sticky := true, last := .illegal } = 0x005C ∧ statusWord (busy .stream) = 0x0005 ∧
    statusWord halted = 0x003E := by decide

/-! The whole machine -/

/-- Tiny, and the least display rule R9 allows. -/
theorem witness_ResetStateMeetsInvariant :
    tiny.WellFormed ∧ { tiny with w := 1, h := 8, patterns := [[0x00], [0xFF]] }.WellFormed := by decide

/-- A step that issues, and one from a state in which all three flags are set. -/
theorem witness_StepKeepsInvariant :
    (∀ p ∈ issuingPhases, Inv (busy p)) ∧ (∃ t, step (busy .scrollAct) = .next t) ∧
    Inv { halted with requests := [0x80000000] } ∧
    (∃ t, step { halted with requests := [0x80000000] } = .next t) ∧ halted.resetLine = false ∧ halted.fbAlloc = true ∧
    halted.halt = true ∧ halted.sticky = true :=
  ⟨busy_inv, ⟨{ waiting .scrollAct with trace := [⟨flying, none⟩] }, next_of (by decide)⟩,
    inv_inputs halted_inv [0x80000000] [], ⟨{ halted with last := .halted, responses := [0x60000000] },
    next_of (by decide)⟩, rfl, rfl, rfl, rfl⟩

/-- The second chunk of a push: `OFS = 7`, `NTX = 3`. -/
theorem witness_StepKeepsOrdinals :
    let s := { waiting .stream with ntx := 3, answers := [.ok] }
    Inv s ∧ Ordinals s ∧ ∃ t, step s = .next t :=
  ⟨⟨(waiting_inv .stream (by decide)).1, (waiting_inv .stream (by decide)).2, (waiting_inv .stream (by decide)).3,
      (waiting_inv .stream (by decide)).4, (waiting_inv .stream (by decide)).5, (waiting_inv .stream (by decide)).6,
      (waiting_inv .stream (by decide)).7, (waiting_inv .stream (by decide)).8, (waiting_inv .stream (by decide)).9,
      (waiting_inv .stream (by decide)).10, (waiting_inv .stream (by decide)).11, (waiting_inv .stream (by decide)).12,
      (waiting_inv .stream (by decide)).13, (waiting_inv .stream (by decide)).14, (waiting_inv .stream (by decide)).15⟩,
    ⟨by decide, by decide, by decide, by decide, by decide, by decide, by decide, by decide⟩,
    ⟨{ busy .stream with ofs := 14, ntx := 4, trace := earlier ++ [⟨flying, some .ok⟩] }, next_of (by decide)⟩⟩

theorem witness_ConfigurationIsConstant :
    (∃ t, step (busy .scrollAct) = .next t) ∧ (busy .scrollAct).resetLine = false ∧
    let s := { hung with resetLine := true, reportedMaxBlk := 16 }
    (∃ t, step s = .next t) ∧ s.resetLine = true :=
  ⟨⟨{ waiting .scrollAct with trace := [⟨flying, none⟩] }, next_of (by decide)⟩, rfl,
    ⟨State.resetWith { tiny with maxBlk := 16 }, next_of (by decide)⟩, rfl⟩

/-- A fill step and a `CLEAR`, each of which changes the framebuffer. -/
theorem witness_FramebufferWriters :
    (let s := { lit with phase := .initFill }
     ∃ t, step s = .next t ∧ s.resetLine = false ∧ t.fb ≠ s.fb) ∧
    let s := { lit with requests := [0x80000000] }
    ∃ t, step s = .next t ∧ s.resetLine = false ∧ t.fb ≠ s.fb :=
  ⟨⟨{ lit with phase := .winCol, fb := [] }, next_of (by decide), rfl, by decide⟩,
    ⟨{ lit with fb := [], responses := [0x00000000] }, next_of (by decide), rfl, by decide⟩⟩

/-- A reset event, a transport failure, and a step that is neither. -/
theorem witness_ErrorRegistersRecordTransportFailures :
    (∃ t, step { hung with resetLine := true } = .next t) ∧
    (let s := { waiting .scrollAct with ntx := 1, answers := [.fail 0x0009] }
     (∃ t, step s = .next t) ∧ s.resetLine = false ∧ s.pend = true ∧ s.answers = .fail 0x0009 :: []) ∧
    (let s := busy .scrollAct
     (∃ t, step s = .next t) ∧ s.resetLine = false ∧ ¬∃ e more, s.pend = true ∧ s.answers = .fail e :: more) :=
  ⟨⟨dark, next_of (by decide)⟩,
    ⟨⟨{ busy .scrollAct with
          phase := .idle, ntx := 1, errInfo := 0x0009, errPos := 1, last := .transport, sticky := true,
          responses := [0x10000000], trace := earlier ++ [⟨flying, some (.fail 0x0009)⟩] },
      next_of (by decide)⟩, rfl, rfl, rfl⟩,
    ⟨⟨{ waiting .scrollAct with trace := [⟨flying, none⟩] }, next_of (by decide)⟩, rfl,
      fun h => h.elim fun _ h => h.elim fun _ h => absurd h.1 (by decide)⟩⟩

/-- An issue step, and an answer step. -/
theorem witness_TransactionsAreTotallyOrdered :
    (Inv (busy .scrollAct) ∧ (∃ t, step (busy .scrollAct) = .next t) ∧ (busy .scrollAct).resetLine = false) ∧
    let s := { waiting .scrollCfg with answers := [.ok] }
    Inv s ∧ (∃ t, step s = .next t) ∧ s.resetLine = false :=
  ⟨⟨busy_inv _ (by decide), witness_ConfigurationIsConstant.1, rfl⟩,
    ⟨inv_inputs (waiting_inv .scrollCfg (by decide)) [] [.ok],
      ⟨{ busy .scrollAct with ntx := 3, trace := earlier ++ [⟨flying, some .ok⟩] }, next_of (by decide)⟩, rfl⟩⟩

/-- A step that completes a request, and one that does not. -/
theorem witness_CompletionRecordsTheResult :
    ((∃ t, step { lit with requests := [0x80000000] } = .next t) ∧ lit.resetLine = false) ∧
    (∃ t, step (busy .scrollAct) = .next t) ∧ (busy .scrollAct).resetLine = false :=
  ⟨⟨⟨{ lit with fb := [], responses := [0x00000000] }, next_of (by decide)⟩, rfl⟩, witness_ConfigurationIsConstant.1, rfl⟩

/-- Two blocks that differ in every other register. -/
theorem witness_RequestsDependOnFramebufferAndHaltAlone :
    let u := { busy .stream with phase := .idle, sticky := true, last := .transport, errInfo := 1, errPos := 2 }
    Idle lit ∧ Idle u ∧ (Instr.push 0x3C).isCommand = false ∧ (∀ r, Instr.push 0x3C ≠ .rdreg r) ∧ lit.cfg = u.cfg ∧
      lit.fb = u.fb ∧ lit.fbAlloc = u.fbAlloc ∧ lit.halt = u.halt :=
  ⟨by decide, by decide, rfl, fun r h => (by cases h), rfl, rfl, rfl, rfl⟩

/-- From a hang, and from a halted block. -/
theorem witness_ResetEffect :
    (let s := { hung with resetLine := true, reportedMaxBlk := 16 }
     s.cfg.WellFormed ∧ s.resetLine = true ∧ s.requests = [] ∧ { s.cfg with maxBlk := s.reportedMaxBlk }.WellFormed) ∧
    let s := { halted with resetLine := true }
    s.cfg.WellFormed ∧ s.resetLine = true := by decide

/-! Whole requests -/

/-- A halted block that refuses one request and then waits. -/
theorem witness_HaltLastsUntilReset :
    let s := { halted with requests := [0x80000000] }
    Inv s ∧ s.halt = true ∧ s.resetLine = false ∧ ∃ t, runSteps 2 s = .next t :=
  ⟨inv_inputs halted_inv [0x80000000] [], rfl, rfl,
    ⟨{ halted with last := .halted, responses := [0x60000000] }, next_of (by decide)⟩⟩

theorem witness_RequestsComplete :
    let s := { busy .winCol with answers := List.replicate 22 .ok }
    Inv s ∧ s.resetLine = false ∧ ¬Idle s ∧ txBound s.cfg ≤ s.answers.length :=
  ⟨inv_inputs (busy_inv .winCol (by decide)) [] (List.replicate 22 .ok), rfl, by decide, by decide⟩

/-- `N = 16` and `MAXBLK = 7` give three chunks; and a configuration with `MAXBLK = N`. -/
theorem witness_PushSendsTheFramebuffer :
    (let s := { lit with requests := [0x903C0000], answers := List.replicate 5 .ok }
     Inv s ∧ Ready s ∧ s.resetLine = false ∧ s.fbAlloc = true ∧ s.requests = gWord 0x9 0x3C 0 :: [] ∧
      s.answers = List.replicate (2 + chunkCount s.cfg) .ok ++ []) ∧
    { tiny with maxBlk := 16 }.WellFormed ∧ { tiny with maxBlk := 16 }.fbSize ≤ { tiny with maxBlk := 16 }.maxBlk.toNat :=
  ⟨⟨inv_inputs lit_inv [0x903C0000] (List.replicate 5 .ok), by decide, rfl, rfl, by decide, by decide⟩, by decide,
    by decide⟩

/-- A first and a later call. -/
theorem witness_InitRunsTheSequence :
    (let s := { dark with requests := [0x103C0000], answers := List.replicate 22 .ok }
     Inv s ∧ Ready s ∧ s.resetLine = false ∧ (s.fbAlloc = true ∨ s.cfg.allocAvailable = true) ∧
      s.requests = gWord 0x1 0x3C 0 :: [] ∧ s.answers = List.replicate (19 + chunkCount s.cfg) .ok ++ [] ∧
      s.cfg.firstInitFill = .zero) ∧
    let s := { lit with requests := [0x103C0000], answers := List.replicate 22 .ok }
    Inv s ∧ Ready s ∧ s.resetLine = false ∧ s.fbAlloc = true ∧ s.requests = gWord 0x1 0x3C 0 :: [] ∧
      s.answers = List.replicate (19 + chunkCount s.cfg) .ok ++ [] :=
  ⟨⟨inv_inputs dark_inv [0x103C0000] (List.replicate 22 .ok), by decide, rfl, .inr rfl, by decide, by decide, rfl⟩,
    inv_inputs lit_inv [0x103C0000] (List.replicate 22 .ok), by decide, rfl, rfl, by decide, by decide⟩

theorem witness_FailedAllocationHalts :
    let c := { tiny with allocAvailable := false }
    let s := { State.resetWith c with requests := [0x103C0000], answers := List.replicate 17 .ok }
    Inv s ∧ Ready s ∧ s.resetLine = false ∧ s.fbAlloc = false ∧ s.cfg.allocAvailable = false ∧
      s.requests = gWord 0x1 0x3C 0 :: [] ∧ s.answers = List.replicate 17 .ok ++ [] :=
  ⟨inv_settled (by decide) rfl (by decide), by decide, rfl, rfl, rfl, by decide, by decide⟩

/-- The first transaction fails; the last one does. -/
theorem witness_FailedPushAborts :
    (let s := { lit with requests := [0x903C0000], answers := [.fail 0x00A5] }
     Inv s ∧ Ready s ∧ s.resetLine = false ∧ s.fbAlloc = true ∧ 0 < 2 + chunkCount s.cfg ∧
      s.requests = gWord 0x9 0x3C 0 :: [] ∧ s.answers = List.replicate 0 .ok ++ .fail 0x00A5 :: []) ∧
    let s := { lit with requests := [0x903C0000], answers := [.ok, .ok, .ok, .ok, .fail 0x00A5] }
    Inv s ∧ Ready s ∧ s.resetLine = false ∧ s.fbAlloc = true ∧ 4 < 2 + chunkCount s.cfg ∧
      s.requests = gWord 0x9 0x3C 0 :: [] ∧ s.answers = List.replicate 4 .ok ++ .fail 0x00A5 :: [] :=
  ⟨⟨inv_inputs lit_inv [0x903C0000] [.fail 0x00A5], by decide, rfl, rfl, by decide, by decide, by decide⟩,
    inv_inputs lit_inv [0x903C0000] [.ok, .ok, .ok, .ok, .fail 0x00A5], by decide, rfl, rfl, by decide, by decide, by decide⟩

/-- V-LOAD row 1, then `PUSH`. -/
theorem witness_LoadThenPushSendsThePattern :
    let pay : List Byte := [1, 2, 3, 4, 5, 6, 7, 8, 9, 10, 11, 12, 13, 14, 15, 16]
    let s := { lit with requests := [0x60000010, 0x04030201, 0x08070605, 0x0C0B0A09, 0x100F0E0D, 0x903C0000],
                        answers := List.replicate 5 .ok }
    Inv s ∧ Ready s ∧ s.resetLine = false ∧ s.fbAlloc = true ∧ pay.length = s.cfg.fbSize ∧
      s.requests = (encode s.cfg.cmdEnc (.load pay)).words ++ (encode s.cfg.cmdEnc (.push 0x3C)).words ++ [] ∧
      s.answers = List.replicate (2 + chunkCount s.cfg) .ok ++ [] :=
  ⟨inv_inputs lit_inv _ _, by decide, rfl, rfl, by decide, by decide, by decide⟩

/-- Right, and left. -/
theorem witness_ScrollThenOffSendsThree :
    (let s := { dark with requests := [0x303C0001, 0x303C0000], answers := [.ok, .ok, .ok] }
     Inv s ∧ Ready s ∧ s.resetLine = false ∧ ((1 : Half) = 1 ∨ (1 : Half) = 2) ∧
      s.requests = gWord 0x3 0x3C 1 :: gWord 0x3 0x3C 0 :: [] ∧ s.answers = .ok :: .ok :: .ok :: []) ∧
    let s := { dark with requests := [0x303C0002, 0x303C0000], answers := [.ok, .ok, .ok] }
    Inv s ∧ Ready s ∧ s.resetLine = false ∧ ((2 : Half) = 1 ∨ (2 : Half) = 2) ∧
      s.requests = gWord 0x3 0x3C 2 :: gWord 0x3 0x3C 0 :: [] ∧ s.answers = .ok :: .ok :: .ok :: [] :=
  ⟨⟨inv_inputs dark_inv _ _, by decide, rfl, .inl rfl, by decide, rfl⟩,
    inv_inputs dark_inv _ _, by decide, rfl, .inr rfl, by decide, rfl⟩

/-- The last byte and its last bit: pixel `(7, 15)`. -/
theorem witness_PushedBytesLandAsPixels : tiny.WellFormed ∧ 15 < tiny.fbSize ∧ 7 < 8 := by decide

end Sys2Proof.Tests
end

/-! # Scope (`00_scope.md`): the refusal of an ill-formed configuration, and the constancy of the configuration -/

namespace Sys2Proof.Proofs

open Sys2Proof.Machine Sys2Proof.Laws

/-! ## What the advance of a phase and the fill step can do -/

/-- Everything the advance on `ok` can do (rules R120, R128, R131, R163 to R166), with `s` the state whose `PEND` and `NTX`
are already updated and `t` the state after it. -/
inductive AdvanceOutcome (s t : State) : Prop where
  | initCommand (hp : s.phase = .initCmd)
      (ht : t = { s with idx := s.idx + 1, phase := if s.idx + 1 = 17 then .initFill else .initCmd })
  | columnWindow (hp : s.phase = .winCol) (ht : t = { s with phase := .winPage })
  | pageWindow (hp : s.phase = .winPage) (ht : t = { s with phase := .stream, ofs := 0 })
  | chunk (hp : s.phase = .stream) (hn : (s.ofs + BitVec.ofNat 16 (chunkLen s)).toNat ≠ s.cfg.fbSize)
      (ht : t = { s with ofs := s.ofs + BitVec.ofNat 16 (chunkLen s) })
  | lastChunk (hp : s.phase = .stream) (hn : (s.ofs + BitVec.ofNat 16 (chunkLen s)).toNat = s.cfg.fbSize)
      (ht : t = respond .ok 0 { s with ofs := s.ofs + BitVec.ofNat 16 (chunkLen s) })
  | scrollConfigured (hp : s.phase = .scrollCfg) (ht : t = { s with phase := .scrollAct })
  | lastCommand (hp : s.phase = .scrollAct ∨ s.phase = .single) (ht : t = respond .ok 0 s)

/-- The advance answers a next state in every phase that issues transactions, and faults in the other two. -/
theorem advance_cases (s : State) :
    (advance s = .fault .strayAnswer ∧ (s.phase = .idle ∨ s.phase = .initFill)) ∨
      ∃ t, advance s = .next t ∧ AdvanceOutcome s t := by
  unfold advance
  split
  next hp => exact .inl ⟨rfl, .inl hp⟩
  next hp => exact .inr ⟨_, rfl, .initCommand hp rfl⟩
  next hp => exact .inl ⟨rfl, .inr hp⟩
  next hp => exact .inr ⟨_, rfl, .columnWindow hp rfl⟩
  next hp => exact .inr ⟨_, rfl, .pageWindow hp rfl⟩
  next hp =>
    dsimp only
    split
    next hn => exact .inr ⟨_, rfl, .lastChunk hp hn rfl⟩
    next hn => exact .inr ⟨_, rfl, .chunk hp hn rfl⟩
  next hp => exact .inr ⟨_, rfl, .scrollConfigured hp rfl⟩
  next hp => exact .inr ⟨_, rfl, .lastCommand (.inl hp) rfl⟩
  next hp => exact .inr ⟨_, rfl, .lastCommand (.inr hp) rfl⟩

/-- Everything the fill step can do (rules R122 and R202), with `t` the state after it. -/
inductive FillOutcome (s t : State) : Prop where
  | cleared (ha : s.fbAlloc = true) (ht : t = { overwriteFb (zeroBytes s.cfg) s with phase := .winCol })
  | allocatedZero (ha : s.fbAlloc = false) (hv : s.cfg.allocAvailable = true) (hf : s.cfg.firstInitFill = .zero)
      (ht : t = { overwriteFb (zeroBytes s.cfg) s with fbAlloc := true, phase := .winCol })
  | allocatedAny (ha : s.fbAlloc = false) (hv : s.cfg.allocAvailable = true) (hf : s.cfg.firstInitFill = .any)
      (ht : t = { overwriteFb (freeBytes s.cfg s.draws) s with
                  fbAlloc := true, phase := .winCol, draws := s.draws + 1 })
  | failed (ha : s.fbAlloc = false) (hv : s.cfg.allocAvailable = false) (ht : t = raise .allocFail s)

theorem fillStep_cases (s : State) : FillOutcome s (fillStep s) := by
  unfold fillStep
  cases ha : s.fbAlloc with
  | true => exact .cleared ha rfl
  | false =>
    cases hv : s.cfg.allocAvailable with
    | false => exact .failed ha hv rfl
    | true =>
      cases hf : s.cfg.firstInitFill with
      | zero => exact .allocatedZero ha hv hf rfl
      | any => exact .allocatedAny ha hv hf rfl

/-! ## No step refuses under a well-formed configuration -/

/-- Every arm of the dispatch has a meaning: a controller command is issued, a request is accepted. -/
theorem exec_next (i : Instr) (s : State) : ∃ t, exec i s = .next t := by
  cases hc : i.isCommand with
  | true => exact ⟨_, exec_command i s hc⟩
  | false =>
    obtain ⟨t, ht, -⟩ := exec_request i s hc
    exact ⟨t, ht⟩

theorem exec_not_refused (i : Instr) (s : State) (r : Refusal) : exec i s ≠ .refused r := by
  obtain ⟨t, ht⟩ := exec_next i s
  simp [ht]

theorem advance_not_refused (s : State) (r : Refusal) : advance s ≠ .refused r := by
  obtain ⟨ht, -⟩ | ⟨t, ht, -⟩ := advance_cases s <;> simp [ht]

theorem answerStep_not_refused (s : State) (r : Refusal) : answerStep s ≠ .refused r := by
  unfold answerStep
  split
  · simp
  · exact advance_not_refused _ r
  · simp

theorem acceptStep_not_refused (s : State) (r : Refusal) : acceptStep s ≠ .refused r := by
  cases hf : fetchRequest s.requests with
  | none => simp [acceptStep_wait hf]
  | some q =>
    obtain ⟨w, pay, rest⟩ := q
    cases hd : decodeRequest w pay with
    | ok i => rw [acceptStep_exec hf hd]; exact exec_not_refused i _ r
    | error e => simp [acceptStep_refuse hf hd]

theorem issueStep_not_refused (s : State) (r : Refusal) : issueStep s ≠ .refused r := by
  unfold issueStep
  split
  · exact exec_not_refused _ s r
  all_goals simp

theorem runStep_not_refused (s : State) (r : Refusal) : runStep s ≠ .refused r := by
  cases hp : s.pend with
  | true => rw [runStep_pend hp]; exact answerStep_not_refused s r
  | false =>
    by_cases hid : s.phase = .idle
    · rw [runStep_idle ⟨hid, hp⟩]; exact acceptStep_not_refused s r
    by_cases hfill : s.phase = .initFill
    · simp [runStep_fill hfill hp]
    · rw [runStep_issue ⟨hid, hfill⟩ hp]; exact issueStep_not_refused s r

/-- Rule R9, "and no other is": under a well-formed configuration no step refuses. -/
theorem step_not_refused {s : State} (hc : s.cfg.WellFormed) (r : Refusal) : step s ≠ .refused r := by
  cases hr : s.resetLine with
  | true => simp [step_reset hc hr]
  | false => rw [step_eq_runStep hc hr]; exact runStep_not_refused s r

/-! ## What a well-formed configuration bounds -/

/-- `W - 1`, `P - 1` and `H - 1` each fit one byte of a command (rules R9, R93, R94). -/
theorem geometry_fits_byte {c : Cfg} (h : c.WellFormed) : c.w - 1 < 256 ∧ c.pages - 1 < 256 ∧ c.h - 1 < 256 := by
  obtain ⟨-, hw, -, hh, -⟩ := h
  unfold Cfg.pages
  omega

/-- What the encoder calls a command is the byte list of rules R92, R94 and R95. -/
theorem encode_command {c : CmdEnc} {i : Instr} {bs : List Byte} (h : encode c i = .command bs) :
    bs = encodeCommand c i := by
  cases i <;> cases h <;> rfl

/-- `CMD_MAX` bounds the length of every controller command. -/
theorem encodeCommand_length_le (c : CmdEnc) (i : Instr) : (encodeCommand c i).length ≤ cmdMax := by
  cases i <;> simp [encodeCommand, cmdMax]

/-- Every command fits one block write (rule R9: `MAXBLK >= CMD_MAX`). -/
theorem command_fits_block {c : Cfg} (h : c.WellFormed) {i : Instr} {bs : List Byte}
    (he : encode c.cmdEnc i = .command bs) : bs.length ≤ c.maxBlk.toNat := by
  rw [encode_command he]
  exact (encodeCommand_length_le c.cmdEnc i).trans (maxBlk_ge h)

/-- Settles O14: an ill-formed configuration is refused before anything else is looked at, every outcome of a step under a
well-formed one comes from an operation that refuses nothing, and the bounds are those of rule R9. -/
theorem illFormedConfigurationIsRefused : Obligations.IllFormedConfigurationIsRefused := by
  intro s
  change (¬s.cfg.WellFormed → _) ∧ (s.cfg.WellFormed → _) ∧ (s.cfg.WellFormed → _)
  refine ⟨step_illFormed, step_not_refused, fun hc => ?_⟩
  obtain ⟨hw, hp, hh⟩ := geometry_fits_byte hc
  exact ⟨hw, hp, hh, fun _ _ he => command_fits_block hc he⟩

/-! ## The configuration is constant -/

/-- `t` has the configuration of `s`, and its transport reports what that of `s` does. -/
def SameConfig (s t : State) : Prop := t.cfg = s.cfg ∧ t.reportedMaxBlk = s.reportedMaxBlk

theorem SameConfig.trans {s t u : State} (h : SameConfig s t) (h' : SameConfig t u) : SameConfig s u :=
  ⟨h'.1.trans h.1, h'.2.trans h.2⟩

theorem raise_sameConfig (x : Exn) (s : State) : SameConfig s (raise x s) := ⟨raise_cfg s x, raise_reportedMaxBlk s x⟩

theorem respond_sameConfig (code : ResultCode) (v : Half) (s : State) : SameConfig s (respond code v s) :=
  ⟨respond_cfg s code v, respond_reportedMaxBlk s code v⟩

theorem latchWord_sameConfig (w : Word) (s : State) : SameConfig s (latchWord w s) := by
  unfold latchWord
  split <;> exact ⟨rfl, rfl⟩

theorem latched_sameConfig (i : Instr) (s : State) : SameConfig s (latched i s) := by
  cases i <;> exact ⟨rfl, rfl⟩

/-- A request leaves the configuration as it found it, whatever its outcome. -/
theorem requestOutcome_sameConfig {l t : State} (h : RequestOutcome l t) : SameConfig l t := by
  cases h with
  | raised x _ _ ht => rw [ht]; exact raise_sameConfig x l
  | completed v _ ht => rw [ht]; exact respond_sameConfig .ok v l
  | written a bs _ _ _ ht => rw [ht]; exact respond_sameConfig .ok 0 { l with fb := writeBytes l.fb a bs }
  | initStarted _ ht | singleStarted _ _ _ ht | scrollStarted _ _ ht | pushStarted _ _ ht => rw [ht]; exact ⟨rfl, rfl⟩

theorem exec_request_sameConfig {i : Instr} {s t : State} (hi : i.isCommand = false) (h : exec i s = .next t) :
    SameConfig s t := by
  obtain ⟨u, hu, ho⟩ := exec_request i s hi
  obtain rfl : u = t := by simpa [hu] using h
  exact (latched_sameConfig i s).trans (requestOutcome_sameConfig ho)

theorem AdvanceOutcome.sameConfig {s t : State} (h : AdvanceOutcome s t) : SameConfig s t := by
  cases h with
  | initCommand _ ht | columnWindow _ ht | pageWindow _ ht | chunk _ _ ht | scrollConfigured _ ht =>
    rw [ht]; exact ⟨rfl, rfl⟩
  | lastChunk _ _ ht =>
    rw [ht]; exact respond_sameConfig .ok 0 { s with ofs := s.ofs + BitVec.ofNat 16 (chunkLen s) }
  | lastCommand _ ht => rw [ht]; exact respond_sameConfig .ok 0 s

theorem advance_sameConfig {s t : State} (h : advance s = .next t) : SameConfig s t := by
  obtain ⟨hf, -⟩ | ⟨u, hu, ho⟩ := advance_cases s
  · simp [hf] at h
  · obtain rfl : u = t := by simpa [hu] using h
    exact ho.sameConfig

theorem fillStep_sameConfig (s : State) : SameConfig s (fillStep s) := by
  cases fillStep_cases s with
  | cleared _ ht | allocatedZero _ _ _ ht | allocatedAny _ _ _ ht => rw [ht]; exact ⟨rfl, rfl⟩
  | failed _ _ ht => rw [ht]; exact raise_sameConfig .allocFail s

/-- No step but a reset changes the configuration or what the transport reports: each kind of step in turn. -/
theorem step_sameConfig {s t : State} (h : step s = .next t) (hr : s.resetLine = false) : SameConfig s t := by
  obtain ⟨-, ⟨hr', -⟩ | ⟨-, -, rest, -, hadv⟩ | ⟨-, -, e, rest, -, rfl⟩ | ⟨-, -, -, rfl⟩ |
    ⟨-, -, w, pay, rest, i, -, hd, hex⟩ | ⟨-, -, w, pay, rest, -, -, -, rfl⟩ | ⟨-, -, -, rfl⟩ |
    ⟨-, -, -, tx, -, rfl⟩⟩ := step_cases h
  · simp [hr] at hr'
  · exact (advance_sameConfig hadv :)
  · exact raise_sameConfig _ { s with answers := rest, trace := answerLatest (.fail e) s.trace }
  · exact ⟨rfl, rfl⟩
  · exact (exec_request_sameConfig (decodeRequest_notCommand hd) hex :)
  · exact (latchWord_sameConfig w { s with requests := rest }).trans (requestOutcome_sameConfig (refuseWord_cases w _))
  · exact fillStep_sameConfig s
  · exact ⟨rfl, rfl⟩

/-- A step with the reset event due is the reset. -/
theorem step_reset_eq {s t : State} (h : step s = .next t) (hr : s.resetLine = true) : t = applyReset s := by
  obtain ⟨hc, -⟩ := step_cases h
  simpa [step_reset hc hr] using h.symm

/-- Settles O45: a reset samples `MAXBLK`, and every other step keeps the whole configuration. -/
theorem configurationIsConstant : Obligations.ConfigurationIsConstant := by
  intro s t h
  cases hr : s.resetLine with
  | true =>
    rw [step_reset_eq h hr]
    exact ⟨applyReset_cfg s, applyReset_reportedMaxBlk s⟩
  | false => exact step_sameConfig h hr

end Sys2Proof.Proofs

/-! # State (`10_state.md`): the invariant, the registers, and what each step leaves unchanged -/

namespace Sys2Proof.Proofs

open Sys2Proof.Machine Sys2Proof.Laws

/-! ## Latching the operands -/

/-- `f` writes the four latches, an 8-bit session in `x[0]`, and clears `NTX` (rule R76), and changes nothing else. -/
def Latches (f : State → State) : Prop :=
  ∃ a b c d : Half, a.toNat < 256 ∧ ∀ s, f s = { s with x0 := a, x1 := b, x2 := c, x3 := d, ntx := 0 }

theorem latchG_latches (sid : Byte) (arg : Half) : Latches (latchG sid arg) :=
  ⟨sid.setWidth 16, arg, 0, 0, by have := sid.isLt; simp; omega, fun _ => rfl⟩

theorem latchP_latches (mode : BitVec 2) (x y : BitVec 12) : Latches (latchP mode x y) :=
  ⟨0, x.setWidth 16, y.setWidth 16, mode.setWidth 16, by decide, fun _ => rfl⟩

theorem latchWord_latches (w : Word) : Latches (latchWord w) := by
  by_cases h : wordOpc w = 0x5
  · rw [show latchWord w = latchP (wordMode w) (wordX w) (wordY w) from funext fun _ => if_pos h]
    exact latchP_latches _ _ _
  · rw [show latchWord w = latchG (wordSid w) (wordArg w) from funext fun _ => if_neg h]
    exact latchG_latches _ _

theorem latched_latches {i : Instr} (h : i.isCommand = false) : Latches (latched i) := by
  cases i with
  | plot mode x y => exact latchP_latches mode x y
  | init sid | push sid => exact latchG_latches sid 0
  | awake sid on => exact latchG_latches sid (if on then 1 else 0)
  | scroll sid dir => exact latchG_latches sid dir
  | wrcmd sid pay => exact latchG_latches sid (payloadLen pay)
  | load pay => exact latchG_latches 0 (payloadLen pay)
  | loadrom a | rdfb a => exact latchG_latches 0 a
  | clear => exact latchG_latches 0 0
  | rdreg reg => exact latchG_latches 0 (reg.setWidth 16)
  | reserved0 x | reservedC x | reservedD x | reservedE x | reservedF x =>
    exact latchG_latches (x.extractLsb' 16 8) (x.extractLsb' 0 16)
  | _ => cases h

/-! ## The kinds of a step without reset -/

/-- The answer `ok` is taken: `PEND`, `NTX` and the trace (rule R114), before the advance of the phase. -/
def okTaken (rest : List Answer) (s : State) : State :=
  { s with answers := rest, trace := answerLatest .ok s.trace, pend := false, ntx := s.ntx + 1 }

/-- The answer `fail(e)` is taken, before the exception (rule R115). -/
def failTaken (e : Half) (rest : List Answer) (s : State) : State :=
  { s with answers := rest, trace := answerLatest (.fail e) s.trace }

/-- What a step without reset can be, each with all that it can do. -/
inductive StepKind (s t : State) : Prop where
  | answeredOk (rest : List Answer) (hp : s.pend = true) (ha : s.answers = .ok :: rest)
      (ho : AdvanceOutcome (okTaken rest s) t)
  | answeredFail (e : Half) (rest : List Answer) (hp : s.pend = true) (ha : s.answers = .fail e :: rest)
      (ht : t = raise (.transportFail e) (failTaken e rest s))
  | waited (hi : Idle s) (ht : t = s)
  | executed (w : Word) (pay rest : List Word) (i : Instr) (hi : Idle s)
      (hf : fetchRequest s.requests = some (w, pay, rest)) (hd : decodeRequest w pay = .ok i)
      (hx : exec i { s with requests := rest } = .next t)
      (ho : RequestOutcome (latched i { s with requests := rest }) t)
  | refused (w : Word) (rest : List Word) (hi : Idle s) (ht : t = refuseWord w { s with requests := rest })
  | filled (hp : s.pend = false) (hph : s.phase = .initFill) (ho : FillOutcome s t)
  | issued (tx : Tx) (hp : s.pend = false) (hph : Issuing s.phase) (ht : t = issue tx s)

theorem exec_requestOutcome {i : Instr} {s t : State} (hi : i.isCommand = false) (h : exec i s = .next t) :
    RequestOutcome (latched i s) t := by
  obtain ⟨u, hu, ho⟩ := exec_request i s hi
  obtain rfl : u = t := by simpa [hu] using h
  exact ho

theorem advance_outcome {s t : State} (h : advance s = .next t) : AdvanceOutcome s t := by
  obtain ⟨hf, -⟩ | ⟨u, hu, ho⟩ := advance_cases s
  · simp [hf] at h
  · obtain rfl : u = t := by simpa [hu] using h
    exact ho

/-- The inversion of a step without reset, with the outcome of each operation. -/
theorem step_kind {s t : State} (h : step s = .next t) (hr : s.resetLine = false) : StepKind s t := by
  obtain ⟨-, ⟨hr', -⟩ | ⟨-, hp, rest, ha, hadv⟩ | ⟨-, hp, e, rest, ha, ht⟩ | ⟨-, hi, -, ht⟩ |
    ⟨-, hi, w, pay, rest, i, hf, hd, hx⟩ | ⟨-, hi, w, pay, rest, r, -, -, ht⟩ | ⟨-, hp, hph, ht⟩ |
    ⟨-, hp, hph, tx, -, ht⟩⟩ := step_cases h
  · simp [hr] at hr'
  · exact .answeredOk rest hp ha (advance_outcome hadv)
  · exact .answeredFail e rest hp ha ht
  · exact .waited hi ht
  · exact .executed w pay rest i hi hf hd hx (exec_requestOutcome (decodeRequest_notCommand hd) hx)
  · exact .refused w rest hi ht
  · exact .filled hp hph (ht ▸ fillStep_cases s)
  · exact .issued tx hp hph ht

/-! ## The invariant in parts -/

/-- The registers are in range: the items of the invariant that depend on no phase, flag or transaction. -/
structure InRange (s : State) : Prop where
  cfgWf : s.cfg.WellFormed
  reportedOk : cmdMax ≤ s.reportedMaxBlk.toNat
  idxLe : s.idx.toNat ≤ 17
  ofsLe : s.ofs.toNat ≤ s.cfg.fbSize
  sidByte : s.x0.toNat < 256
  fbWf : Memory.wf s.fb
  fbRange : ∀ e ∈ s.fb, e.1 < s.cfg.fbSize

/-- The registers are set up for what the phase does next (rules R37 (5), R37 (8), R119 and R165). -/
structure PhaseSetUp (s : State) : Prop where
  idxCmd : s.phase = .initCmd → s.idx.toNat ≤ 16
  ofsStream : s.phase = .stream → s.ofs.toNat < s.cfg.fbSize
  allocPhase : s.phase = .winCol ∨ s.phase = .winPage ∨ s.phase = .stream → s.fbAlloc = true
  clenPos : s.phase = .scrollCfg ∨ s.phase = .single → 1 ≤ s.clen.toNat

theorem inv_inRange {s : State} (h : Inv s) : InRange s :=
  ⟨h.cfgWf, h.reportedOk, h.idxLe, h.ofsLe, h.sidByte, h.fbWf, h.fbRange⟩

theorem inv_not_halted {s : State} (h : Inv s) (hp : s.phase ≠ .idle) : s.halt = false :=
  Bool.eq_false_iff.2 fun hh => hp (h.haltIdle hh).1

/-- The invariant of a state with no transaction in flight. -/
theorem inv_of_settled {s : State} (hr : InRange s) (hs : PhaseSetUp s) (hh : s.halt = true → s.phase = .idle)
    (hp : s.pend = false) (ht : AllAnswered s.trace) : Inv s where
  cfgWf := hr.cfgWf
  reportedOk := hr.reportedOk
  idxLe := hr.idxLe
  idxCmd := hs.idxCmd
  ofsLe := hr.ofsLe
  ofsStream := hs.ofsStream
  pendPhase := by simp [hp]
  allocPhase := hs.allocPhase
  haltIdle h := ⟨hh h, hp⟩
  clenPos := hs.clenPos
  sidByte := hr.sidByte
  fbWf := hr.fbWf
  fbRange := hr.fbRange
  inFlight := by simp [hp]
  settled _ := ht

theorem inv_of_idle {s : State} (hr : InRange s) (hi : Idle s) (ht : AllAnswered s.trace) : Inv s :=
  inv_of_settled hr ⟨by simp [hi.1], by simp [hi.1], by simp [hi.1], by simp [hi.1]⟩ (fun _ => hi.1) hi.2 ht

/-- The invariant of a state in which the sequencer is about to go on. -/
theorem inv_of_running {s : State} (hr : InRange s) (hs : PhaseSetUp s) (hh : s.halt = false) (hp : s.pend = false)
    (ht : AllAnswered s.trace) : Inv s :=
  inv_of_settled hr hs (by simp [hh]) hp ht

/-- The ranges speak of six fields; those that an update leaves alone need no argument. -/
theorem InRange.of_same {s t : State} (h : InRange s) (hc : t.cfg = s.cfg := by rfl)
    (hm : t.reportedMaxBlk = s.reportedMaxBlk := by rfl) (hi : t.idx = s.idx := by rfl) (ho : t.ofs = s.ofs := by rfl)
    (hx : t.x0 = s.x0 := by rfl) (hf : t.fb = s.fb := by rfl) : InRange t := by
  constructor
  all_goals simp only [hc, hm, hi, ho, hx, hf]
  exacts [h.cfgWf, h.reportedOk, h.idxLe, h.ofsLe, h.sidByte, h.fbWf, h.fbRange]

theorem raise_inRange {s : State} (h : InRange s) (x : Exn) : InRange (raise x s) :=
  h.of_same (raise_cfg s x) (raise_reportedMaxBlk s x) (raise_idx s x) (raise_ofs s x) (raise_x0 s x) (raise_fb s x)

/-- Writing bytes inside the framebuffer keeps its canonical form and its range. -/
theorem writeBytes_inRange {s : State} (h : InRange s) {a : Nat} {bs : List Byte} (hb : a + bs.length ≤ s.cfg.fbSize) :
    InRange { s with fb := writeBytes s.fb a bs } :=
  ⟨h.cfgWf, h.reportedOk, h.idxLe, h.ofsLe, h.sidByte, writeBytes_wf _ _ _ h.fbWf,
    writeBytes_range _ _ _ _ h.fbRange hb⟩

theorem Latches.inRange {f : State → State} (hf : Latches f) {s : State} (h : InRange s) : InRange (f s) := by
  obtain ⟨a, b, c, d, ha, heq⟩ := hf
  rw [heq]
  exact ⟨h.cfgWf, h.reportedOk, h.idxLe, h.ofsLe, ha, h.fbWf, h.fbRange⟩

/-! ## Every operation keeps the invariant -/

/-- The end of a request by an exception leaves the block idle, with the invariant. -/
theorem raise_inv {s : State} (h : InRange s) (ht : AllAnswered s.trace) (x : Exn) : Inv (raise x s) :=
  inv_of_idle (raise_inRange h x) ⟨raise_phase s x, raise_pend s x⟩ (by rwa [raise_trace])

theorem respond_inv {s : State} (h : InRange s) (ht : AllAnswered s.trace) (code : ResultCode) (v : Half) :
    Inv (respond code v s) :=
  inv_of_idle h.of_same ⟨rfl, rfl⟩ ht

/-- A request meets the invariant at once where it completes, and in its first phase where it goes on. -/
theorem requestOutcome_inv {l t : State} (h : RequestOutcome l t) (hr : InRange l) (hp : l.pend = false)
    (ht : AllAnswered l.trace) : Inv t := by
  cases h with
  | raised x _ _ he => rw [he]; exact raise_inv hr ht x
  | completed v _ he => rw [he]; exact respond_inv hr ht .ok v
  | written a bs _ _ hb he => rw [he]; exact respond_inv (writeBytes_inRange hr (hb hr.cfgWf)) ht .ok 0
  | initStarted hh he =>
    rw [he]
    exact inv_of_running ⟨hr.cfgWf, hr.reportedOk, by simp, hr.ofsLe, hr.sidByte, hr.fbWf, hr.fbRange⟩
      ⟨by simp, by simp, by simp, by simp⟩ hh hp ht
  | singleStarted bs hh hb he =>
    rw [he]
    refine inv_of_running hr.of_same ⟨by simp, by simp, by simp, fun _ => ?_⟩ hh hp ht
    rw [startSingle_clen, BitVec.toNat_ofNat]
    omega
  | scrollStarted dir hh he =>
    rw [he]
    exact inv_of_running hr.of_same ⟨by simp, by simp, by simp, by simp⟩ hh hp ht
  | pushStarted hh ha he =>
    rw [he]
    exact inv_of_running hr.of_same ⟨by simp, by simp, fun _ => ha, by simp⟩ hh hp ht

/-- The acceptance of a request, executed or refused: latching keeps what `requestOutcome_inv` asks for. -/
theorem accepted_inv {s t : State} {f : State → State} (hI : Inv s) (hi : Idle s) (rest : List Word) (hf : Latches f)
    (ho : RequestOutcome (f { s with requests := rest }) t) : Inv t := by
  have hr := hf.inRange (s := { s with requests := rest }) (inv_inRange hI).of_same
  obtain ⟨a, b, c, d, -, heq⟩ := hf
  refine requestOutcome_inv ho hr ?_ ?_ <;> rw [heq]
  exacts [hi.2, hI.settled hi.2]

/-- An answer settles the transaction in flight. -/
theorem answerLatest_allAnswered {s : State} (hI : Inv s) (hp : s.pend = true) (a : Answer) :
    AllAnswered (answerLatest a s.trace) := by
  obtain ⟨done, tx, htr, hd⟩ := hI.inFlight hp
  rw [htr, answerLatest_append]
  simpa [AllAnswered, or_imp, forall_and] using hd

theorem okTaken_inv {s : State} (hI : Inv s) (hp : s.pend = true) (rest : List Answer) : Inv (okTaken rest s) :=
  inv_of_running (inv_inRange hI).of_same ⟨hI.idxCmd, hI.ofsStream, hI.allocPhase, hI.clenPos⟩
    (inv_not_halted hI (hI.pendPhase hp).1 :) rfl (answerLatest_allAnswered hI hp .ok)

/-- `OFS` never passes the end of the framebuffer while it advances by a chunk (rule R37 (2)). -/
theorem chunk_inRange {s : State} (hr : InRange s) : InRange { s with ofs := s.ofs + BitVec.ofNat 16 (chunkLen s) } :=
  have hle : chunkLen s ≤ s.cfg.fbSize - s.ofs.toNat := Nat.min_le_right _ _
  have hofs := hr.ofsLe
  ⟨hr.cfgWf, hr.reportedOk, hr.idxLe, by rw [ofs_add hr.cfgWf hofs]; simp only; omega, hr.sidByte, hr.fbWf, hr.fbRange⟩

theorem AdvanceOutcome.inv {s t : State} (h : AdvanceOutcome s t) (hI : Inv s) (hp : s.pend = false) : Inv t := by
  have hr := inv_inRange hI
  have ht := hI.settled hp
  have hh : s.phase ≠ .idle → s.halt = false := inv_not_halted hI
  cases h with
  | initCommand hph he =>
    have hle := hI.idxCmd hph
    have hadd : (s.idx + 1).toNat = s.idx.toNat + 1 := by rw [BitVec.toNat_add]; simp; omega
    rw [he]
    refine inv_of_running ⟨hr.cfgWf, hr.reportedOk, by rw [hadd]; omega, hr.ofsLe, hr.sidByte, hr.fbWf, hr.fbRange⟩
      ⟨fun hc => ?_, ?_, ?_, ?_⟩ (hh (by simp [hph])) hp ht
    · have hne : s.idx + 1 ≠ 17 := fun h17 => by simp only [if_pos h17] at hc; cases hc
      have : (s.idx + 1).toNat ≠ 17 := fun h17 => hne (BitVec.eq_of_toNat_eq h17)
      simp only [hadd] at this ⊢
      omega
    all_goals (simp only; split <;> simp)
  | columnWindow hph he =>
    rw [he]
    exact inv_of_running hr.of_same ⟨by simp, by simp, fun _ => hI.allocPhase (.inl hph), by simp⟩
      (hh (by simp [hph])) hp ht
  | pageWindow hph he =>
    rw [he]
    exact inv_of_running ⟨hr.cfgWf, hr.reportedOk, hr.idxLe, by simp, hr.sidByte, hr.fbWf, hr.fbRange⟩
      ⟨by simp, fun _ => by simpa using fbSize_pos hr.cfgWf, fun _ => hI.allocPhase (.inr (.inl hph)), by simp⟩
      (hh (by simp [hph])) hp ht
  | chunk hph hne he =>
    have hr' := chunk_inRange hr
    rw [he]
    exact inv_of_running hr' ⟨by simp [hph], fun _ => lt_of_le_of_ne hr'.ofsLe hne,
      fun _ => hI.allocPhase (.inr (.inr hph)), by simp [hph]⟩ (hh (by simp [hph])) hp ht
  | lastChunk hph _ he => rw [he]; exact respond_inv (chunk_inRange hr) ht .ok 0
  | scrollConfigured hph he =>
    rw [he]
    exact inv_of_running hr.of_same ⟨by simp, by simp, by simp, by simp⟩ (hh (by simp [hph])) hp ht
  | lastCommand _ he => rw [he]; exact respond_inv hr ht .ok 0

theorem FillOutcome.inv {s t : State} (h : FillOutcome s t) (hI : Inv s) (hph : s.phase = .initFill)
    (hp : s.pend = false) : Inv t := by
  have hr := inv_inRange hI
  have ht := hI.settled hp
  have hh : s.halt = false := inv_not_halted hI (by simp [hph])
  have hfill : ∀ {bs : List Byte}, bs.length = s.cfg.fbSize → InRange { s with fb := writeBytes s.fb 0 bs } :=
    fun hb => writeBytes_inRange hr (by omega)
  cases h with
  | cleared ha he =>
    rw [he]
    exact inv_of_running (hfill (zeroBytes_length s.cfg)).of_same ⟨by simp, by simp, fun _ => ha, by simp⟩ hh hp ht
  | allocatedZero _ _ _ he =>
    rw [he]
    exact inv_of_running (hfill (zeroBytes_length s.cfg)).of_same ⟨by simp, by simp, fun _ => rfl, by simp⟩ hh hp ht
  | allocatedAny _ _ _ he =>
    rw [he]
    exact inv_of_running (hfill (freeBytes_length s.cfg s.draws)).of_same ⟨by simp, by simp, fun _ => rfl, by simp⟩
      hh hp ht
  | failed _ _ he => rw [he]; exact raise_inv hr ht .allocFail

theorem issue_inv {s : State} (hI : Inv s) (hp : s.pend = false) (hph : Issuing s.phase) (tx : Tx) :
    Inv (issue tx s) where
  cfgWf := hI.cfgWf
  reportedOk := hI.reportedOk
  idxLe := hI.idxLe
  idxCmd := hI.idxCmd
  ofsLe := hI.ofsLe
  ofsStream := hI.ofsStream
  pendPhase _ := hph
  allocPhase := hI.allocPhase
  haltIdle := by simp [inv_not_halted hI hph.1]
  clenPos := hI.clenPos
  sidByte := hI.sidByte
  fbWf := hI.fbWf
  fbRange := hI.fbRange
  inFlight _ := ⟨s.trace, tx, rfl, hI.settled hp⟩
  settled := by simp

/-- A state after reset, whatever is presented and however many framebuffers were drawn before. -/
theorem resetWith_inv {c : Cfg} (hc : c.WellFormed) (rq : List Word) (an : List Answer) (d : Nat) :
    Inv { State.resetWith c with requests := rq, answers := an, draws := d } :=
  inv_of_idle ⟨hc, maxBlk_ge hc, by simp [State.resetWith], by simp [State.resetWith], by simp [State.resetWith],
    reset_memory_wf c, by simp [State.resetWith]⟩ ⟨rfl, rfl⟩ (by simp [AllAnswered, State.resetWith])

theorem applyReset_inv {s : State} (hc : s.cfg.WellFormed) (hm : cmdMax ≤ s.reportedMaxBlk.toNat) :
    Inv (applyReset s) :=
  resetWith_inv (applyReset_wellFormed hc hm) s.requests s.answers s.draws

/-- Rule R37 as an induction step: each kind of step keeps the invariant. -/
theorem step_inv {s t : State} (hI : Inv s) (h : step s = .next t) : Inv t := by
  cases hr : s.resetLine with
  | true => rw [step_reset_eq h hr]; exact applyReset_inv hI.cfgWf hI.reportedOk
  | false =>
    cases step_kind h hr with
    | answeredOk rest hp _ ho => exact ho.inv (okTaken_inv hI hp rest) rfl
    | answeredFail e rest hp _ ht =>
      rw [ht]
      exact raise_inv (s := failTaken e rest s) (inv_inRange hI).of_same (answerLatest_allAnswered hI hp (.fail e)) _
    | waited _ ht => rw [ht]; exact hI
    | executed _ _ rest _ hi _ hd _ ho =>
      exact accepted_inv hI hi rest (latched_latches (decodeRequest_notCommand hd)) ho
    | refused w rest hi ht =>
      rw [ht]
      exact accepted_inv hI hi rest (latchWord_latches w) (refuseWord_cases w _)
    | filled hp hph ho => exact ho.inv hI hph hp
    | issued tx hp hph ht => rw [ht]; exact issue_inv hI hp hph tx

/-! ## What every step leaves of the flags, the error registers and the trace -/

/-- The trace and the error registers are as they were, and no flag of rule R37 has fallen. -/
structure KeepsRecords (s t : State) : Prop where
  trace : t.trace = s.trace
  errInfo : t.errInfo = s.errInfo
  errPos : t.errPos = s.errPos
  fbAlloc : s.fbAlloc = true → t.fbAlloc = true
  halt : s.halt = true → t.halt = true
  sticky : s.sticky = true → t.sticky = true

theorem KeepsRecords.refl (s : State) : KeepsRecords s s := ⟨rfl, rfl, rfl, id, id, id⟩

/-- An exception that records nothing, so one that is no transport failure. -/
theorem raise_keepsRecords {x : Exn} {s : State} (h : x.record s = s) : KeepsRecords s (raise x s) :=
  ⟨raise_trace s x, (congrArg State.errInfo h :), (congrArg State.errPos h :), by simp, by simp +contextual, by simp⟩

theorem KeepsRecords.respond {s t : State} (h : KeepsRecords s t) (code : ResultCode) (v : Half) :
    KeepsRecords s (respond code v t) :=
  ⟨h.trace, h.errInfo, h.errPos, h.fbAlloc, h.halt, fun hs => by simp [h.sticky hs]⟩

theorem requestOutcome_keepsRecords {l t : State} (h : RequestOutcome l t) : KeepsRecords l t := by
  cases h with
  | raised x hx _ ht => rw [ht]; exact raise_keepsRecords hx
  | completed v _ ht => rw [ht]; exact (KeepsRecords.refl l).respond .ok v
  | written a bs _ _ _ ht => rw [ht]; refine .respond ?_ .ok 0; exact ⟨rfl, rfl, rfl, id, id, id⟩
  | initStarted _ ht | singleStarted _ _ _ ht | scrollStarted _ _ ht | pushStarted _ _ ht =>
    rw [ht]; exact ⟨rfl, rfl, rfl, id, id, id⟩

theorem accepted_keepsRecords {s t : State} {f : State → State} {rest : List Word} (hf : Latches f)
    (ho : RequestOutcome (f { s with requests := rest }) t) : KeepsRecords s t := by
  obtain ⟨a, b, c, d, -, heq⟩ := hf
  rw [heq] at ho
  obtain ⟨h1, h2, h3, h4, h5, h6⟩ := requestOutcome_keepsRecords ho
  exact ⟨h1, h2, h3, h4, h5, h6⟩

theorem AdvanceOutcome.keepsRecords {s t : State} (h : AdvanceOutcome s t) : KeepsRecords s t := by
  cases h with
  | initCommand _ ht | columnWindow _ ht | pageWindow _ ht | chunk _ _ ht | scrollConfigured _ ht =>
    rw [ht]; exact ⟨rfl, rfl, rfl, id, id, id⟩
  | lastChunk _ _ ht | lastCommand _ ht => rw [ht]; refine .respond ?_ .ok 0; exact ⟨rfl, rfl, rfl, id, id, id⟩

theorem FillOutcome.keepsRecords {s t : State} (h : FillOutcome s t) : KeepsRecords s t := by
  cases h with
  | cleared _ ht => rw [ht]; exact ⟨rfl, rfl, rfl, id, id, id⟩
  | allocatedZero _ _ _ ht | allocatedAny _ _ _ ht => rw [ht]; exact ⟨rfl, rfl, rfl, fun _ => rfl, id, id⟩
  | failed _ _ ht => rw [ht]; exact raise_keepsRecords rfl

/-- What a step without reset does to the records: an answer enters the trace, with the advance or with the exception; a
transaction joins the trace; or nothing. -/
inductive RecordChange (s t : State) : Prop where
  | ok (rest : List Answer) (hp : s.pend = true) (ha : s.answers = .ok :: rest) (hk : KeepsRecords (okTaken rest s) t)
  | fail (e : Half) (rest : List Answer) (hp : s.pend = true) (ha : s.answers = .fail e :: rest)
      (ht : t = raise (.transportFail e) (failTaken e rest s))
  | issued (tx : Tx) (hp : s.pend = false) (ht : t = issue tx s)
  | kept (hp : s.pend = false) (hk : KeepsRecords s t)

theorem step_recordChange {s t : State} (h : step s = .next t) (hr : s.resetLine = false) : RecordChange s t := by
  cases step_kind h hr with
  | answeredOk rest hp ha ho => exact .ok rest hp ha ho.keepsRecords
  | answeredFail e rest hp ha ht => exact .fail e rest hp ha ht
  | waited hi ht => exact .kept hi.2 (ht ▸ .refl s)
  | executed _ _ _ _ hi _ hd _ ho =>
    exact .kept hi.2 (accepted_keepsRecords (latched_latches (decodeRequest_notCommand hd)) ho)
  | refused w _ hi ht => exact .kept hi.2 (accepted_keepsRecords (latchWord_latches w) (ht ▸ refuseWord_cases w _))
  | filled hp _ ho => exact .kept hp ho.keepsRecords
  | issued tx hp _ ht => exact .issued tx hp ht

/-- Rule R37: only a reset clears `FB_ALLOC`, `HALT` or `STICKY`. -/
theorem step_flags_rise {s t : State} (h : step s = .next t) (hr : s.resetLine = false) :
    (s.fbAlloc = true → t.fbAlloc = true) ∧ (s.halt = true → t.halt = true) ∧ (s.sticky = true → t.sticky = true) := by
  cases step_recordChange h hr with
  | ok _ _ _ hk => exact ⟨hk.fbAlloc, hk.halt, hk.sticky⟩
  | fail e rest _ _ ht => rw [ht]; exact ⟨id, by simp +contextual [failTaken], by simp⟩
  | issued tx _ ht => rw [ht]; exact ⟨id, id, id⟩
  | kept _ hk => exact ⟨hk.fbAlloc, hk.halt, hk.sticky⟩

theorem phase_code_le (p : Phase) : p.code.toNat ≤ 8 := by cases p <;> decide

/-- Settles O43: each kind of step keeps the invariant, and the flags fall only by a reset. -/
theorem stepKeepsInvariant : Obligations.StepKeepsInvariant :=
  fun _ t hI h => ⟨step_inv hI h, phase_code_le t.phase, step_flags_rise h⟩

/-- Settles O47: of the kinds of step only the answer `fail(e)` and the reset write the error registers. -/
theorem errorRegistersRecordTransportFailures : Obligations.ErrorRegistersRecordTransportFailures := by
  intro s t h
  refine ⟨fun hr => by rw [step_reset_eq h hr]; exact ⟨rfl, rfl⟩, fun hr => ?_⟩
  cases step_recordChange h hr with
  | ok rest _ ha hk => exact ⟨fun _ _ _ hf => by simp [ha] at hf, fun _ => ⟨hk.errInfo, hk.errPos⟩⟩
  | fail e rest hp ha ht =>
    refine ⟨fun e' _ _ hf => ?_, fun hno => absurd ⟨e, rest, hp, ha⟩ hno⟩
    obtain rfl : e = e' := by simpa using (List.cons.inj (ha.symm.trans hf)).1
    rw [ht]
    exact ⟨rfl, rfl⟩
  | issued tx hp ht => rw [ht]; exact ⟨fun _ _ hp' => by simp [hp] at hp', fun _ => ⟨rfl, rfl⟩⟩
  | kept hp hk => exact ⟨fun _ _ hp' => by simp [hp] at hp', fun _ => ⟨hk.errInfo, hk.errPos⟩⟩

theorem filter_unanswered_eq_nil {l : List BusEntry} (h : AllAnswered l) :
    l.filter (fun e => e.answer.isNone) = [] := by
  simpa using h

/-- Rules R29 and R64: under the invariant at most one transaction is outstanding. -/
theorem inv_outstanding_le_one {s : State} (hI : Inv s) : (s.trace.filter fun e => e.answer.isNone).length ≤ 1 := by
  cases hp : s.pend with
  | false => simp [filter_unanswered_eq_nil (hI.settled hp)]
  | true =>
    obtain ⟨done, tx, htr, hd⟩ := hI.inFlight hp
    simp [htr, filter_unanswered_eq_nil hd]

/-- Settles O48: an answer changes no transaction, an issue appends one to a settled trace, and the invariant after
the step bounds what is outstanding. -/
theorem transactionsAreTotallyOrdered : Obligations.TransactionsAreTotallyOrdered := by
  intro s t hI h hr
  refine ⟨?_, inv_outstanding_le_one (step_inv hI h)⟩
  cases step_recordChange h hr with
  | ok rest _ _ hk => exact .inl (by rw [hk.trace]; exact answerLatest_txs .ok s.trace)
  | fail e rest _ _ ht => exact .inl (by rw [ht, raise_trace]; exact answerLatest_txs (.fail e) s.trace)
  | issued tx hp ht => exact .inr ⟨tx, hp, hI.settled hp, by rw [ht]; rfl, by rw [ht]; rfl⟩
  | kept _ hk => exact .inl (by rw [hk.trace])

/-! ## What writes the framebuffer -/

/-- The four requests that write the framebuffer. -/
def FbWriter (i : Instr) : Prop :=
  (∃ m x y, i = .plot m x y) ∨ (∃ p, i = .load p) ∨ (∃ k, i = .loadrom k) ∨ i = .clear

theorem unlessHalted_fb {body : State → State} {l : State} (h : (body l).fb = l.fb) :
    (unlessHalted body l).fb = l.fb := by
  unfold unlessHalted
  split
  · exact raise_fb l .haltedRequest
  · exact h

theorem ifLegal_fb {ok : Bool} {body : State → State} {l : State} (h : (body l).fb = l.fb) :
    (ifLegal ok body l).fb = l.fb := by
  unfold ifLegal
  split
  · exact h
  · exact raise_fb l .illegalRequest

theorem withFramebuffer_fb {body : State → State} {l : State} (h : (body l).fb = l.fb) :
    (withFramebuffer body l).fb = l.fb := by
  unfold withFramebuffer
  split
  · exact h
  · exact raise_fb l .fbUnallocated

theorem startScroll_fb (dir : Half) (l : State) : (startScroll dir l).fb = l.fb := by
  unfold startScroll
  split
  · rfl
  split <;> rfl

theorem refuseWord_fb (w : Word) (s : State) : (refuseWord w s).fb = s.fb := by
  obtain ⟨a, b, c, d, -, heq⟩ := latchWord_latches w
  exact (unlessHalted_fb (raise_fb _ _)).trans (by rw [heq])

/-- A request that is none of the four leaves the framebuffer as it is. -/
theorem exec_fb {i : Instr} {s t : State} (hi : i.isCommand = false) (h : exec i s = .next t) :
    FbWriter i ∨ t.fb = s.fb := by
  suffices hs : ∃ u, exec i s = .next u ∧ (FbWriter i ∨ u.fb = s.fb) by
    obtain ⟨u, hu, hfb⟩ := hs
    obtain rfl : u = t := by simpa [hu] using h
    exact hfb
  cases i with
  | plot m x y => exact ⟨_, rfl, .inl (.inl ⟨m, x, y, rfl⟩)⟩
  | load pay => exact ⟨_, rfl, .inl (.inr (.inl ⟨pay, rfl⟩))⟩
  | loadrom k => exact ⟨_, rfl, .inl (.inr (.inr (.inl ⟨k, rfl⟩)))⟩
  | clear => exact ⟨_, rfl, .inl (.inr (.inr (.inr rfl)))⟩
  | init | awake => exact ⟨_, rfl, .inr (unlessHalted_fb rfl)⟩
  | scroll sid dir => exact ⟨_, rfl, .inr (unlessHalted_fb (startScroll_fb dir _))⟩
  | wrcmd => exact ⟨_, rfl, .inr (unlessHalted_fb (ifLegal_fb rfl))⟩
  | push => exact ⟨_, rfl, .inr (unlessHalted_fb (withFramebuffer_fb rfl))⟩
  | rdfb => exact ⟨_, rfl, .inr (unlessHalted_fb (ifLegal_fb (withFramebuffer_fb rfl)))⟩
  | rdreg => exact ⟨_, rfl, .inr (unlessHalted_fb rfl)⟩
  | reserved0 | reservedC | reservedD | reservedE | reservedF =>
    exact ⟨_, rfl, .inr (unlessHalted_fb (raise_fb _ _))⟩
  | _ => cases hi

/-- A request changes the framebuffer only where it is allocated and the block is not halted. -/
theorem requestOutcome_fb {l t : State} (h : RequestOutcome l t) :
    t.fb = l.fb ∨ (l.halt = false ∧ l.fbAlloc = true) := by
  cases h with
  | raised x _ _ ht => exact .inl (by rw [ht, raise_fb])
  | written _ _ hh ha _ _ => exact .inr ⟨hh, ha⟩
  | completed _ _ ht | initStarted _ ht | singleStarted _ _ _ ht | scrollStarted _ _ ht | pushStarted _ _ ht =>
    exact .inl (congrArg State.fb ht :)

theorem AdvanceOutcome.fb {s t : State} (h : AdvanceOutcome s t) : t.fb = s.fb := by
  cases h with
  | initCommand _ ht | columnWindow _ ht | pageWindow _ ht | chunk _ _ ht | lastChunk _ _ ht | scrollConfigured _ ht
  | lastCommand _ ht => exact (congrArg State.fb ht :)

/-- The port presents the request that the machine takes from it (rules R71 and R75). -/
theorem presents_iff_fetchRequest {s : State} {w : Word} {pay rest : List Word} :
    Presents s w pay rest ↔ fetchRequest s.requests = some (w, pay, rest) :=
  (fetchRequest_spec s.requests w pay rest).symm

/-- Settles O46: of the kinds of step only the fill step and the execution of one of the four requests write the
framebuffer, and the latter only past the gates of rule R207. -/
theorem framebufferWriters : Obligations.FramebufferWriters := by
  intro s t h hr hne
  cases step_kind h hr with
  | answeredOk _ _ _ ho => exact absurd ho.fb hne
  | answeredFail _ _ _ _ ht => exact absurd (by rw [ht, raise_fb]; rfl) hne
  | waited _ ht => exact absurd (congrArg State.fb ht) hne
  | executed w pay rest i hi hf hd hx ho =>
    have hc := decodeRequest_notCommand hd
    have hgates : s.halt = false ∧ s.fbAlloc = true := by
      obtain ⟨a, b, c, d, -, heq⟩ := latched_latches hc
      rw [heq] at ho
      exact (requestOutcome_fb ho).resolve_left hne
    exact ⟨hi.2, .inr ⟨⟨hi, hgates.1⟩, hgates.2, w, pay, rest, i, presents_iff_fetchRequest.2 hf, hd,
      (exec_fb hc hx).resolve_right hne⟩⟩
  | refused w _ _ ht => exact absurd (by rw [ht, refuseWord_fb]) hne
  | filled hp hph _ => exact ⟨hp, .inl hph⟩
  | issued _ _ _ ht => exact absurd (congrArg State.fb ht :) hne

/-! ## The command buffer -/

/-- Rule R112: loading up to seven bytes replaces the first bytes of the buffer and keeps the others. -/
theorem toList_load (b : CBuf) {bs : List Byte} (h : bs.length ≤ 7) :
    (b.load bs).toList = bs ++ b.toList.drop bs.length := by
  match bs, h with
  | [], _ | [_], _ | [_, _], _ | [_, _, _], _ | [_, _, _, _], _ | [_, _, _, _, _], _ | [_, _, _, _, _, _], _
  | [_, _, _, _, _, _, _], _ => rfl
  | _ :: _ :: _ :: _ :: _ :: _ :: _ :: _ :: _, h => simp at h; omega

/-- What the command buffer sends is what was loaded into it, unchanged (rules R112 and R128). -/
theorem txOf_startSingle (l : State) {bs : List Byte} (h : bs.length ≤ 7) :
    txOf (startSingle bs l) = some (cmdTx (sessionOf l) bs) := by
  have hlen : (BitVec.ofNat 3 bs.length).toNat = bs.length := by rw [BitVec.toNat_ofNat]; omega
  have hbuf : (l.cbuf.load bs).toList.take bs.length = bs := by rw [toList_load _ h, List.take_left]
  change some (cmdTx (sessionOf l) ((l.cbuf.load bs).toList.take (BitVec.ofNat 3 bs.length).toNat)) = _
  rw [hlen, hbuf]

/-! ## What a request depends on -/

/-- Two states agree in what rule R30 lets a request depend on, in the latches and in the phase. -/
structure Agree (s₁ s₂ : State) : Prop where
  cfg : s₁.cfg = s₂.cfg
  fb : s₁.fb = s₂.fb
  fbAlloc : s₁.fbAlloc = s₂.fbAlloc
  halt : s₁.halt = s₂.halt
  phase : s₁.phase = s₂.phase
  x0 : s₁.x0 = s₂.x0
  x1 : s₁.x1 = s₂.x1
  x2 : s₁.x2 = s₂.x2
  x3 : s₁.x3 = s₂.x3

/-- A request that leaves `t₁` and `t₂`, from states with the responses `r₁` and `r₂`, has been answered alike
in both. -/
structure AnsweredAlike (r₁ r₂ : List Word) (t₁ t₂ : State) : Prop where
  agree : Agree t₁ t₂
  responses : ∃ new, t₁.responses = r₁ ++ new ∧ t₂.responses = r₂ ++ new
  tx : txOf t₁ = txOf t₂

theorem respond_alike {s₁ s₂ : State} (h : Agree s₁ s₂) (code : ResultCode) (v : Half) :
    AnsweredAlike s₁.responses s₂.responses (respond code v s₁) (respond code v s₂) :=
  ⟨⟨h.cfg, h.fb, h.fbAlloc, h.halt, rfl, h.x0, h.x1, h.x2, h.x3⟩, ⟨[responseWord code v], rfl, rfl⟩, rfl⟩

theorem raise_alike {s₁ s₂ : State} (h : Agree s₁ s₂) (x : Exn) :
    AnsweredAlike s₁.responses s₂.responses (raise x s₁) (raise x s₂) where
  agree := by constructor <;> simp [h.cfg, h.fb, h.fbAlloc, h.halt, h.x0, h.x1, h.x2, h.x3]
  responses := ⟨[responseWord x.resultCode 0], raise_responses s₁ x, raise_responses s₂ x⟩
  tx := by simp [txOf]

section Gates

variable {l₁ l₂ : State} {body₁ body₂ : State → State}

/-- The gates of rule R207 look only at what the two states agree in. -/
theorem unlessHalted_alike (h : Agree l₁ l₂) (hb : AnsweredAlike l₁.responses l₂.responses (body₁ l₁) (body₂ l₂)) :
    AnsweredAlike l₁.responses l₂.responses (unlessHalted body₁ l₁) (unlessHalted body₂ l₂) := by
  unfold unlessHalted
  rw [h.halt]
  split
  · exact raise_alike h .haltedRequest
  · exact hb

theorem ifLegal_alike {ok₁ ok₂ : Bool} (hok : ok₁ = ok₂) (h : Agree l₁ l₂)
    (hb : ok₂ = true → AnsweredAlike l₁.responses l₂.responses (body₁ l₁) (body₂ l₂)) :
    AnsweredAlike l₁.responses l₂.responses (ifLegal ok₁ body₁ l₁) (ifLegal ok₂ body₂ l₂) := by
  unfold ifLegal
  rw [hok]
  split
  · exact hb ‹_›
  · exact raise_alike h .illegalRequest

theorem withFramebuffer_alike (h : Agree l₁ l₂)
    (hb : AnsweredAlike l₁.responses l₂.responses (body₁ l₁) (body₂ l₂)) :
    AnsweredAlike l₁.responses l₂.responses (withFramebuffer body₁ l₁) (withFramebuffer body₂ l₂) := by
  unfold withFramebuffer
  rw [h.fbAlloc]
  split
  · exact hb
  · exact raise_alike h .fbUnallocated

end Gates

/-! Each meaning's body, from two latched states that agree. -/

theorem startInit_alike {l₁ l₂ : State} (h : Agree l₁ l₂) :
    AnsweredAlike l₁.responses l₂.responses (startInit l₁) (startInit l₂) where
  agree := ⟨h.cfg, h.fb, h.fbAlloc, h.halt, rfl, h.x0, h.x1, h.x2, h.x3⟩
  responses := ⟨[], by simp⟩
  tx := by simp [txOf, h.cfg, h.x0]

theorem startSingle_alike {l₁ l₂ : State} (h : Agree l₁ l₂) {bs₁ bs₂ : List Byte} (hbs : bs₁ = bs₂)
    (hl : bs₂.length ≤ 7) :
    AnsweredAlike l₁.responses l₂.responses (startSingle bs₁ l₁) (startSingle bs₂ l₂) where
  agree := ⟨h.cfg, h.fb, h.fbAlloc, h.halt, rfl, h.x0, h.x1, h.x2, h.x3⟩
  responses := ⟨[], by simp⟩
  tx := by rw [hbs, txOf_startSingle l₁ hl, txOf_startSingle l₂ hl, sessionOf, sessionOf, h.x0]

theorem startScroll_alike {l₁ l₂ : State} (h : Agree l₁ l₂) (dir : Half) :
    AnsweredAlike l₁.responses l₂.responses (startScroll dir l₁) (startScroll dir l₂) := by
  unfold startScroll
  split
  · exact startSingle_alike h (by rw [h.cfg]) (by simp)
  split
  · exact ⟨⟨h.cfg, h.fb, h.fbAlloc, h.halt, rfl, h.x0, h.x1, h.x2, h.x3⟩, ⟨[], by simp⟩,
      by simp [txOf, CBuf.load, scrollConfig, h.cfg, h.x0]⟩
  · exact respond_alike h .ok 0

theorem plotBody_alike {l₁ l₂ : State} (h : Agree l₁ l₂) (mode : BitVec 2) (x y : Nat) :
    AnsweredAlike l₁.responses l₂.responses (plotBody mode x y l₁) (plotBody mode x y l₂) := by
  have hplot : Agree (plotPixel mode x y l₁) (plotPixel mode x y l₂) :=
    ⟨h.cfg, by simp only [plotPixel, h.cfg, h.fb], h.fbAlloc, h.halt, h.phase, h.x0, h.x1, h.x2, h.x3⟩
  unfold plotBody
  rw [h.cfg]
  split
  · exact respond_alike h .ok 0
  · exact withFramebuffer_alike h (respond_alike hplot .ok 0)

theorem overwrite_alike {l₁ l₂ : State} (h : Agree l₁ l₂) {bs₁ bs₂ : List Byte} (hbs : bs₁ = bs₂) :
    AnsweredAlike l₁.responses l₂.responses (respond .ok 0 (overwriteFb bs₁ l₁)) (respond .ok 0 (overwriteFb bs₂ l₂)) :=
  respond_alike (s₁ := overwriteFb bs₁ l₁) (s₂ := overwriteFb bs₂ l₂)
    ⟨h.cfg, by rw [overwriteFb_fb, overwriteFb_fb, h.fb, hbs], h.fbAlloc, h.halt, h.phase, h.x0, h.x1, h.x2, h.x3⟩ .ok 0

theorem loadBody_alike {l₁ l₂ : State} (h : Agree l₁ l₂) (pay : List Byte) :
    AnsweredAlike l₁.responses l₂.responses (loadBody pay l₁) (loadBody pay l₂) := by
  unfold loadBody
  rw [h.cfg]
  split
  · exact raise_alike h .lengthMismatch
  · exact withFramebuffer_alike h (overwrite_alike h rfl)

theorem startPush_alike {l₁ l₂ : State} (h : Agree l₁ l₂) :
    AnsweredAlike l₁.responses l₂.responses { l₁ with phase := .winCol } { l₂ with phase := .winCol } where
  agree := ⟨h.cfg, h.fb, h.fbAlloc, h.halt, rfl, h.x0, h.x1, h.x2, h.x3⟩
  responses := ⟨[], by simp⟩
  tx := by simp [txOf, h.cfg, h.x0]

theorem latched_agree {s₁ s₂ : State} {i : Instr} (hi : i.isCommand = false) (hc : s₁.cfg = s₂.cfg)
    (hf : s₁.fb = s₂.fb) (ha : s₁.fbAlloc = s₂.fbAlloc) (hh : s₁.halt = s₂.halt) (hp : s₁.phase = s₂.phase) :
    Agree (latched i s₁) (latched i s₂) := by
  obtain ⟨a, b, c, d, -, heq⟩ := latched_latches hi
  rw [heq, heq]
  exact ⟨hc, hf, ha, hh, hp, rfl, rfl, rfl, rfl⟩

theorem latched_responses {i : Instr} (hi : i.isCommand = false) (s : State) :
    (latched i s).responses = s.responses := by
  obtain ⟨a, b, c, d, -, heq⟩ := latched_latches hi
  rw [heq]

/-- From latched states that agree, every request but `RDREG` is answered alike. -/
theorem exec_alike {s₁ s₂ : State} {i : Instr} (hi : i.isCommand = false) (hreg : ∀ r, i ≠ .rdreg r)
    (hc : s₁.cfg = s₂.cfg) (h : Agree (latched i s₁) (latched i s₂)) :
    ∃ t₁ t₂, exec i s₁ = .next t₁ ∧ exec i s₂ = .next t₂ ∧
      AnsweredAlike (latched i s₁).responses (latched i s₂).responses t₁ t₂ := by
  cases i with
  | init sid => exact ⟨_, _, rfl, rfl, unlessHalted_alike h (startInit_alike h)⟩
  | awake sid on =>
    exact ⟨_, _, rfl, rfl, unlessHalted_alike h (startSingle_alike h (by rw [hc]) (by simp))⟩
  | scroll sid dir => exact ⟨_, _, rfl, rfl, unlessHalted_alike h (startScroll_alike h dir)⟩
  | wrcmd sid pay =>
    exact ⟨_, _, rfl, rfl, unlessHalted_alike h (ifLegal_alike rfl h fun hl =>
      startSingle_alike h rfl (of_decide_eq_true hl).2)⟩
  | plot mode x y => exact ⟨_, _, rfl, rfl, unlessHalted_alike h (ifLegal_alike rfl h fun _ => plotBody_alike h _ _ _)⟩
  | load pay => exact ⟨_, _, rfl, rfl, unlessHalted_alike h (loadBody_alike h pay)⟩
  | loadrom k =>
    exact ⟨_, _, rfl, rfl, unlessHalted_alike h (ifLegal_alike (by rw [hc]) h fun _ =>
      withFramebuffer_alike h (overwrite_alike h (by rw [h.cfg])))⟩
  | clear =>
    exact ⟨_, _, rfl, rfl, unlessHalted_alike h (withFramebuffer_alike h (overwrite_alike h (by rw [h.cfg])))⟩
  | push sid => exact ⟨_, _, rfl, rfl, unlessHalted_alike h (withFramebuffer_alike h (startPush_alike h))⟩
  | rdfb ofs =>
    refine ⟨_, _, rfl, rfl, unlessHalted_alike h (ifLegal_alike (by rw [hc]) h fun _ =>
      withFramebuffer_alike h ?_)⟩
    rw [h.fb]
    exact respond_alike h .ok _
  | rdreg reg => exact absurd rfl (hreg reg)
  | reserved0 x | reservedC x | reservedD x | reservedE x | reservedF x =>
    exact ⟨_, _, rfl, rfl, unlessHalted_alike h (raise_alike h .illegalRequest)⟩
  | _ => cases hi

/-- Settles O50: the latches depend on the request alone, and from latched states that agree every gate and every
meaning goes the same way. -/
theorem requestsDependOnFramebufferAndHaltAlone : Obligations.RequestsDependOnFramebufferAndHaltAlone := by
  intro s₁ s₂ i h₁ h₂ hi hreg hc hf ha hh
  obtain ⟨t₁, t₂, ht₁, ht₂, hag, ⟨new, hr₁, hr₂⟩, htx⟩ :=
    exec_alike hi hreg hc (latched_agree hi hc hf ha hh (h₁.1.trans h₂.1.symm))
  rw [latched_responses hi] at hr₁ hr₂
  exact ⟨t₁, t₂, new, ht₁, ht₂, hr₁, hr₂, hag.fb, hag.fbAlloc, hag.halt, hag.phase,
    by rw [hag.x0, hag.x1, hag.x2, hag.x3], htx⟩

/-! ## The step of the sequencer -/

/-- The step of a phase whose next transaction is a controller command is the meaning of that command. -/
theorem step_sequenced {s : State} {i : Instr} (hR : Runs s) (hp : s.pend = false) (hph : Issuing s.phase)
    (hn : nextIssue s = .command i) : step s = exec i s := by
  rw [step_eq_runStep hR.1 hR.2, runStep_issue hph hp]
  simp only [issueStep, hn]

/-- Settles O7: in each phase the next transaction is the command named. -/
theorem stepRunsSequencedCommand : Obligations.StepRunsSequencedCommand := by
  intro s hR hp
  have hstep : ∀ {p : Phase} {i : Instr}, s.phase = p → Issuing p → nextIssue s = .command i → step s = exec i s :=
    fun hph hissue => step_sequenced hR hp (hph ▸ hissue)
  refine ⟨fun i hph hseq => hstep hph (by simp [Issuing]) ?_, fun hph => hstep hph (by simp [Issuing]) ?_,
    fun hph => hstep hph (by simp [Issuing]) ?_, fun hph => hstep hph (by simp [Issuing]) ?_,
    fun i hph hdec => hstep hph (by simp [Issuing]) ?_, fun i hph hlen hdec => hstep hph (by simp [Issuing]) ?_⟩
  · simp only [nextIssue, hph, hseq]
  · simp only [nextIssue, hph, columnWindow]
  · simp only [nextIssue, hph, pageWindow]
  · simp only [nextIssue, hph]
  · simp only [nextIssue, hph, bufferedCommand, hdec]
  · simp only [nextIssue, hph, if_neg hlen, bufferedCommand, hdec]

/-! ## Reading the registers -/

theorem unlessHalted_of_running (body : State → State) {l : State} (h : l.halt = false) :
    unlessHalted body l = body l := by
  simp [unlessHalted, h]

/-- Rule R80: the response word of `E_OK` is its value. -/
theorem responseWord_ok (v : Half) : responseWord .ok v = v.setWidth 32 := by
  refine BitVec.eq_of_getLsbD_eq fun i hi => ?_
  simp only [responseWord, ResultCode.bits, BitVec.getLsbD_append, BitVec.getLsbD_setWidth, hi]
  by_cases h : i < 16
  · simp [h]
  · simp [h, BitVec.getLsbD_of_ge v i (Nat.le_of_not_lt h)]

/-- Rule R205: the completion with `E_OK` of a request that was accepted and done in one step. -/
theorem respond_ok_of_idle {s : State} (h : Idle s) (v : Half) :
    respond .ok v s = { s with last := .ok, responses := s.responses ++ [v.setWidth 32] } := by
  obtain ⟨hph, hp⟩ := h
  simp [respond, recordCode, responseWord_ok, ← hph, ← hp]

theorem exec_rdreg {s : State} (h : Ready s) (reg : BitVec 3) :
    exec (.rdreg reg) s =
      .next { s with x0 := 0, x1 := reg.setWidth 16, x2 := 0, x3 := 0, ntx := 0, last := .ok,
                     responses := s.responses ++ [(registerValue reg s).setWidth 32] } := by
  change Host.Outcome.next (unlessHalted _ (latchG 0 (reg.setWidth 16) s)) = _
  have hl : Ready (latchG 0 (reg.setWidth 16) s) := h
  rw [unlessHalted_of_running _ hl.2, respond_ok_of_idle hl.1]
  rfl

/-- Settles O40: the register is read from the state before the request completes, by the table of rule R32. -/
theorem readRegister : Obligations.ReadRegister := by
  intro s reg h
  refine ⟨registerValue reg s, exec_rdreg h reg, ?_⟩
  refine ⟨?_, ?_, ?_, ?_, ?_, ?_, ?_, ?_⟩ <;> rintro rfl <;> rfl

@[simp] theorem flagBit_getElem_zero (b : Bool) : (flagBit b)[0] = b := by cases b <;> rfl

theorem busy_eq (s : State) : s.busy = decide (s.phase ≠ .idle) := by simp [State.busy, bne, Bool.beq_eq_decide_eq]

/-- The four one-bit fields of rule R33's table. -/
theorem statusWord_flags (s : State) :
    (statusWord s).getLsbD 0 = s.busy ∧ (statusWord s).getLsbD 1 = s.halt ∧ (statusWord s).getLsbD 2 = s.fbAlloc ∧
      (statusWord s).getLsbD 3 = s.sticky := by
  refine ⟨?_, ?_, ?_, ?_⟩ <;> simp only [statusWord, BitVec.getLsbD_append] <;> simp

theorem statusWord_last (s : State) : (statusWord s).extractLsb' 4 4 = s.last.bits := by
  refine BitVec.eq_of_getLsbD_eq fun i hi => ?_
  simp only [statusWord, BitVec.getLsbD_extractLsb', BitVec.getLsbD_append]
  simp [hi]

theorem statusWord_high (s : State) : (statusWord s).extractLsb' 8 8 = 0 := by
  refine BitVec.eq_of_getLsbD_eq fun i hi => ?_
  simp only [statusWord, BitVec.getLsbD_extractLsb', BitVec.getLsbD_append]
  simp [hi]

/-- Settles O41: the fields of rule R33, and `RDREG` of register 5. -/
theorem statusFields : Obligations.StatusFields := by
  intro s
  obtain ⟨hbusy, hhalt, halloc, hsticky⟩ := statusWord_flags s
  refine ⟨hbusy.trans (busy_eq s), hhalt, rfl, halloc, hsticky, statusWord_last s, statusWord_high s,
    fun h => ⟨_, (statusWord s).setWidth 32, exec_rdreg h 5, rfl, ?_, ?_⟩⟩
  · rw [BitVec.getLsbD_setWidth, hbusy]
    simp [State.busy, h.1.1]
  · rw [BitVec.getLsbD_setWidth, hhalt]
    simp [h.2]

/-! ## Reset -/

theorem reference_wellFormed : Cfg.reference.WellFormed := by
  refine ⟨by decide, by decide, by decide, by decide, by decide, by decide,
    by simp [Cfg.npat, Cfg.reference], ?_, by decide⟩
  simp [Cfg.reference, Cfg.fbSize]

theorem ordinals_of_idle {s : State} (h : s.phase = .idle) : Ordinals s := by constructor <;> simp [h]

/-- Settles O42: the state after reset is idle with its registers in range. -/
theorem resetStateMeetsInvariant : Obligations.ResetStateMeetsInvariant :=
  ⟨fun _ rq an hc => ⟨resetWith_inv hc rq an 0, ordinals_of_idle rfl⟩, resetWith_inv reference_wellFormed [] [] 0⟩

/-- With no word presented an idle block stays as it is (rule R231). -/
theorem step_idle_of_no_requests {s : State} (hR : Runs s) (hi : Idle s) (h : s.requests = []) : step s = .next s := by
  rw [step_eq_runStep hR.1 hR.2, runStep_idle hi, acceptStep_wait (by rw [h]; rfl)]

theorem statusWord_applyReset (s : State) : statusWord (applyReset s) = 0 := by
  simp [statusWord, State.busy, flagBit, ResultCode.bits]

/-- Settles O51: the reset step is `applyReset`, whatever the state was. -/
theorem resetEffect : Obligations.ResetEffect :=
  fun s hc hr => ⟨applyReset s, step_reset hc hr, rfl, rfl, rfl, rfl, rfl, rfl, rfl, rfl, rfl, rfl, rfl, rfl, rfl, rfl,
    rfl, ⟨⟨rfl, rfl⟩, rfl⟩, statusWord_applyReset s, fun hc' => step_idle_of_no_requests ⟨hc', rfl⟩ ⟨rfl, rfl⟩⟩

end Sys2Proof.Proofs

/-! # Memory (`20_memory.md`): the pixels of the framebuffer, and `PLOT` -/

namespace Sys2Proof.Proofs

open Sys2Proof.Machine Sys2Proof.Laws

/-! ## The translation of a coordinate -/

theorem offDisplay_iff {c : Cfg} {x y : Nat} : offDisplay c x y = true ↔ c.w ≤ x ∨ c.h ≤ y := by simp [offDisplay]

theorem offDisplay_eq_false {c : Cfg} {x y : Nat} (hx : x < c.w) (hy : y < c.h) : offDisplay c x y = false := by
  simp [offDisplay, hx, hy]

/-- `Pixel` is a left inverse of `Translate` on the columns of the display. -/
theorem pixelAt_pixelAddress {c : Cfg} {x : Nat} (y : Nat) (hx : x < c.w) :
    pixelAt c (pixelAddress c x y).1 (pixelAddress c x y).2 = (x, y) := by
  have hcol : (y / 8 * c.w + x) % c.w = x := by rw [Nat.mul_add_mod_self_right, Nat.mod_eq_of_lt hx]
  have hpage : (y / 8 * c.w + x) / c.w = y / 8 := by
    rw [Nat.add_comm, Nat.add_mul_div_right _ _ (Nat.zero_lt_of_lt hx), Nat.div_eq_of_lt hx, Nat.zero_add]
  simp only [pixelAt, pixelAddress, hcol, hpage, Nat.div_add_mod]

/-- `Pixel` is a right inverse of `Translate` on the bits of a byte. -/
theorem pixelAddress_pixelAt (c : Cfg) (ofs : Nat) {bit : Nat} (hb : bit < 8) :
    pixelAddress c (pixelAt c ofs bit).1 (pixelAt c ofs bit).2 = (ofs, bit) := by
  have hpage : (8 * (ofs / c.w) + bit) / 8 = ofs / c.w := by omega
  have hbit : (8 * (ofs / c.w) + bit) % 8 = bit := by omega
  simp only [pixelAddress, pixelAt, hpage, hbit, Nat.div_add_mod']

/-- `Translate` is injective on the columns of the display. -/
theorem pixelAddress_inj {c : Cfg} {x y x' y' : Nat} (hx : x < c.w) (hx' : x' < c.w)
    (h : pixelAddress c x y = pixelAddress c x' y') : (x, y) = (x', y') := by
  rw [← pixelAt_pixelAddress y hx, h, pixelAt_pixelAddress y' hx']

/-- A bit of the framebuffer is a pixel of the display. -/
theorem pixelAt_lt {c : Cfg} (hc : c.WellFormed) {ofs bit : Nat} (ho : ofs < c.fbSize) (hb : bit < 8) :
    (pixelAt c ofs bit).1 < c.w ∧ (pixelAt c ofs bit).2 < c.h := by
  obtain ⟨hN, hH⟩ := fbSize_eq hc
  have hpage : ofs / c.w < c.pages := Nat.div_lt_of_lt_mul (by rwa [Nat.mul_comm, ← hN])
  refine ⟨Nat.mod_lt _ hc.1, ?_⟩
  change 8 * (ofs / c.w) + bit < c.h
  omega

/-- Settles O28: `Pixel` is the inverse of `Translate` on either side, and each lands in the other's range. -/
theorem pixelTranslationIsABijection : Obligations.PixelTranslationIsABijection := by
  refine fun c hc => ⟨fun x y hx hy => ⟨rfl, pixelAddress_lt hc (offDisplay_eq_false hx hy), ?_,
    pixelAt_pixelAddress y hx⟩, fun ofs bit ho hb => ?_⟩
  · exact Nat.le_of_lt_succ (Nat.mod_lt y (by decide))
  · have hb : bit < 8 := Nat.lt_succ_of_le hb
    obtain ⟨hx, hy⟩ := pixelAt_lt hc ho hb
    exact ⟨rfl, hx, hy, pixelAddress_pixelAt c ofs hb⟩

/-! ## What `PLOT` does to one bit, one byte and the framebuffer -/

/-- What a `PLOT` mode makes of the addressed bit, rule R141. -/
def modeBit (mode : BitVec 2) (old : Bool) : Bool := if mode = 0 then false else if mode = 1 then true else !old

/-- The mask of rule R141 has the addressed bit alone. -/
theorem bitMask_getLsbD (bit : Nat) {b : Nat} (hb : b < 8) : (bitMask bit).getLsbD b = decide (b = bit) := by
  simp only [bitMask, BitVec.getLsbD_shiftLeft, BitVec.getLsbD_one]
  by_cases h : b < bit
  · simp [h, Nat.ne_of_lt h]
  · simp [hb, h]; omega

/-- Rule R141: of the byte `PLOT` rewrites, the addressed bit alone changes. -/
theorem plottedByte_getLsbD (mode : BitVec 2) (bit : Nat) (old : Byte) {b : Nat} (hb : b < 8) :
    (plottedByte mode bit old).getLsbD b = if b = bit then modeBit mode (old.getLsbD b) else old.getLsbD b := by
  have hbits : (plottedByte mode bit old).getLsbD b =
      if mode = 0 then old.getLsbD b && !decide (b = bit)
      else if mode = 1 then old.getLsbD b || decide (b = bit) else old.getLsbD b ^^ decide (b = bit) := by
    simp only [plottedByte, applyMode, apply_ite (BitVec.getLsbD · b), BitVec.getLsbD_and, BitVec.getLsbD_or,
      BitVec.getLsbD_xor, BitVec.getLsbD_not, bitMask_getLsbD bit hb, hb, decide_true, Bool.true_and]
  rw [hbits]
  by_cases h : b = bit
  · simp [h, modeBit]
  · simp [h]

/-- At different bits of one byte two `PLOT`s commute. -/
theorem plottedByte_comm (mode mode' : BitVec 2) {bit bit' : Nat} (hne : bit ≠ bit') (old : Byte) :
    plottedByte mode' bit' (plottedByte mode bit old) = plottedByte mode bit (plottedByte mode' bit' old) := by
  refine BitVec.eq_of_getLsbD_eq fun b hb => ?_
  simp only [plottedByte_getLsbD _ _ _ hb]
  by_cases h : b = bit
  · simp [h, hne]
  · simp [h]

/-- The framebuffer after a `PLOT` of an in-range pixel, rule R141 (`plotPixel_eq`). -/
def plotMemory (c : Cfg) (mode : BitVec 2) (x y : Nat) (m : Memory) : Memory :=
  writeBytes m (pixelAddress c x y).1
    [plottedByte mode (pixelAddress c x y).2 (readByte m (pixelAddress c x y).1)]

theorem plotPixel_eq (mode : BitVec 2) (x y : Nat) (s : State) :
    plotPixel mode x y s = { s with fb := plotMemory s.cfg mode x y s.fb } := rfl

theorem plotMemory_wf {m : Memory} (c : Cfg) (mode : BitVec 2) (x y : Nat) (h : Memory.wf m) :
    Memory.wf (plotMemory c mode x y m) := writeBytes_wf _ _ _ h

/-- `PLOT` rewrites the byte at the offset of its pixel, and no other. -/
theorem readByte_plotMemory (c : Cfg) (mode : BitVec 2) (x y : Nat) (m : Memory) (a : Nat) :
    readByte (plotMemory c mode x y m) a =
      if a = (pixelAddress c x y).1 then plottedByte mode (pixelAddress c x y).2 (readByte m a) else readByte m a := by
  unfold plotMemory
  split
  case isTrue h => subst h; exact readByte_writeBytes_inside m _ [_] 0 (by simp)
  case isFalse h => exact readByte_writeBytes_outside m _ _ a (by simp only [List.length_singleton]; omega)

/-- A pixel is the bit at its address (rules R51 and R54). -/
theorem pixel_eq (c : Cfg) (m : Memory) (x y : Nat) :
    pixel c m x y = (readByte m (pixelAddress c x y).1).getLsbD (pixelAddress c x y).2 := rfl

/-- `PLOT` gives its own pixel the mode's value and leaves every other pixel of the display. -/
theorem pixel_plotMemory {c : Cfg} {x px : Nat} (hx : x < c.w) (hpx : px < c.w) (mode : BitVec 2) (y py : Nat)
    (m : Memory) :
    pixel c (plotMemory c mode x y m) px py =
      if (px, py) = (x, y) then modeBit mode (pixel c m x y) else pixel c m px py := by
  have hbit : (pixelAddress c px py).2 < 8 := Nat.mod_lt py (by decide)
  rw [pixel_eq, readByte_plotMemory]
  by_cases ha : (pixelAddress c px py).1 = (pixelAddress c x y).1
  · rw [if_pos ha, plottedByte_getLsbD _ _ _ hbit]
    by_cases hb : (pixelAddress c px py).2 = (pixelAddress c x y).2
    · obtain ⟨rfl, rfl⟩ := Prod.mk.inj (pixelAddress_inj hpx hx (Prod.ext ha hb))
      rw [if_pos rfl, if_pos rfl, pixel_eq]
    · rw [if_neg hb, if_neg fun h => hb (by cases h; rfl), pixel_eq]
  · rw [if_neg ha, if_neg fun h => ha (by cases h; rfl), pixel_eq]

/-- `PLOT`s at different addresses commute: in different bytes, or at different bits of one byte. -/
theorem plotMemory_comm {c : Cfg} {x y x' y' : Nat} (hne : pixelAddress c x y ≠ pixelAddress c x' y')
    (mode mode' : BitVec 2) {m : Memory} (hm : Memory.wf m) :
    plotMemory c mode' x' y' (plotMemory c mode x y m) = plotMemory c mode x y (plotMemory c mode' x' y' m) := by
  refine memory_ext _ _ (plotMemory_wf _ _ _ _ (plotMemory_wf _ _ _ _ hm))
    (plotMemory_wf _ _ _ _ (plotMemory_wf _ _ _ _ hm)) fun a => ?_
  simp only [readByte_plotMemory]
  by_cases h : a = (pixelAddress c x y).1
  · by_cases h' : a = (pixelAddress c x' y').1
    · have hbit : (pixelAddress c x y).2 ≠ (pixelAddress c x' y').2 := fun hb => hne (Prod.ext (h.symm.trans h') hb)
      simp only [if_pos h, if_pos h', plottedByte_comm mode mode' hbit]
    · simp only [if_pos h, if_neg h']
  · simp only [if_neg h]

/-! ## The request `PLOT` -/

theorem ifLegal_of_legal {ok : Bool} (body : State → State) (l : State) (h : ok = true) : ifLegal ok body l = body l := by
  simp [ifLegal, h]

theorem withFramebuffer_of_alloc (body : State → State) {l : State} (h : l.fbAlloc = true) :
    withFramebuffer body l = body l := by
  simp [withFramebuffer, h]

/-- The bounds rule, rule R55. -/
theorem plotBody_off (mode : BitVec 2) {x y : Nat} {l : State} (h : offDisplay l.cfg x y = true) :
    plotBody mode x y l = respond .ok 0 l := if_pos h

theorem plotBody_on (mode : BitVec 2) {x y : Nat} {l : State} (h : offDisplay l.cfg x y = false)
    (ha : l.fbAlloc = true) :
    plotBody mode x y l = respond .ok 0 { l with fb := plotMemory l.cfg mode x y l.fb } := by
  rw [plotBody, if_neg (Bool.eq_false_iff.1 h), withFramebuffer_of_alloc _ ha, plotPixel_eq]

/-- `s` after a `PLOT` that completed with `E_OK` and left the framebuffer `m` (`exec_plot_off`, `exec_plot_on`). -/
def plotDone (mode : BitVec 2) (x y : BitVec 12) (m : Memory) (s : State) : State :=
  { s with fb := m, x0 := 0, x1 := x.setWidth 16, x2 := y.setWidth 16, x3 := mode.setWidth 16, ntx := 0, last := .ok,
           responses := s.responses ++ [0x00000000] }

section Plot

variable {s : State} {mode : BitVec 2} {x y : BitVec 12}

@[simp] theorem plotDone_fb (m : Memory) : (plotDone mode x y m s).fb = m := rfl

theorem plotDone_ready (m : Memory) (h : Ready s) : Ready (plotDone mode x y m s) := h

/-- A legal `PLOT` of a ready block passes the gates of steps 1 and 2 of rule R207. -/
theorem exec_plot (h : Ready s) (hm : mode ≠ 3) :
    exec (.plot mode x y) s = .next (plotBody mode x.toNat y.toNat (latchP mode x y s)) := by
  change Host.Outcome.next (unlessHalted _ (latchP mode x y s)) = _
  have hl : Ready (latchP mode x y s) := h
  rw [unlessHalted_of_running _ hl.2, ifLegal_of_legal _ _ (by simpa using hm)]

/-- Rule R55: out of bounds nothing is written. -/
theorem exec_plot_off (h : Ready s) (hm : mode ≠ 3) (ho : s.cfg.w ≤ x.toNat ∨ s.cfg.h ≤ y.toNat) :
    exec (.plot mode x y) s = .next (plotDone mode x y s.fb s) := by
  have hoff : offDisplay (latchP mode x y s).cfg x.toNat y.toNat = true := offDisplay_iff.2 ho
  rw [exec_plot h hm, plotBody_off mode hoff, respond_ok_of_idle]
  · rfl
  · exact h.1

/-- Rule R141: in bounds the bit of the pixel is written. -/
theorem exec_plot_on (h : Ready s) (ha : s.fbAlloc = true) (hm : mode ≠ 3) (hx : x.toNat < s.cfg.w)
    (hy : y.toNat < s.cfg.h) :
    exec (.plot mode x y) s = .next (plotDone mode x y (plotMemory s.cfg mode x.toNat y.toNat s.fb) s) := by
  have hon : offDisplay (latchP mode x y s).cfg x.toNat y.toNat = false := offDisplay_eq_false hx hy
  rw [exec_plot h hm, plotBody_on mode hon ha, respond_ok_of_idle]
  · rfl
  · exact h.1

end Plot

/-- Settles O30: the allocation is not looked at, since the bounds rule comes before it. -/
theorem plotOutOfBoundsIsDropped : Obligations.PlotOutOfBoundsIsDropped :=
  fun _ _ _ _ h hm ho => exec_plot_off h hm ho

/-- Rule R144 (a) to (c) in one: what a `PLOT` makes of every pixel of the display. -/
theorem exec_plot_pixel {s t : State} {mode : BitVec 2} {x y : BitVec 12} (h : Ready s) (ha : s.fbAlloc = true)
    (hm : mode ≠ 3) (ht : exec (.plot mode x y) s = .next t) {px py : Nat} (hpx : px < s.cfg.w) (hpy : py < s.cfg.h) :
    pixel s.cfg t.fb px py =
      if (px, py) = (x.toNat, y.toNat) then modeBit mode (pixel s.cfg s.fb px py) else pixel s.cfg s.fb px py := by
  by_cases hin : x.toNat < s.cfg.w ∧ y.toNat < s.cfg.h
  · rw [exec_plot_on h ha hm hin.1 hin.2] at ht
    cases ht
    rw [plotDone_fb, pixel_plotMemory hin.1 hpx]
    split
    case isTrue heq => cases heq; rfl
    case isFalse => rfl
  · rw [exec_plot_off h hm (by omega)] at ht
    cases ht
    rw [plotDone_fb, if_neg fun heq => hin (by cases heq; exact ⟨hpx, hpy⟩)]

/-- Rule R144 (d): `PLOT`s at different in-range coordinates leave the same framebuffer in either order. -/
theorem exec_plot_comm {s t : State} {m m' : BitVec 2} {x y x' y' : BitVec 12} (hwf : Memory.wf s.fb) (h : Ready s)
    (ha : s.fbAlloc = true) (hm : m ≠ 3) (hm' : m' ≠ 3) (ht : exec (.plot m x y) s = .next t) (hx : x.toNat < s.cfg.w)
    (hy : y.toNat < s.cfg.h) (hx' : x'.toNat < s.cfg.w) (hy' : y'.toNat < s.cfg.h) (hne : (x, y) ≠ (x', y')) :
    ∃ u v w, exec (.plot m' x' y') t = .next u ∧ exec (.plot m' x' y') s = .next v ∧
      exec (.plot m x y) v = .next w ∧ u.fb = w.fb := by
  rw [exec_plot_on h ha hm hx hy] at ht
  cases ht
  have haddr : pixelAddress s.cfg x.toNat y.toNat ≠ pixelAddress s.cfg x'.toNat y'.toNat := fun heq => hne <| by
    obtain ⟨hxx, hyy⟩ := Prod.mk.inj (pixelAddress_inj hx hx' heq)
    rw [BitVec.eq_of_toNat_eq hxx, BitVec.eq_of_toNat_eq hyy]
  exact ⟨_, _, _, exec_plot_on (plotDone_ready _ h) ha hm' hx' hy', exec_plot_on h ha hm' hx' hy',
    exec_plot_on (plotDone_ready _ h) ha hm hx hy, plotMemory_comm haddr m m' hwf⟩

/-- Settles O32: (a) and (c) from what a `PLOT` makes of every pixel, (b) from rule R55, (d) from the commuting writes. -/
theorem plotProperties : Obligations.PlotProperties := by
  intro s t m m' x y x' y' hI h ha hm hm' ht
  refine ⟨fun hx hy => ?_, fun ho => ?_, fun px py hpx hpy hne => ?_, exec_plot_comm hI.fbWf h ha hm hm' ht⟩
  · rw [exec_plot_pixel h ha hm ht hx hy, if_pos rfl]
    exact ⟨by rintro rfl; rfl, by rintro rfl; rfl⟩
  · rw [exec_plot_off h hm ho] at ht
    cases ht
    rfl
  · rw [exec_plot_pixel h ha hm ht hpx hpy, if_neg hne]

end Sys2Proof.Proofs

/-! # Encoding (`30_encoding.md`): the decoder and the encoder, and what the requests and commands they name do -/

namespace Sys2Proof.Proofs

open Sys2Proof.Machine Sys2Proof.Laws

/-! ## Decoding what was encoded -/

theorem payloadWords_gWord (o : BitVec 4) (sid : Byte) (len : Half) (ho : o = 0x4 ∨ o = 0x6) :
    payloadWords (gWord o sid len) = ceilDiv len.toNat 4 := by
  rw [payloadWords, wordOpc_gWord, if_pos ho, wordArg_gWord]

/-- A word of format G whose fields are its row's passes the checks of the row. -/
theorem checkG_ok {w : Word} {sidFree argOk : Bool} (i : Instr) (hz : wordZG w = 0)
    (hs : sidFree = false → wordSid w = 0) (ha : argOk = true) : checkG w sidFree argOk i = .ok i := by
  unfold checkG
  rw [if_neg (not_not.2 hz), if_neg, if_neg (by simp [ha])]
  cases sidFree with
  | true => simp
  | false => simp [hs rfl]

theorem checkG_gWord (o : BitVec 4) (sid : Byte) (arg : Half) {sidFree argOk : Bool} (i : Instr)
    (hs : sidFree = false → sid = 0) (ha : argOk = true) : checkG (gWord o sid arg) sidFree argOk i = .ok i :=
  checkG_ok i (wordZG_gWord o sid arg) (fun hf => (wordSid_gWord o sid arg).trans (hs hf)) ha

/-- What the rows with a payload decode to: the session and the first `LEN` bytes (rules R75 and R77). -/
theorem decodeRequest_wrcmd (sid : Byte) (len : Half) {pay : List Word} (h : pay.length = ceilDiv len.toNat 4) :
    decodeRequest (gWord 0x4 sid len) pay = .ok (.wrcmd sid (unpackPayload len.toNat pay)) := by
  rw [decodeRequest, if_neg (by simpa [payloadWords_gWord] using h)]
  simp only [wordOpc_gWord, wordSid_gWord, wordArg_gWord]
  exact checkG_gWord _ _ _ _ (by simp) rfl

theorem decodeRequest_load (len : Half) {pay : List Word} (h : pay.length = ceilDiv len.toNat 4) :
    decodeRequest (gWord 0x6 0 len) pay = .ok (.load (unpackPayload len.toNat pay)) := by
  rw [decodeRequest, if_neg (by simpa [payloadWords_gWord] using h)]
  simp only [wordOpc_gWord, wordArg_gWord]
  exact checkG_gWord _ _ _ _ (by simp) rfl

/-- A packed payload is as long as its word says. -/
theorem packPayload_length_of_lt {bs : List Byte} (h : bs.length < 65536) :
    (packPayload bs).length = ceilDiv (payloadLen bs).toNat 4 := by
  rw [packPayload_length, payloadLen_toNat bs h]

theorem unpack_pack_payloadLen {bs : List Byte} (h : bs.length < 65536) :
    unpackPayload (payloadLen bs).toNat (packPayload bs) = bs := by
  rw [payloadLen_toNat bs h, unpack_pack]

theorem awake_arg_le (on : Bool) : (if on then 1 else 0 : Half).toNat ≤ 1 := by cases on <;> decide

theorem awake_arg_eq_one (on : Bool) : ((if on then 1 else 0 : Half) == 1) = on := by cases on <;> rfl

theorem rdreg_arg_le (reg : BitVec 3) : (reg.setWidth 16).toNat ≤ 7 := by
  have := reg.isLt
  simp; omega

/-- The register number of an `RDREG` word is its operand. -/
theorem extract_gWord_reg (o : BitVec 4) (sid : Byte) (reg : BitVec 3) :
    (gWord o sid (reg.setWidth 16)).extractLsb' 0 3 = reg := by
  refine BitVec.eq_of_getLsbD_eq fun i hi => ?_
  simp only [gWord, BitVec.getLsbD_extractLsb', BitVec.getLsbD_append]
  simp [hi, show i < 16 by omega]

/-- A request decodes from its encoding, row by row of the opcode table. -/
theorem decode_encode_request (c : CmdEnc) {i : Instr} (hi : i.isCommand = false) (hw : i.wf = true) :
    decode c (encode c i) = .ok i := by
  have hnone : ∀ {w : Word}, wordOpc w ≠ 0x4 → wordOpc w ≠ 0x6 → ¬([] : List Word).length ≠ payloadWords w :=
    fun h4 h6 => by simp [payloadWords_other h4 h6]
  cases i with
  | wrcmd sid pay =>
    have hl : pay.length < 65536 := of_decide_eq_true hw
    simp only [encode, decode, decodeRequest_wrcmd sid _ (packPayload_length_of_lt hl), unpack_pack_payloadLen hl]
  | load pay =>
    have hl : pay.length < 65536 := of_decide_eq_true hw
    simp only [encode, decode, decodeRequest_load _ (packPayload_length_of_lt hl), unpack_pack_payloadLen hl]
  | plot | reserved0 | reservedC | reservedD | reservedE | reservedF =>
    simp only [encode, decode, decodeRequest]
    rw [if_neg (hnone (by simp) (by simp))]
    simp
  | init | awake | scroll | loadrom | clear | push | rdfb | rdreg =>
    simp only [encode, decode, decodeRequest]
    rw [if_neg (hnone (by simp) (by simp))]
    simp only [wordOpc_gWord, wordSid_gWord, wordArg_gWord, awake_arg_le, awake_arg_eq_one, rdreg_arg_le,
      extract_gWord_reg, decide_true]
    exact checkG_gWord _ _ _ _ (by simp) (by simp)
  | _ => cases hi

theorem lowMask_getLsbD : ∀ i < 8, (0x3F : Byte).getLsbD i = decide (i < 6) := by decide

theorem highMask_getLsbD : ∀ i < 8, (0xC0 : Byte).getLsbD i = decide (6 ≤ i) := by decide

section StartLine

variable {c : CmdEnc} (h : c.setStartLine &&& 0x3F = 0)
include h

/-- The table's code of the start-line command leaves bits 5:0 free (rule R92). -/
theorem setStartLine_getLsbD {i : Nat} (hi : i < 6) : c.setStartLine.getLsbD i = false := by
  have hbit : (c.setStartLine &&& 0x3F).getLsbD i = false := by rw [h, BitVec.ofNat_eq_ofNat, BitVec.getLsbD_zero]
  rwa [BitVec.getLsbD_and, lowMask_getLsbD i (by omega), decide_eq_true hi, Bool.and_true] at hbit

theorem startLineByte_line (line : BitVec 6) : (startLineByte c line).extractLsb' 0 6 = line := by
  refine BitVec.eq_of_getLsbD_eq fun i hi => ?_
  simp only [startLineByte, BitVec.getLsbD_extractLsb', BitVec.getLsbD_or, BitVec.getLsbD_setWidth, Nat.zero_add, hi,
    setStartLine_getLsbD h hi, show i < 8 by omega, decide_true, Bool.true_and, Bool.false_or]

theorem startLineByte_code (line : BitVec 6) : startLineByte c line &&& 0xC0 = c.setStartLine := by
  refine BitVec.eq_of_getLsbD_eq fun i hi => ?_
  simp only [startLineByte, BitVec.getLsbD_and, BitVec.getLsbD_or, BitVec.getLsbD_setWidth, highMask_getLsbD i hi]
  by_cases h6 : i < 6
  · simp only [setStartLine_getLsbD h h6, Nat.not_le.2 h6, decide_false, Bool.and_false]
  · simp [Nat.not_lt.1 h6]

end StartLine

theorem oneByteRows_fst (c : CmdEnc) : (oneByteRows c).map Prod.fst = c.oneByte := rfl

theorem twoByteRows_fst (c : CmdEnc) (p : Byte) : (twoByteRows c p).map Prod.fst = c.twoByte := rfl

/-- A start-line byte is no other one-byte command. -/
theorem lookup_startLineByte {c : CmdEnc} (h : c.Unambiguous) (line : BitVec 6) :
    (oneByteRows c).lookup (startLineByte c line) = none := by
  obtain ⟨-, -, hline, hother, -⟩ := h
  cases hl : (oneByteRows c).lookup (startLineByte c line) with
  | none => rfl
  | some i =>
    have hm : startLineByte c line ∈ (oneByteRows c).map Prod.fst := List.mem_map.2 ⟨_, mem_of_lookup _ _ _ hl, rfl⟩
    exact absurd (startLineByte_code hline line) (hother _ hm)

/-- A command decodes from its bytes, where a byte list names at most one command. -/
theorem decodeCommand_encodeCommand {c : CmdEnc} (hc : c.Unambiguous) {i : Instr} (hi : i.isCommand = true) :
    decodeCommand c (encodeCommand c i) = some i := by
  have hlookup := lookup_startLineByte hc
  obtain ⟨hone, htwo, hline, -, hwindow, hscroll⟩ := hc
  have one : ∀ {b : Byte} {j : Instr}, (b, j) ∈ oneByteRows c → decodeCommand c [b] = some j := fun hm => by
    simp only [decodeCommand, lookup_of_mem _ (oneByteRows_fst c ▸ hone) hm]
  have two : ∀ {b p : Byte} {j : Instr}, (b, j) ∈ twoByteRows c p → decodeCommand c [b, p] = some j := fun hm =>
    lookup_of_mem _ (twoByteRows_fst c _ ▸ htwo) hm
  cases i with
  | ccDisplayOff | ccSegRemapReversed | ccComScanReversed | ccNormalDisplay | ccDisplayFollowRam | ccDeactivateScroll
  | ccDisplayOn | ccActivateScroll => exact one (by simp [oneByteRows])
  | ccSetClockDiv | ccSetMultiplex | ccSetDisplayOffset | ccChargePump | ccSetMemoryMode | ccSetComPins | ccSetContrast
  | ccSetPrecharge | ccSetVcomDeselect => exact two (by simp [twoByteRows])
  | ccSetStartLine line =>
    simp only [encodeCommand, decodeCommand, hlookup, startLineByte_line hline, if_true]
  | ccSetColumnWindow | ccScrollRightCfg => exact if_pos rfl
  | ccSetPageWindow => exact (if_neg hwindow.symm).trans (if_pos rfl)
  | ccScrollLeftCfg => exact (if_neg hscroll.symm).trans (if_pos rfl)
  | _ => cases hi

/-- The encoder puts a controller command on the command channel. -/
theorem encode_of_isCommand (c : CmdEnc) {i : Instr} (hi : i.isCommand = true) :
    encode c i = .command (encodeCommand c i) := ((EncodedSpace.of_command hi c).1 hi).1

/-- Settles O1: the request rows by their fields, the command rows by their first byte. -/
theorem decodeOfEncodeGivesTheInstruction : Obligations.DecodeOfEncodeGivesTheInstruction := by
  intro c i hc hw
  cases hi : i.isCommand with
  | false => exact decode_encode_request c hi hw
  | true => simp only [encode_of_isCommand c hi, decode, decodeCommand_encodeCommand hc hi]

/-! ## Encoding what was decoded -/

/-- A row of format G is decoded only where its word passes the three checks. -/
theorem of_checkG_ok {w : Word} {sidFree argOk : Bool} {i j : Instr} (h : checkG w sidFree argOk j = .ok i) :
    i = j ∧ wordZG w = 0 ∧ (sidFree = false → wordSid w = 0) ∧ argOk = true := by
  unfold checkG at h
  split at h
  case isTrue => cases h
  case isFalse hz =>
    split at h
    case isTrue => cases h
    case isFalse hs =>
      split at h
      case isTrue => cases h
      case isFalse ha =>
        cases h
        refine ⟨rfl, not_not.1 hz, fun hf => ?_, by simpa using ha⟩
        simpa [hf] using hs

theorem eq_zero_or_one_of_le {a : Half} (h : a.toNat ≤ 1) : (if a == 1 then 1 else 0 : Half) = a := by
  rcases Nat.le_one_iff_eq_zero_or_eq_one.1 h with h0 | h1
  · obtain rfl : a = 0 := BitVec.eq_of_toNat_eq h0; rfl
  · obtain rfl : a = 1 := BitVec.eq_of_toNat_eq h1; rfl

/-- Three bits hold a register number up to 7. -/
theorem setWidth_extract_reg {w : Word} (h : (wordArg w).toNat ≤ 7) :
    (w.extractLsb' 0 3).setWidth 16 = wordArg w := by
  have hlow : w.extractLsb' 0 3 = (wordArg w).setWidth 3 := by
    refine BitVec.eq_of_getLsbD_eq fun i hi => ?_
    simp [wordArg, hi, show i < 16 by omega]
  refine BitVec.eq_of_toNat_eq ?_
  rw [hlow, BitVec.toNat_setWidth, BitVec.toNat_setWidth]
  omega

theorem ceilDiv_four_mul (n : Nat) : n ≤ 4 * ceilDiv n 4 := by unfold ceilDiv; omega

/-- A payload cut to `LEN` bytes is as long as `LEN` says. -/
theorem unpackPayload_length_of_count {len : Nat} {pay : List Word} (h : pay.length = ceilDiv len 4) :
    (unpackPayload len pay).length = len :=
  unpackPayload_length len pay (h ▸ ceilDiv_four_mul len)

theorem payloadLen_unpack {len : Half} {pay : List Word} (h : pay.length = ceilDiv len.toNat 4) :
    payloadLen (unpackPayload len.toNat pay) = len := by
  rw [payloadLen, unpackPayload_length_of_count h, BitVec.ofNat_toNat, BitVec.setWidth_eq]

/-- What decodes from a word, encoded, is that word with as many payload words and the same payload bytes. -/
def Reencodes (c : CmdEnc) (w : Word) (pay : List Word) (i : Instr) : Prop :=
  ∃ pay', encode c i = .request w pay' ∧ pay'.length = pay.length ∧
    unpackPayload (wordArg w).toNat pay' = unpackPayload (wordArg w).toNat pay

section Reencodes

variable {c : CmdEnc} {w : Word} {pay : List Word} {i : Instr}

theorem reencodes_of_no_payload (hlen : pay.length = payloadWords w) (h4 : wordOpc w ≠ 0x4) (h6 : wordOpc w ≠ 0x6)
    (he : encode c i = .request w []) : Reencodes c w pay i := by
  obtain rfl : pay = [] := List.length_eq_zero_iff.1 (hlen.trans (payloadWords_other h4 h6))
  exact ⟨[], he, rfl, rfl⟩

theorem reencodes_of_payload (hcount : pay.length = ceilDiv (wordArg w).toNat 4)
    (he : encode c i = .request w (packPayload (unpackPayload (wordArg w).toNat pay))) : Reencodes c w pay i := by
  have hbytes := unpackPayload_length_of_count hcount
  have hpack := unpack_pack (unpackPayload (wordArg w).toNat pay)
  rw [hbytes] at hpack
  exact ⟨_, he, by rw [packPayload_length, hbytes, hcount], hpack⟩

/-- A row of format G without payload, from the encoding of its operands. -/
theorem reencodes_of_checkG {sidFree argOk : Bool} {j : Instr} (o : BitVec 4) (h : checkG w sidFree argOk j = .ok i)
    (hlen : pay.length = payloadWords w) (ho : wordOpc w = o) (h4 : o ≠ 0x4) (h6 : o ≠ 0x6)
    (he : (sidFree = false → wordSid w = 0) → argOk = true →
      encode c j = .request (gWord o (wordSid w) (wordArg w)) []) : Reencodes c w pay i := by
  obtain ⟨rfl, hz, hs, ha⟩ := of_checkG_ok h
  subst ho
  exact reencodes_of_no_payload hlen h4 h6 (by rw [he hs ha, gWord_of_fields w hz])

/-- A row of format G with a payload. -/
theorem reencodes_of_checkG_payload {sidFree argOk : Bool} {j : Instr} (o : BitVec 4)
    (h : checkG w sidFree argOk j = .ok i) (hlen : pay.length = payloadWords w) (ho : wordOpc w = o)
    (h46 : o = 0x4 ∨ o = 0x6)
    (he : (sidFree = false → wordSid w = 0) → payloadLen (unpackPayload (wordArg w).toNat pay) = wordArg w →
      encode c j = .request (gWord o (wordSid w) (wordArg w)) (packPayload (unpackPayload (wordArg w).toNat pay))) :
    Reencodes c w pay i := by
  obtain ⟨rfl, hz, hs, -⟩ := of_checkG_ok h
  subst ho
  have hcount : pay.length = ceilDiv (wordArg w).toNat 4 := by rw [hlen, payloadWords, if_pos h46]
  exact reencodes_of_payload hcount (by rw [he hs (payloadLen_unpack hcount), gWord_of_fields w hz])

theorem reencodes_of_reserved (o : BitVec 4) (hlen : pay.length = payloadWords w) (ho : wordOpc w = o) (h4 : o ≠ 0x4)
    (h6 : o ≠ 0x6) (he : encode c i = .request (o ++ wordRest w) []) : Reencodes c w pay i := by
  subst ho
  exact reencodes_of_no_payload hlen h4 h6 (by rw [he, reserved_of_fields w])

end Reencodes

/-- No bit of a request word is dropped: row by row, the fields that are not operands are fixed by the row's checks. -/
theorem decodeRequest_reencodes (c : CmdEnc) {w : Word} {pay : List Word} {i : Instr}
    (h : decodeRequest w pay = .ok i) : Reencodes c w pay i := by
  have opc : ∀ {o : BitVec 4}, (wordOpc w).toNat = o.toNat → wordOpc w = o := BitVec.eq_of_toNat_eq
  unfold decodeRequest at h
  split at h
  case isTrue => cases h
  case isFalse hlen =>
    have hlen := not_not.1 hlen
    split at h
    next ho => cases h; exact reencodes_of_reserved 0x0 hlen (opc ho) (by decide) (by decide) rfl
    next ho =>
      refine reencodes_of_checkG 0x1 h hlen (opc ho) (by decide) (by decide) fun _ ha => ?_
      rw [beq_iff_eq.1 ha]; rfl
    next ho =>
      refine reencodes_of_checkG 0x2 h hlen (opc ho) (by decide) (by decide) fun _ ha => ?_
      rw [encode, eq_zero_or_one_of_le (of_decide_eq_true ha)]
    next ho => exact reencodes_of_checkG 0x3 h hlen (opc ho) (by decide) (by decide) fun _ _ => rfl
    next ho =>
      refine reencodes_of_checkG_payload 0x4 h hlen (opc ho) (.inl rfl) fun _ hl => ?_
      rw [encode, hl]
    next ho =>
      split at h
      case isTrue => cases h
      case isFalse hz =>
        cases h
        have ho : wordOpc w = 0x5 := opc ho
        refine reencodes_of_no_payload hlen (by rw [ho]; decide) (by rw [ho]; decide) ?_
        rw [encode, pWord_of_fields w ho (not_not.1 hz)]
    next ho =>
      refine reencodes_of_checkG_payload 0x6 h hlen (opc ho) (.inr rfl) fun hs hl => ?_
      rw [encode, hl, hs rfl]
    next ho =>
      refine reencodes_of_checkG 0x7 h hlen (opc ho) (by decide) (by decide) fun hs _ => ?_
      rw [hs rfl]; rfl
    next ho =>
      refine reencodes_of_checkG 0x8 h hlen (opc ho) (by decide) (by decide) fun hs ha => ?_
      rw [hs rfl, beq_iff_eq.1 ha]; rfl
    next ho =>
      refine reencodes_of_checkG 0x9 h hlen (opc ho) (by decide) (by decide) fun _ ha => ?_
      rw [beq_iff_eq.1 ha]; rfl
    next ho =>
      refine reencodes_of_checkG 0xA h hlen (opc ho) (by decide) (by decide) fun hs _ => ?_
      rw [hs rfl]; rfl
    next ho =>
      refine reencodes_of_checkG 0xB h hlen (opc ho) (by decide) (by decide) fun hs ha => ?_
      rw [hs rfl, encode, setWidth_extract_reg (of_decide_eq_true ha)]
    next ho => cases h; exact reencodes_of_reserved 0xC hlen (opc ho) (by decide) (by decide) rfl
    next ho => cases h; exact reencodes_of_reserved 0xD hlen (opc ho) (by decide) (by decide) rfl
    next ho => cases h; exact reencodes_of_reserved 0xE hlen (opc ho) (by decide) (by decide) rfl
    next =>
      cases h
      have hF : (wordOpc w).toNat = 0xF := by have := (wordOpc w).isLt; grind
      exact reencodes_of_reserved 0xF hlen (opc hF) (by decide) (by decide) rfl

/-- Settles O2: a decoded row fixes the fields that are none of its operands. -/
theorem decodedRequestKeepsEveryBit : Obligations.DecodedRequestKeepsEveryBit :=
  fun c _ _ _ h => decodeRequest_reencodes c h

/-! ## The bytes of a payload -/

theorem wordBytes_getElem? (w : Word) {i : Nat} (h : i < 4) :
    (wordBytes w)[i]? = some (w.extractLsb' (8 * i) 8) := by
  match i, h with
  | 0, _ | 1, _ | 2, _ | 3, _ => rfl

/-- Rule R77: byte `i` of a payload lies in word `i / 4`, at bits `8 * (i mod 4) + 7` down to `8 * (i mod 4)`. -/
theorem flatMap_wordBytes_getElem? (pay : List Word) (i : Nat) :
    (pay.flatMap wordBytes)[i]? = pay[i / 4]?.map fun w => w.extractLsb' (8 * (i % 4)) 8 := by
  induction pay generalizing i with
  | nil => simp
  | cons w pay ih =>
    rw [List.flatMap_cons]
    have hlen : (wordBytes w).length = 4 := rfl
    by_cases h : i < 4
    · rw [List.getElem?_append_left (by omega), wordBytes_getElem? w h, Nat.div_eq_of_lt h, Nat.mod_eq_of_lt h]
      rfl
    · obtain ⟨j, rfl⟩ : ∃ j, i = j + 4 := ⟨i - 4, by omega⟩
      rw [List.getElem?_append_right (by omega), hlen, Nat.add_sub_cancel, ih, Nat.add_div_right j (by decide),
        Nat.add_mod_right, List.getElem?_cons_succ]

theorem unpackPayload_getElem? {len : Nat} {pay : List Word} (h : pay.length = ceilDiv len 4) {i : Nat} (hi : i < len) :
    ∃ w, pay[i / 4]? = some w ∧ (unpackPayload len pay)[i]? = some (w.extractLsb' (8 * (i % 4)) 8) := by
  have hword : i / 4 < pay.length := by have := ceilDiv_four_mul len; omega
  refine ⟨pay[i / 4], List.getElem?_eq_getElem hword, ?_⟩
  rw [unpackPayload, List.getElem?_take_of_lt hi, flatMap_wordBytes_getElem?, List.getElem?_eq_getElem hword]
  rfl

/-- Settles O4: both rows with a payload unpack it alike, and the example of rule R77 is computed. -/
theorem payloadBytePacking : Obligations.PayloadBytePacking := by
  refine ⟨fun c sid len pay hlen => ?_, rfl, rfl⟩
  have hcount : pay.length = ceilDiv len.toNat 4 := hlen
  exact ⟨unpackPayload len.toNat pay, decodeRequest_wrcmd sid len hcount, decodeRequest_load len hcount,
    unpackPayload_length_of_count hcount, fun _ hi => unpackPayload_getElem? hcount hi⟩

/-- Settles O3: each word is computed. -/
theorem specWordsDecode : Obligations.SpecWordsDecode := ⟨rfl, rfl, rfl, rfl, rfl, rfl, rfl, rfl, rfl⟩

/-! ## The assembler's pseudo-instructions -/

section Statements

variable (env : AsmEnv) (a b : String)

theorem statementWords_init :
    statementWords env "INIT" [a] = (byteOperand a).map fun v => requestWords (.init v) := rfl

theorem statementWords_push :
    statementWords env "PUSH" [a] = (byteOperand a).map fun v => requestWords (.push v) := rfl

theorem statementWords_loadrom :
    statementWords env "LOADROM" [b] =
      (namedBelow patternNames 65536 b).bind fun k => some (requestWords (.loadrom (BitVec.ofNat 16 k))) := rfl

theorem statementWords_demo :
    statementWords env "DEMO" [a, b] =
      (byteOperand a).bind fun v => (namedBelow patternNames 65536 b).bind fun k =>
        some (requestWords (.init v) ++ requestWords (.loadrom (BitVec.ofNat 16 k)) ++ requestWords (.push v)) := rfl

/-- Rule R82: `DEMO` is the words of its three requests, and no words where one operand is none. -/
theorem demo_expands :
    statementWords env "DEMO" [a, b] =
      (statementWords env "INIT" [a]).bind fun w1 => (statementWords env "LOADROM" [b]).bind fun w2 =>
        (statementWords env "PUSH" [a]).map fun w3 => w1 ++ w2 ++ w3 := by
  rw [statementWords_demo, statementWords_init, statementWords_loadrom, statementWords_push]
  cases byteOperand a with
  | none => rfl
  | some v => cases namedBelow patternNames 65536 b <;> rfl

end Statements

/-- Settles O5: where the expansion is one statement, both are read alike once its fixed operand is evaluated; `DEMO` is
three statements. -/
theorem pseudoInstructionsExpand : Obligations.PseudoInstructionsExpand :=
  fun env a b => ⟨rfl, rfl, rfl, rfl, rfl, rfl, rfl, rfl, rfl, rfl, rfl, demo_expands env a b⟩

/-! ## The acceptance of a request -/

theorem step_accepts {s : State} {w : Word} {pay rest : List Word} {i : Instr} (hR : Runs s) (hi : Idle s)
    (hp : Presents s w pay rest) (hd : decodeRequest w pay = .ok i) : step s = exec i { s with requests := rest } := by
  rw [step_eq_runStep hR.1 hR.2, runStep_idle hi, acceptStep_exec (presents_iff_fetchRequest.1 hp) hd]

theorem step_refuses {s : State} {w : Word} {pay rest : List Word} {r : DecodeReject} (hR : Runs s) (hi : Idle s)
    (hp : Presents s w pay rest) (hd : decodeRequest w pay = .error r) :
    step s = .next (refuseWord w { s with requests := rest }) := by
  rw [step_eq_runStep hR.1 hR.2, runStep_idle hi, acceptStep_refuse (presents_iff_fetchRequest.1 hp) hd]

/-- Settles O6: the words at the head of the port are what the accepting step fetches. -/
theorem stepRunsDecodedRequest : Obligations.StepRunsDecodedRequest :=
  fun _ _ _ _ _ hR hi hp hd => step_accepts hR hi hp hd

/-- The latches of an instruction are those its encoding's word writes (rule R76). -/
theorem latched_of_encode {c : CmdEnc} {i : Instr} {w : Word} {pay : List Word} (h : encode c i = .request w pay)
    (s : State) : latched i s = latchWord w s := by
  cases i with
  | plot mode x y => cases h; exact (latchWord_pWord mode x y s).symm
  | init | awake | scroll | wrcmd | load | loadrom | clear | push | rdfb | rdreg =>
    cases h; exact (latchWord_gWord _ _ _ s (by decide)).symm
  | reserved0 x | reservedC x | reservedD x | reservedE x | reservedF x =>
    cases h; exact (latchWord_reserved _ x s (by decide)).symm
  | _ => cases h

theorem latched_of_decodeRequest {w : Word} {pay : List Word} {i : Instr} (h : decodeRequest w pay = .ok i) (s : State) :
    latched i s = latchWord w s := by
  obtain ⟨pay', he, -⟩ := decodeRequest_reencodes CmdEnc.reference h
  exact latched_of_encode he s

/-- Every request at the head of the port of an idle block is accepted, a row of the table or not, and its outcome is one
from the state its word has latched. -/
theorem step_accepted {s : State} {w : Word} {pay rest : List Word} (hR : Runs s) (hi : Idle s)
    (hp : Presents s w pay rest) :
    ∃ t, step s = .next t ∧ RequestOutcome (latchWord w { s with requests := rest }) t := by
  cases hd : decodeRequest w pay with
  | ok i =>
    obtain ⟨t, ht, ho⟩ := exec_request i { s with requests := rest } (decodeRequest_notCommand hd)
    exact ⟨t, (step_accepts hR hi hp hd).trans ht, latched_of_decodeRequest hd _ ▸ ho⟩
  | error r => exact ⟨_, step_refuses hR hi hp hd, refuseWord_cases w _⟩

/-- The operands, the transaction counter and the port are as they were. -/
structure KeepsOperands (s t : State) : Prop where
  x0 : t.x0 = s.x0
  x1 : t.x1 = s.x1
  x2 : t.x2 = s.x2
  x3 : t.x3 = s.x3
  ntx : t.ntx = s.ntx
  requests : t.requests = s.requests

theorem requestOutcome_keepsOperands {l t : State} (h : RequestOutcome l t) : KeepsOperands l t := by
  cases h with
  | raised x _ _ ht => rw [ht]; constructor <;> simp
  | completed _ _ ht | written _ _ _ _ _ ht | initStarted _ ht | singleStarted _ _ _ ht | scrollStarted _ _ ht
  | pushStarted _ _ ht => rw [ht]; exact ⟨rfl, rfl, rfl, rfl, rfl, rfl⟩

/-- Settles O8: the outcome of a request keeps what its word has latched. -/
theorem decodingWritesLatches : Obligations.DecodingWritesLatches := by
  intro s w pay rest hR hi hp
  obtain ⟨t, ht, ho⟩ := step_accepted hR hi hp
  obtain ⟨h0, h1, h2, h3, hn, hr⟩ := requestOutcome_keepsOperands ho
  refine ⟨t, ht, ?_⟩
  by_cases h5 : wordOpc w = 0x5
  · simp only [latchWord, if_pos h5] at h0 h1 h2 h3 hn hr
    exact ⟨hr, hn, fun _ => ⟨h0, h1, h2, h3⟩, fun hne => absurd h5 hne⟩
  · simp only [latchWord, if_neg h5] at h0 h1 h2 h3 hn hr
    exact ⟨hr, hn, fun heq => absurd heq h5, fun _ => ⟨h0, h1, h2, h3⟩⟩

/-! ## Legality -/

theorem decodeRequest_count {w : Word} {pay : List Word} {i : Instr} (h : decodeRequest w pay = .ok i) :
    pay.length = payloadWords w := by
  by_contra hne
  rw [decodeRequest, if_pos hne] at h
  cases h

/-- No payload of 65536 bytes or more is as many words long as its sixteen bits of `LEN` say. -/
theorem length_lt_of_packed {bs : List Byte} (h : ceilDiv bs.length 4 = ceilDiv (payloadLen bs).toNat 4) :
    bs.length < 65536 := by
  rw [payloadLen, BitVec.toNat_ofNat] at h
  unfold ceilDiv at h
  omega

theorem decodeRequest_wf {w : Word} {pay : List Word} {i : Instr} (h : decodeRequest w pay = .ok i) : i.wf = true := by
  obtain ⟨pay', he, hlen, -⟩ := decodeRequest_reencodes CmdEnc.reference h
  have hcount := hlen.trans (decodeRequest_count h)
  cases i with
  | wrcmd sid bs =>
    cases he
    rw [packPayload_length, payloadWords_gWord _ _ _ (.inl rfl)] at hcount
    exact decide_eq_true (length_lt_of_packed hcount)
  | load bs =>
    cases he
    rw [packPayload_length, payloadWords_gWord _ _ _ (.inr rfl)] at hcount
    exact decide_eq_true (length_lt_of_packed hcount)
  | ccScrollRightCfg | ccScrollLeftCfg => cases he
  | _ => rfl

/-- A request is legal: the "legal when" column of rule R78 on the decoded operands (`legalWord_of_encode`). The reserved
opcodes are not, and a controller command is no request. -/
def legalInstr (c : Cfg) : Instr → Bool
  | .wrcmd _ pay => legalRaw pay
  | .plot mode _ _ => mode != 3
  | .loadrom k => decide (k.toNat < c.npat)
  | .rdfb ofs => decide (ofs.toNat < c.fbSize)
  | .init _ | .awake _ _ | .scroll _ _ | .load _ | .clear | .push _ | .rdreg _ => true
  | _ => false

/-- On a word that is the encoding of an instruction the two tables of rule R78 agree. -/
theorem legalWord_of_encode (c : Cfg) {e : CmdEnc} {i : Instr} {w : Word} {pay : List Word}
    (h : encode e i = .request w pay) (hw : i.wf = true) : legalWord c w = legalInstr c i := by
  cases i with
  | wrcmd sid bs =>
    have hl : bs.length < 65536 := of_decide_eq_true hw
    cases h
    unfold legalWord
    simp only [wordOpc_gWord, wordZG_gWord, wordArg_gWord, payloadLen_toNat bs hl, BitVec.reduceToNat]
    rfl
  | plot mode x y =>
    cases h
    unfold legalWord
    simp only [wordOpc_pWord, wordZP_pWord, wordMode_pWord, BitVec.reduceToNat]
    rfl
  | init | awake | scroll | load | loadrom | clear | push | rdfb | rdreg =>
    cases h
    unfold legalWord
    simp only [wordOpc_gWord, wordZG_gWord, wordSid_gWord, wordArg_gWord, awake_arg_le, rdreg_arg_le,
      BitVec.reduceToNat]
    rfl
  | reserved0 | reservedC | reservedD | reservedE | reservedF =>
    cases h
    unfold legalWord
    simp only [wordOpc_reserved, BitVec.reduceToNat]
    rfl
  | _ => cases h

/-- A word that is legal by rule R78's table is a row of the opcode table. -/
theorem decodes_of_legalWord {c : Cfg} {w : Word} {pay : List Word} (hlen : pay.length = payloadWords w)
    (h : legalWord c w = true) : ∃ i, decodeRequest w pay = .ok i := by
  have zero : (wordArg w).toNat = 0 → (wordArg w == 0) = true := fun ha => beq_iff_eq.2 (BitVec.eq_of_toNat_eq ha)
  rw [decodeRequest, if_neg (not_not.2 hlen)]
  unfold legalWord at h
  dsimp only at h
  split at h <;> simp only [Bool.and_eq_true, beq_iff_eq, decide_eq_true_eq, Bool.false_eq_true] at h
  next ho => obtain ⟨hz, ha⟩ := h; rw [ho]; exact ⟨_, checkG_ok _ hz nofun (zero ha)⟩
  next ho => obtain ⟨hz, ha⟩ := h; rw [ho]; exact ⟨_, checkG_ok _ hz nofun (decide_eq_true ha)⟩
  next ho => rw [ho]; exact ⟨_, checkG_ok _ h nofun rfl⟩
  next ho => obtain ⟨hz, -⟩ := h; rw [ho]; exact ⟨_, checkG_ok _ hz nofun rfl⟩
  next ho => obtain ⟨hz, -⟩ := h; rw [ho]; exact ⟨_, if_neg (not_not.2 hz)⟩
  next ho => obtain ⟨hz, hs⟩ := h; rw [ho]; exact ⟨_, checkG_ok _ hz (fun _ => hs) rfl⟩
  next ho => obtain ⟨⟨hz, hs⟩, -⟩ := h; rw [ho]; exact ⟨_, checkG_ok _ hz (fun _ => hs) rfl⟩
  next => rw [h]; exact ⟨.clear, rfl⟩
  next ho => obtain ⟨hz, ha⟩ := h; rw [ho]; exact ⟨_, checkG_ok _ hz nofun (zero ha)⟩
  next ho => obtain ⟨⟨hz, hs⟩, -⟩ := h; rw [ho]; exact ⟨_, checkG_ok _ hz (fun _ => hs) rfl⟩
  next ho => obtain ⟨⟨hz, hs⟩, ha⟩ := h; rw [ho]; exact ⟨_, checkG_ok _ hz (fun _ => hs) (decide_eq_true ha)⟩

/-- Where `t` has completed a request, the answer was not `E_ILLEGAL`. -/
def NotRefused (t : State) : Prop := t.phase = .idle → t.last ≠ .illegal

theorem respond_ok_notRefused (v : Half) (s : State) : NotRefused (respond .ok v s) := fun _ => by simp

theorem raise_notRefused {x : Exn} (hx : x ≠ .illegalRequest) (s : State) : NotRefused (raise x s) := by
  cases x with
  | illegalRequest => exact absurd rfl hx
  | _ => exact fun _ => nofun

section NotRefused

variable {body : State → State} {l : State}

/-- The gates of rule R207 other than the legality check never answer `E_ILLEGAL`. -/
theorem unlessHalted_notRefused (hb : NotRefused (body l)) : NotRefused (unlessHalted body l) := by
  unfold unlessHalted
  split
  · exact raise_notRefused (by simp) l
  · exact hb

theorem withFramebuffer_notRefused (hb : NotRefused (body l)) : NotRefused (withFramebuffer body l) := by
  unfold withFramebuffer
  split
  · exact hb
  · exact raise_notRefused (by simp) l

theorem ifLegal_notRefused {ok : Bool} (hok : ok = true) (hb : NotRefused (body l)) :
    NotRefused (ifLegal ok body l) := by
  rwa [ifLegal_of_legal body l hok]

end NotRefused

theorem startScroll_notRefused (dir : Half) (l : State) : NotRefused (startScroll dir l) := by
  unfold startScroll
  split
  · exact fun h => by cases h
  split
  · exact fun h => by cases h
  · exact respond_ok_notRefused 0 l

theorem plotBody_notRefused (mode : BitVec 2) (x y : Nat) (l : State) : NotRefused (plotBody mode x y l) := by
  unfold plotBody
  split
  · exact respond_ok_notRefused 0 l
  · exact withFramebuffer_notRefused (respond_ok_notRefused 0 _)

theorem loadBody_notRefused (pay : List Byte) (l : State) : NotRefused (loadBody pay l) := by
  unfold loadBody
  split
  · exact raise_notRefused (by simp) l
  · exact withFramebuffer_notRefused (respond_ok_notRefused 0 _)

/-- No legal request is answered `E_ILLEGAL`. -/
theorem exec_notRefused {i : Instr} {s : State} (h : legalInstr s.cfg i = true) :
    ∃ t, exec i s = .next t ∧ NotRefused t := by
  cases i with
  | init | awake => exact ⟨_, rfl, unlessHalted_notRefused nofun⟩
  | scroll sid dir => exact ⟨_, rfl, unlessHalted_notRefused (startScroll_notRefused dir _)⟩
  | wrcmd => exact ⟨_, rfl, unlessHalted_notRefused (ifLegal_notRefused h nofun)⟩
  | plot mode x y => exact ⟨_, rfl, unlessHalted_notRefused (ifLegal_notRefused h (plotBody_notRefused mode _ _ _))⟩
  | load pay => exact ⟨_, rfl, unlessHalted_notRefused (loadBody_notRefused pay _)⟩
  | loadrom =>
    exact ⟨_, rfl, unlessHalted_notRefused (ifLegal_notRefused h
      (withFramebuffer_notRefused (respond_ok_notRefused 0 _)))⟩
  | clear => exact ⟨_, rfl, unlessHalted_notRefused (withFramebuffer_notRefused (respond_ok_notRefused 0 _))⟩
  | push => exact ⟨_, rfl, unlessHalted_notRefused (withFramebuffer_notRefused nofun)⟩
  | rdfb =>
    exact ⟨_, rfl, unlessHalted_notRefused (ifLegal_notRefused h
      (withFramebuffer_notRefused (respond_ok_notRefused _ _)))⟩
  | rdreg => exact ⟨_, rfl, unlessHalted_notRefused (respond_ok_notRefused _ _)⟩
  | _ => cases h

/-- Settles O10: a legal word is a row of the opcode table whose operands are legal, and no such row is refused. -/
theorem legalRequestIsNotRefused : Obligations.LegalRequestIsNotRefused := by
  intro s w pay rest hR hready hp hl
  obtain ⟨i, hd⟩ := decodes_of_legalWord hp.2 hl
  obtain ⟨pay', he, -⟩ := decodeRequest_reencodes s.cfg.cmdEnc hd
  have hi : legalInstr s.cfg i = true := (legalWord_of_encode s.cfg he (decodeRequest_wf hd)).symm.trans hl
  rw [step_accepts hR hready.1 hp hd]
  exact exec_notRefused (s := { s with requests := rest }) hi

/-! ## The port of a busy block -/

theorem AdvanceOutcome.requests {s t : State} (h : AdvanceOutcome s t) : t.requests = s.requests := by
  cases h with
  | initCommand _ ht | columnWindow _ ht | pageWindow _ ht | chunk _ _ ht | lastChunk _ _ ht | scrollConfigured _ ht
  | lastCommand _ ht => exact (congrArg State.requests ht :)

theorem FillOutcome.requests {s t : State} (h : FillOutcome s t) : t.requests = s.requests := by
  cases h with
  | cleared _ ht | allocatedZero _ _ _ ht | allocatedAny _ _ _ ht | failed _ _ ht =>
    exact (congrArg State.requests ht :)

/-- Settles O12: only the steps of an idle block look at the port. -/
theorem busyBlockHoldsRequests : Obligations.BusyBlockHoldsRequests := by
  intro s t hR hbusy h
  cases step_kind h hR.2 with
  | answeredOk _ _ _ ho => exact ho.requests
  | answeredFail _ _ _ _ ht => rw [ht, raise_requests]; rfl
  | waited hi | executed _ _ _ _ hi | refused _ _ hi => exact absurd hi hbusy
  | filled _ _ ho => exact ho.requests
  | issued _ _ _ ht => exact (congrArg State.requests ht :)

/-! ## Completion -/

/-- Rules R205 and R80: between `s` and `t` no request completes, or one does, with one response word and its record. -/
inductive Completion (s t : State) : Prop where
  | none (hr : t.responses = s.responses) (hl : t.last = s.last) (hs : t.sticky = s.sticky)
  | one (code : ResultCode) (v : Half) (hr : t.responses = s.responses ++ [responseWord code v]) (hl : t.last = code)
      (hs : t.sticky = (s.sticky || decide (code ≠ .ok))) (hi : Idle t)

/-- Completion looks at the three records of a state alone. -/
theorem Completion.of_same {s l t : State} (h : Completion l t) (hr : l.responses = s.responses := by rfl)
    (hl : l.last = s.last := by rfl) (hs : l.sticky = s.sticky := by rfl) : Completion s t := by
  cases h with
  | none hr' hl' hs' => exact .none (hr'.trans hr) (hl'.trans hl) (hs'.trans hs)
  | one code v hr' hl' hs' hi => exact .one code v (hr ▸ hr') hl' (hs ▸ hs') hi

theorem respond_completion (code : ResultCode) (v : Half) (s : State) : Completion s (respond code v s) :=
  .one code v rfl rfl rfl ⟨rfl, rfl⟩

theorem raise_completion (x : Exn) (s : State) : Completion s (raise x s) := by
  refine .one x.resultCode 0 (raise_responses s x) (raise_last s x) ?_ ⟨raise_phase s x, raise_pend s x⟩
  rw [raise_sticky]
  cases x <;> simp [Exn.resultCode]

theorem requestOutcome_completion {l t : State} (h : RequestOutcome l t) : Completion l t := by
  cases h with
  | raised x _ _ ht => rw [ht]; exact raise_completion x l
  | completed v _ ht => rw [ht]; exact respond_completion .ok v l
  | written a bs _ _ _ ht => rw [ht]; exact (respond_completion .ok 0 { l with fb := writeBytes l.fb a bs }).of_same
  | initStarted _ ht | singleStarted _ _ _ ht | scrollStarted _ _ ht | pushStarted _ _ ht =>
    rw [ht]; exact .none rfl rfl rfl

theorem accepted_completion {s t : State} {f : State → State} {rest : List Word} (hf : Latches f)
    (ho : RequestOutcome (f { s with requests := rest }) t) : Completion s t := by
  obtain ⟨a, b, c, d, -, heq⟩ := hf
  rw [heq] at ho
  exact (requestOutcome_completion ho).of_same

theorem AdvanceOutcome.completion {s t : State} (h : AdvanceOutcome s t) : Completion s t := by
  cases h with
  | initCommand _ ht | columnWindow _ ht | pageWindow _ ht | chunk _ _ ht | scrollConfigured _ ht =>
    rw [ht]; exact .none rfl rfl rfl
  | lastChunk _ _ ht =>
    rw [ht]; exact (respond_completion .ok 0 { s with ofs := s.ofs + BitVec.ofNat 16 (chunkLen s) }).of_same
  | lastCommand _ ht => rw [ht]; exact respond_completion .ok 0 s

theorem FillOutcome.completion {s t : State} (h : FillOutcome s t) : Completion s t := by
  cases h with
  | cleared _ ht | allocatedZero _ _ _ ht | allocatedAny _ _ _ ht => rw [ht]; exact .none rfl rfl rfl
  | failed _ _ ht => rw [ht]; exact raise_completion .allocFail s

theorem step_completion {s t : State} (h : step s = .next t) (hr : s.resetLine = false) : Completion s t := by
  cases step_kind h hr with
  | answeredOk _ _ _ ho => exact ho.completion.of_same
  | answeredFail e rest _ _ ht => rw [ht]; exact (raise_completion _ (failTaken e rest s)).of_same
  | waited _ ht => rw [ht]; exact .none rfl rfl rfl
  | executed _ _ _ _ _ _ hd _ ho => exact accepted_completion (latched_latches (decodeRequest_notCommand hd)) ho
  | refused w _ _ ht => exact accepted_completion (latchWord_latches w) (ht ▸ refuseWord_cases w _)
  | filled _ _ ho => exact ho.completion
  | issued _ _ _ ht => rw [ht]; exact .none rfl rfl rfl

/-- Settles O49: each kind of step completes no request or one. -/
theorem completionRecordsTheResult : Obligations.CompletionRecordsTheResult := by
  intro s t h hr
  cases step_completion h hr with
  | none hr hl hs => exact .inl ⟨hr, hl, hs⟩
  | one code v hr hl hs hi => exact .inr ⟨code, v, hr, hl, hs, hi⟩

/-! ## The steps a request in execution still takes -/

/-- How many transactions the request in execution still needs, the one in flight among them (rule R248). -/
def txLeft (s : State) : Nat :=
  match s.phase with
  | .idle => 0
  | .initCmd => 17 - s.idx.toNat + (2 + chunkCount s.cfg)
  | .initFill | .winCol => 2 + chunkCount s.cfg
  | .winPage => 1 + chunkCount s.cfg
  | .stream => ceilDiv (s.cfg.fbSize - s.ofs.toNat) s.cfg.maxBlk.toNat
  | .scrollCfg => 2
  | .scrollAct | .single => 1

/-- How many fill steps (rule R122) the request in execution still needs. -/
def fillsLeft (s : State) : Nat :=
  match s.phase with
  | .initCmd | .initFill => 1
  | _ => 0

/-- How many steps the request in execution still needs: two a transaction, of which the one in flight has taken one. -/
def stepsLeft (s : State) : Nat := 2 * txLeft s + fillsLeft s - s.pend.toNat

theorem ceilDiv_pos {n m : Nat} (hn : 0 < n) (hm : 0 < m) : 0 < ceilDiv n m :=
  Nat.div_pos (by omega) hm

/-- A whole chunk less is one chunk less. -/
theorem ceilDiv_sub_self {n m : Nat} (hm : 0 < m) (h : m < n) : ceilDiv (n - m) m + 1 = ceilDiv n m := by
  unfold ceilDiv
  rw [← Nat.add_div_right _ hm]
  congr 1
  omega

theorem txLeft_pos {s : State} (hI : Inv s) (h : s.phase ≠ .idle) : 0 < txLeft s := by
  unfold txLeft
  split
  case h_1 hp => exact absurd hp h
  case h_6 hp =>
    have := hI.ofsStream hp
    have := maxBlk_ge hI.cfgWf
    exact ceilDiv_pos (by omega) (by omega)
  all_goals omega

theorem stepsLeft_pos {s : State} (hI : Inv s) (h : s.phase ≠ .idle) : 0 < stepsLeft s := by
  have := txLeft_pos hI h
  have := s.pend.toNat_le
  unfold stepsLeft
  omega

/-- Rule R248: no request sends more than `19 + ceil(N / MAXBLK)` transactions. -/
theorem txLeft_le (s : State) : txLeft s ≤ txBound s.cfg := by
  have hchunks : ceilDiv (s.cfg.fbSize - s.ofs.toNat) s.cfg.maxBlk.toNat ≤ chunkCount s.cfg :=
    Nat.div_le_div_right (by omega)
  unfold txLeft txBound
  split <;> omega

theorem stepsLeft_le (s : State) : stepsLeft s ≤ 2 * txBound s.cfg + 1 := by
  have htx := txLeft_le s
  have hfill : fillsLeft s ≤ 1 := by unfold fillsLeft; split <;> decide
  unfold stepsLeft
  omega

/-- What a step makes of a request in execution: it completes with one response, or it goes on with fewer steps to come and
with as many answers as before for the transactions to come. -/
inductive Progress (s t : State) : Prop where
  | completed (w : Word) (hi : Idle t) (hr : t.responses = s.responses ++ [w])
  | goesOn (hp : t.phase ≠ .idle) (hr : t.responses = s.responses) (hl : t.resetLine = s.resetLine)
      (hs : stepsLeft t < stepsLeft s) (ha : txLeft t + s.answers.length ≤ txLeft s + t.answers.length)

/-- What the advance of a phase makes of a request in execution: it completes, or one transaction fewer is to come. -/
inductive Advanced (s t : State) : Prop where
  | completed (w : Word) (hi : Idle t) (hr : t.responses = s.responses ++ [w])
  | goesOn (hp : t.phase ≠ .idle) (hr : t.responses = s.responses) (hl : t.resetLine = s.resetLine)
      (hpend : t.pend = s.pend) (ha : t.answers = s.answers) (htx : txLeft t + 1 = txLeft s)
      (hf : fillsLeft t ≤ fillsLeft s)

/-- The advance of each phase takes one transaction off those still needed, or ends the request. -/
theorem AdvanceOutcome.advanced {s t : State} (h : AdvanceOutcome s t) (hI : Inv s) : Advanced s t := by
  cases h with
  | initCommand hp ht =>
    have hidx := hI.idxCmd hp
    have hadd : (s.idx + 1).toNat = s.idx.toNat + 1 := by rw [BitVec.toNat_add]; simp; omega
    by_cases h17 : s.idx + 1 = 17
    · have h16 : s.idx.toNat = 16 := by rw [h17] at hadd; simpa using hadd.symm
      rw [ht, if_pos h17]
      refine .goesOn (by simp) rfl rfl rfl rfl ?_ (by simp [fillsLeft, hp])
      simp only [txLeft, hp, h16]
      omega
    · rw [ht, if_neg h17]
      refine .goesOn (by simp) rfl rfl rfl rfl ?_ (by simp [fillsLeft, hp])
      simp only [txLeft, hp, hadd]
      omega
  | columnWindow hp ht =>
    rw [ht]
    refine .goesOn (by simp) rfl rfl rfl rfl ?_ (by simp [fillsLeft, hp])
    simp only [txLeft, hp]
    omega
  | pageWindow hp ht =>
    rw [ht]
    refine .goesOn (by simp) rfl rfl rfl rfl ?_ (by simp [fillsLeft, hp])
    simp [txLeft, hp, chunkCount, Nat.add_comm]
  | chunk hp hne ht =>
    have hofs := ofs_add hI.cfgWf hI.ofsLe
    have hblk := maxBlk_ge hI.cfgWf
    obtain ⟨hwhole, hmore⟩ : chunkLen s = s.cfg.maxBlk.toNat ∧ s.cfg.maxBlk.toNat < s.cfg.fbSize - s.ofs.toNat := by
      have hlt := hI.ofsStream hp
      rw [hofs] at hne
      unfold chunkLen at hne ⊢
      omega
    rw [ht]
    refine .goesOn (by simp [hp]) rfl rfl rfl rfl ?_ (le_refl _)
    simp only [txLeft, hp, hofs.trans (congrArg _ hwhole), ← Nat.sub_sub]
    exact ceilDiv_sub_self (by omega) hmore
  | lastChunk _ _ ht => rw [ht]; exact .completed _ ⟨rfl, rfl⟩ rfl
  | scrollConfigured hp ht =>
    rw [ht]
    exact .goesOn (by simp) rfl rfl rfl rfl (by simp [txLeft, hp]) (by simp [fillsLeft, hp])
  | lastCommand _ ht => rw [ht]; exact .completed _ ⟨rfl, rfl⟩ rfl

theorem FillOutcome.progress {s t : State} (h : FillOutcome s t) (hp : s.phase = .initFill) (hpend : s.pend = false) :
    Progress s t := by
  have hsteps : stepsLeft s = 2 * (2 + chunkCount s.cfg) + 1 := by simp [stepsLeft, txLeft, fillsLeft, hp, hpend]
  cases h with
  | cleared _ ht | allocatedZero _ _ _ ht | allocatedAny _ _ _ ht =>
    rw [ht]
    refine .goesOn (by simp) rfl rfl ?_ (by simp [txLeft, hp])
    rw [hsteps]
    simp [stepsLeft, txLeft, fillsLeft, hpend]
  | failed _ _ ht => rw [ht]; exact .completed _ ⟨rfl, rfl⟩ rfl

/-- Each kind of step of a busy block brings its request nearer to its end. -/
theorem step_progress {s t : State} (hI : Inv s) (hr : s.resetLine = false) (hb : s.phase ≠ .idle)
    (h : step s = .next t) : Progress s t := by
  have hpos := txLeft_pos hI hb
  cases step_kind h hr with
  | answeredOk rest hp ha ho =>
    cases ho.advanced (okTaken_inv hI hp rest) with
    | completed w hi hr => exact .completed w hi hr
    | goesOn hpt hr hl hpend hat htx hf =>
      have htx : txLeft t + 1 = txLeft s := htx
      have hf : fillsLeft t ≤ fillsLeft s := hf
      refine .goesOn hpt hr hl ?_ ?_
      · simp only [stepsLeft, hpend, hp, okTaken, Bool.toNat_false, Bool.toNat_true]
        omega
      · simp only [hat, ha, okTaken, List.length_cons]
        omega
  | answeredFail e rest _ _ ht => rw [ht]; exact .completed _ ⟨rfl, rfl⟩ rfl
  | waited hi | executed _ _ _ _ hi | refused _ _ hi => exact absurd hi.1 hb
  | filled hp hph ho => exact ho.progress hph hp
  | issued tx hp hph ht =>
    have htx : txLeft (issue tx s) = txLeft s := rfl
    have hf : fillsLeft (issue tx s) = fillsLeft s := rfl
    rw [ht]
    refine .goesOn hb rfl rfl ?_ (by rw [htx]; exact le_refl _)
    simp only [stepsLeft, htx, hf, hp, issue_pend, Bool.toNat_false, Bool.toNat_true]
    omega

/-- A busy block has a step where the transport answers (rule R220). -/
theorem step_exists {s : State} (hI : Inv s) (hr : s.resetLine = false) (hb : s.phase ≠ .idle) (ha : s.answers ≠ []) :
    ∃ t, step s = .next t := by
  rw [step_eq_runStep hI.cfgWf hr]
  cases hp : s.pend with
  | true =>
    rw [runStep_pend hp]
    unfold answerStep
    split
    case h_1 h => exact absurd h ha
    case h_2 rest _ =>
      obtain ⟨-, hf⟩ | ⟨t, ht, -⟩ := advance_cases (okTaken rest s)
      · exact absurd hf (not_or.2 (hI.pendPhase hp))
      · exact ⟨t, ht⟩
    case h_3 => exact ⟨_, rfl⟩
  | false =>
    by_cases hf : s.phase = .initFill
    · exact ⟨_, runStep_fill hf hp⟩
    · obtain ⟨tx, -, hs⟩ := issueStep_txOf ⟨hb, hf⟩ hI.idxCmd
        (fun h => ⟨hI.allocPhase (.inr (.inr h)), hI.ofsStream h⟩)
        (fun h hc => by have := hI.clenPos (.inr h); rw [hc] at this; simp at this)
      exact ⟨_, (runStep_issue ⟨hb, hf⟩ hp).trans hs⟩

/-- A request in execution completes, by induction on the steps it still needs. -/
theorem completes_within (n : Nat) : ∀ s : State, Inv s → s.resetLine = false → s.phase ≠ .idle →
    txLeft s ≤ s.answers.length → stepsLeft s ≤ n →
    ∃ k ≤ n, ∃ t w, runSteps k s = .next t ∧ Idle t ∧ t.responses = s.responses ++ [w] := by
  induction n with
  | zero => intro s hI _ hb _ hn; have := stepsLeft_pos hI hb; omega
  | succ n ih =>
    intro s hI hr hb ha hn
    have hne : s.answers ≠ [] := List.ne_nil_of_length_pos (by have := txLeft_pos hI hb; omega)
    obtain ⟨u, hu⟩ := step_exists hI hr hb hne
    cases step_progress hI hr hb hu with
    | completed w hi hw => exact ⟨1, by omega, u, w, runSteps_succ hu 0, hi, hw⟩
    | goesOn hbu hru hl hs hau =>
      obtain ⟨k, hk, t, w, ht, hi, hw⟩ := ih u (step_inv hI hu) (hl.trans hr) hbu (by omega) (by omega)
      exact ⟨k + 1, by omega, t, w, (runSteps_succ hu k).trans ht, hi, by rw [hw, hru]⟩

/-- Settles O53: the steps a request still needs are at most `2 * txBound + 1`. -/
theorem requestsComplete : Obligations.RequestsComplete := by
  intro s hI hr hbusy ha
  have hb : s.phase ≠ .idle := fun hp =>
    hbusy ⟨hp, Bool.eq_false_iff.2 fun hpend => (hI.pendPhase hpend).1 hp⟩
  exact completes_within _ s hI hr hb ((txLeft_le s).trans ha) (stepsLeft_le s)

/-! ## The forms of the transactions -/

theorem session_of_setWidth {x : Half} (h : x.toNat < 256) : (x.setWidth 8).setWidth 16 = x := by
  refine BitVec.eq_of_toNat_eq ?_
  rw [BitVec.toNat_setWidth, BitVec.toNat_setWidth]
  omega

theorem initBytes_length_bounds (c : Cfg) : ∀ bs ∈ initBytes c, 1 ≤ bs.length ∧ bs.length ≤ 7 := by simp [initBytes]

/-- A transaction for the state's session: a command of 1 to 7 bytes, or a chunk of the stream (rules R90 and R91). -/
inductive TxForm (s : State) (tx : Tx) : Prop where
  | command (bs : List Byte) (hlen : 1 ≤ bs.length ∧ bs.length ≤ 7) (htx : tx = cmdTx (s.x0.setWidth 8) bs)
  | chunk (bs : List Byte) (hlen : 1 ≤ bs.length ∧ bs.length ≤ s.cfg.maxBlk.toNat) (hp : s.phase = .stream)
      (htx : tx = ⟨.block, s.x0.setWidth 8, .data, bs⟩)

theorem txOf_form {s : State} {tx : Tx} (hI : Inv s) (h : txOf s = some tx) : TxForm s tx := by
  unfold txOf at h
  dsimp only at h
  split at h
  case h_1 | h_3 => cases h
  case h_2 =>
    obtain ⟨bs, hbs, rfl⟩ := List.mem_map.1 (List.mem_of_getElem? h)
    exact .command bs (initBytes_length_bounds s.cfg bs hbs) rfl
  case h_4 | h_5 | h_7 | h_8 =>
    refine .command tx.bytes ?_ ?_ <;> cases h
    · simp
    · rfl
  case h_6 hp =>
    cases h
    refine .chunk _ ?_ hp rfl
    have hofs := hI.ofsStream hp
    have hblk := maxBlk_ge hI.cfgWf
    rw [List.length_map, List.length_range]
    omega
  case h_9 hp =>
    cases h
    refine .command _ ?_ rfl
    have hlen := commandBuffer_length s
    have hpos := hI.clenPos (.inr hp)
    have hlt := s.clen.isLt
    simp only [commandBuffer, CBuf.toList] at hlen
    rw [hlen]
    omega

/-- Every controller command is one transaction on the command channel, and nothing else (rule R113). -/
theorem exec_of_encode_command {s : State} {i : Instr} {bs : List Byte} (h : encode s.cfg.cmdEnc i = .command bs) :
    exec i s = .next (issue (cmdTx (s.x0.setWidth 8) bs) s) := by
  have hi : i.isCommand = true := by cases i <;> first | rfl | cases h
  rw [exec_command i s hi, ← encode_command h, issueCommand, commandTx_eq]

/-- Settles O16: each phase issues a command or a chunk, and a command of the table is issued as it is. -/
theorem transactionForms : Obligations.TransactionForms := by
  refine ⟨fun s tx hI h => ?_, fun s i bs h => ?_, fun c sid b0 b1 => rfl⟩
  · have hsid := session_of_setWidth hI.sidByte
    cases txOf_form hI h with
    | command bs hlen htx =>
      rw [htx]
      exact ⟨hsid, hlen.1, hlen.2.trans (maxBlk_ge hI.cfgWf), fun _ => rfl, nofun⟩
    | chunk bs hlen hp htx =>
      rw [htx]
      exact ⟨hsid, hlen.1, hlen.2, nofun, fun _ => ⟨rfl, hp⟩⟩
  · exact ⟨_, _, exec_of_encode_command h, rfl, rfl, rfl⟩

/-- Settles O27: the issue of rule R113, with the kind by the length. -/
theorem controllerCommandsAreSent : Obligations.ControllerCommandsAreSent :=
  fun _ _ _ h => exec_of_encode_command h

/-! ## Requests done in one step -/

/-- An exception of an idle block that is no transport failure: the record of rule R205, and `HALT` for a fatal one. -/
theorem raise_of_idle {s : State} (h : Idle s) {x : Exn} (hx : x.record s = s) :
    raise x s = { s with halt := s.halt || x.fatal, last := x.resultCode, sticky := true,
                         responses := s.responses ++ [responseWord x.resultCode 0] } := by
  obtain ⟨hph, hp⟩ := h
  have hcode : x.resultCode ≠ .ok := by cases x <;> exact nofun
  simp only [raise, hx, respond, recordCode, hcode, ← hph, ← hp, ne_eq, not_false_eq_true, decide_true, Bool.or_true]

theorem raise_illegal_of_idle {s : State} (h : Idle s) :
    raise .illegalRequest s = { s with last := .illegal, sticky := true, responses := s.responses ++ [0x50000000] } := by
  rw [raise_of_idle h rfl]
  simp only [Exn.fatal, Bool.or_false]
  rfl

theorem ifLegal_of_illegal {ok : Bool} (body : State → State) (l : State) (h : ok = false) :
    ifLegal ok body l = raise .illegalRequest l := by
  simp [ifLegal, h]

section Done

variable {s : State} (h : Ready s) (sid : Byte) (arg : Half)
include h

/-- Rules R76 and R203: a ready block that refuses a word of format G. -/
theorem raise_illegal_latchG :
    raise .illegalRequest (latchG sid arg s) =
      { s with x0 := sid.setWidth 16, x1 := arg, x2 := 0, x3 := 0, ntx := 0, last := .illegal, sticky := true,
               responses := s.responses ++ [0x50000000] } :=
  raise_illegal_of_idle (s := latchG sid arg s) h.1

/-- The gates of steps 1 and 2 of rule R207 for a request that is legal. -/
theorem accept_legal {ok : Bool} (hok : ok = true) (body : State → State) :
    unlessHalted (ifLegal ok body) (latchG sid arg s) = body (latchG sid arg s) := by
  rw [unlessHalted_of_running (l := latchG sid arg s) _ h.2, ifLegal_of_legal _ _ hok]

theorem accept_illegal {ok : Bool} (hok : ok = false) (body : State → State) :
    unlessHalted (ifLegal ok body) (latchG sid arg s) =
      { s with x0 := sid.setWidth 16, x1 := arg, x2 := 0, x3 := 0, ntx := 0, last := .illegal, sticky := true,
               responses := s.responses ++ [0x50000000] } := by
  rw [unlessHalted_of_running (l := latchG sid arg s) _ h.2, ifLegal_of_illegal _ _ hok, raise_illegal_latchG h]

/-- A request that overwrites the framebuffer of a ready block and completes (rules R146, R150 and R181). -/
theorem overwrite_latchG (ha : s.fbAlloc = true) (bs : State → List Byte) :
    withFramebuffer (fun t => respond .ok 0 (overwriteFb (bs t) t)) (latchG sid arg s) =
      { s with fb := writeBytes s.fb 0 (bs (latchG sid arg s)), x0 := sid.setWidth 16, x1 := arg, x2 := 0, x3 := 0,
               ntx := 0, last := .ok, responses := s.responses ++ [0x00000000] } := by
  rw [withFramebuffer_of_alloc (l := latchG sid arg s) _ ha]
  exact respond_ok_of_idle (s := overwriteFb (bs (latchG sid arg s)) (latchG sid arg s)) h.1 0

end Done

/-- Settles O26: the five meanings are one refusal. -/
theorem reservedOpcodesAreRefused : Obligations.ReservedOpcodesAreRefused := by
  intro s x i h hi
  have hrefuse := (unlessHalted_of_running (l := latchG (x.extractLsb' 16 8) (x.extractLsb' 0 16) s)
    (raise .illegalRequest) h.2).trans (raise_illegal_latchG h _ _)
  rcases hi with rfl | rfl | rfl | rfl | rfl <;> exact congrArg _ hrefuse

/-- Settles O39: the legality of the offset is looked at before the allocation. -/
theorem readFramebufferByte : Obligations.ReadFramebufferByte := by
  intro s ofs h
  refine ⟨fun hofs ha => congrArg Host.Outcome.next ?_, fun hofs => congrArg Host.Outcome.next ?_⟩
  · rw [accept_legal h 0 ofs (decide_eq_true hofs), withFramebuffer_of_alloc (l := latchG 0 ofs s) _ ha,
      respond_ok_of_idle (s := latchG 0 ofs s) h.1, BitVec.setWidth_setWidth (by decide)]
    rfl
  · exact accept_illegal h 0 ofs (decide_eq_false (Nat.not_lt.2 hofs)) _

theorem patternBytes_eq {c : Cfg} {k : Nat} (h : k < c.patterns.length) : c.patterns[k]? = some (patternBytes c k) := by
  rw [patternBytes, List.getD_eq_getElem?_getD, List.getElem?_eq_getElem h]
  rfl

/-- A read of an overwritten framebuffer, inside it. -/
theorem readByte_overwritten (m : Memory) {bs : List Byte} {a : Nat} (h : a < bs.length) :
    some (readByte (writeBytes m 0 bs) a) = bs[a]? := by
  have hread := readByte_writeBytes_inside m 0 bs a h
  rw [Nat.zero_add] at hread
  rw [hread, List.getElem?_eq_getElem h]

/-- Settles O35: a legal pattern has `N` bytes, and each is read back where it was written. -/
theorem loadRomOverwritesTheFramebuffer : Obligations.LoadRomOverwritesTheFramebuffer := by
  intro s k hc h
  refine ⟨fun hk ha => ?_, fun hk => congrArg Host.Outcome.next ?_⟩
  · have hlen : (patternBytes s.cfg k.toNat).length = s.cfg.fbSize := patternBytes_length hc hk
    refine ⟨_, congrArg Host.Outcome.next ((accept_legal h 0 k (decide_eq_true hk) _).trans
      (overwrite_latchG h 0 k ha _)), rfl, fun a hlt => ?_, fun a hge => ?_⟩
    · exact ⟨_, patternBytes_eq hk, readByte_overwritten _ (hlen.symm ▸ hlt)⟩
    · exact readByte_writeBytes_outside _ _ _ _ (.inr (by rw [Nat.zero_add]; exact hlen.symm ▸ hge))
  · exact accept_illegal h 0 k (decide_eq_false (Nat.not_lt.2 hk)) _

/-! ## The acceptance of `SCROLL` -/

theorem sessionOf_latchG (sid : Byte) (arg : Half) (s : State) : sessionOf (latchG sid arg s) = sid := by
  simp [sessionOf]

theorem exec_scroll {s : State} (h : Ready s) (sid : Byte) (dir : Half) :
    exec (.scroll sid dir) s = .next (startScroll dir (latchG sid dir s)) :=
  congrArg Host.Outcome.next (unlessHalted_of_running _ h.2)

/-- Settles O23: the command buffer is loaded with the deactivate command or with the seven bytes of rule R95. -/
theorem scrollIsAccepted : Obligations.ScrollIsAccepted := by
  intro s sid h
  refine ⟨?_, fun dir hdir => ?_⟩
  · refine ⟨startSingle [s.cfg.cmdEnc.deactivateScroll] (latchG sid 0 s), exec_scroll h sid 0, rfl, ?_⟩
    rw [txOf_startSingle _ (by simp), sessionOf_latchG]
    rfl
  · have hne : dir ≠ 0 := by rcases hdir with rfl | rfl <;> decide
    refine ⟨_, (exec_scroll h sid dir).trans (congrArg _ ((if_neg hne).trans (if_pos hdir))), rfl, ?_⟩
    change some (Tx.mk .block (sessionOf (latchG sid dir s)) .cmd _) = _
    rw [sessionOf_latchG]
    rfl

end Sys2Proof.Proofs

/-! # Device protocol (`40_device_protocol.md`): the sequencer's steps, the requests it carries, and whole runs -/

namespace Sys2Proof.Proofs

open Sys2Proof.Machine Sys2Proof.Laws

/-! ## The issue step -/

/-- Rule R113 under the invariant: a phase that issues, with nothing in flight, sends what `TxOf` gives it. -/
theorem step_issues {s : State} (hI : Inv s) (hr : s.resetLine = false) (hp : s.pend = false) (hph : Issuing s.phase) :
    ∃ tx, txOf s = some tx ∧ step s = .next (issue tx s) := by
  obtain ⟨tx, htx, hs⟩ := issueStep_txOf hph hI.idxCmd (fun h => ⟨hI.allocPhase (.inr (.inr h)), hI.ofsStream h⟩)
    (fun h hc => by have := hI.clenPos (.inr h); simp [hc] at this)
  exact ⟨tx, htx, by rw [step_eq_runStep hI.cfgWf hr, runStep_issue hph hp, hs]⟩

/-- Settles O15: the phases other than `IDLE` and `INIT_FILL` are the issuing ones. -/
theorem issueStepSendsTxOf : Obligations.IssueStepSendsTxOf :=
  fun _ hI hr hp hidle hfill => step_issues hI hr hp ⟨hidle, hfill⟩

/-! ## The answer step -/

/-- Rule R114: the advance of the phase, on the state in which the answer has been taken. -/
theorem step_answered_ok {s : State} {more : List Answer} (hR : Runs s) (hp : s.pend = true)
    (ha : s.answers = .ok :: more) : step s = advance (okTaken more s) := by
  rw [step_eq_runStep hR.1 hR.2, runStep_pend hp, answerStep, ha]
  rfl

/-- Rule R115: the exception, on the state in which the answer has been taken. -/
theorem step_answered_fail {s : State} {e : Half} {more : List Answer} (hR : Runs s) (hp : s.pend = true)
    (ha : s.answers = .fail e :: more) : step s = .next (raise (.transportFail e) (failTaken e more s)) := by
  rw [step_eq_runStep hR.1 hR.2, runStep_pend hp, answerStep, ha]
  rfl

/-- Rule R205: the completion with `E_OK` in one equation. -/
theorem respond_ok_eq (v : Half) (s : State) :
    respond .ok v s = { s with last := .ok, responses := s.responses ++ [v.setWidth 32], phase := .idle,
                               pend := false } := by
  simp [respond, recordCode, responseWord_ok]

/-- Rules R200 to R205: every exception in one equation. -/
theorem raise_eq (x : Exn) (s : State) :
    raise x s = { x.record s with halt := s.halt || x.fatal, last := x.resultCode, sticky := true,
                                  responses := s.responses ++ [responseWord x.resultCode 0], phase := .idle,
                                  pend := false } := by
  cases x <;> simp [raise, respond, recordCode, Exn.record, Exn.resultCode]

theorem responseWord_transport : responseWord .transport 0 = 0x10000000 := by decide

/-- Settles O18: the exception of rule R201, which is not fatal, with the answer in the latest entry of the trace. -/
theorem answerFailAborts : Obligations.AnswerFailAborts := by
  intro s e more done tx hR hp ha htr
  rw [step_answered_fail hR hp ha, raise_eq]
  simp only [failTaken, htr, answerLatest_append, Exn.record, Exn.fatal, Bool.or_false, Exn.resultCode,
    responseWord_transport]

section Advance

variable {s : State}

theorem advance_initCmd (h : s.phase = .initCmd) :
    advance s = .next { s with idx := s.idx + 1, phase := if s.idx + 1 = 17 then .initFill else .initCmd } := by
  simp [advance, h]

theorem advance_winCol (h : s.phase = .winCol) : advance s = .next { s with phase := .winPage } := by
  simp [advance, h]

theorem advance_winPage (h : s.phase = .winPage) : advance s = .next { s with phase := .stream, ofs := 0 } := by
  simp [advance, h]

theorem advance_scrollCfg (h : s.phase = .scrollCfg) : advance s = .next { s with phase := .scrollAct } := by
  simp [advance, h]

theorem advance_lastCommand (h : s.phase = .scrollAct ∨ s.phase = .single) : advance s = .next (respond .ok 0 s) := by
  rcases h with h | h <;> simp [advance, h]

/-- Rules R165 and R166, with `o` the new `OFS`: the stream ends where it reaches `N`. -/
theorem advance_stream {o : Half} (h : s.phase = .stream) (ho : s.ofs + BitVec.ofNat 16 (chunkLen s) = o) :
    advance s = .next (if o.toNat = s.cfg.fbSize then respond .ok 0 { s with ofs := o } else { s with ofs := o }) := by
  simp [advance, h, ← ho]

end Advance

/-- Rule R114, "nothing else changes": what no advance touches. -/
theorem AdvanceOutcome.frame {s t : State} (h : AdvanceOutcome s t) (hp : s.pend = false) :
    t = { s with pend := false, phase := t.phase, idx := t.idx, ofs := t.ofs, last := t.last,
                 responses := t.responses } := by
  cases h with
  | initCommand _ ht | columnWindow _ ht | pageWindow _ ht | chunk _ _ ht | scrollConfigured _ ht =>
    rw [ht, ← hp]
  | lastChunk _ _ ht | lastCommand _ ht => rw [ht, respond_ok_eq]

/-- Rule R114: an advance that reaches `IDLE` completes the request with `E_OK`, and no other touches the records. -/
theorem AdvanceOutcome.records {s t : State} (h : AdvanceOutcome s t) :
    (t.phase = .idle → t.last = .ok ∧ t.responses = s.responses ++ [0x00000000]) ∧
      (t.phase ≠ .idle → t.last = s.last ∧ t.responses = s.responses) := by
  cases h with
  | initCommand _ ht =>
    rw [ht]
    exact ⟨fun h => (by simp only at h; split at h <;> cases h), fun _ => ⟨rfl, rfl⟩⟩
  | columnWindow _ ht | pageWindow _ ht | scrollConfigured _ ht =>
    rw [ht]
    exact ⟨fun h => (by cases h), fun _ => ⟨rfl, rfl⟩⟩
  | chunk hph _ ht => rw [ht]; exact ⟨fun h => (by rw [hph] at h; cases h), fun _ => ⟨rfl, rfl⟩⟩
  | lastChunk _ _ ht | lastCommand _ ht =>
    rw [ht, respond_ok_eq]
    exact ⟨fun _ => ⟨rfl, rfl⟩, fun h => absurd rfl h⟩

theorem idx_succ_toNat {i : BitVec 5} (h : i.toNat ≤ 16) : (i + 1).toNat = i.toNat + 1 :=
  BitVec.toNat_add_of_lt (show i.toNat + 1 < 32 by omega)

theorem idx_succ_eq_iff {i : BitVec 5} (h : i.toNat ≤ 16) : i + 1 = 17 ↔ i.toNat + 1 = 17 := by
  rw [← BitVec.toNat_inj, idx_succ_toNat h]
  rfl

/-- Settles O17: the frame and the records are those of every advance, and each phase has its own equation. -/
theorem answerOkAdvances : Obligations.AnswerOkAdvances := by
  intro s more done tx hI hr hp ha htr
  have hstep := step_answered_ok ⟨hI.cfgWf, hr⟩ hp ha
  obtain ⟨-, hf⟩ | ⟨t, hadv, ho⟩ := advance_cases (okTaken more s)
  · exact absurd hf (not_or.2 (hI.pendPhase hp))
  have of_advance : ∀ {u}, advance (okTaken more s) = .next u → t = u := fun hu => by simpa [hadv] using hu
  have hframe := ho.frame rfl
  obtain ⟨hidle, hbusy⟩ := ho.records
  have hntx : t.ntx = s.ntx + 1 := congrArg State.ntx hframe
  refine ⟨t, hstep.trans hadv, hntx, congrArg State.pend hframe, ?_, hidle, hbusy,
    fun hph => ?_, fun hph => ?_, fun hph => ?_, fun hph => ?_, fun hph => ?_, fun hph => ?_⟩
  · simpa only [hntx, okTaken, htr, answerLatest_append] using hframe
  · have hidx := hI.idxCmd hph
    rw [of_advance (advance_initCmd hph)]
    exact ⟨idx_succ_toNat hidx, rfl, by simp only [okTaken, idx_succ_eq_iff hidx]⟩
  · rw [of_advance (advance_winCol hph)]
    exact ⟨rfl, rfl, rfl⟩
  · rw [of_advance (advance_winPage hph)]
    exact ⟨rfl, rfl, rfl⟩
  · have hofs := ofs_add (s := okTaken more s) hI.cfgWf hI.ofsLe
    rw [of_advance (advance_stream hph rfl)]
    split
    · exact ⟨rfl, hofs, (if_pos ‹_›).symm⟩
    · exact ⟨rfl, hofs, by rw [if_neg ‹_›]; exact hph⟩
  · rw [of_advance (advance_scrollCfg hph)]
    exact ⟨rfl, rfl, rfl⟩
  · rw [of_advance (advance_lastCommand hph)]
    exact ⟨rfl, rfl, rfl⟩

/-! ## The fill step -/

theorem step_fills {s : State} (hR : Runs s) (hph : s.phase = .initFill) (hp : s.pend = false) :
    step s = .next (fillStep s) := by
  rw [step_eq_runStep hR.1 hR.2, runStep_fill hph hp]

/-- An overwritten framebuffer is as it was outside its `N` bytes. -/
theorem readByte_overwritten_outside (m : Memory) {bs : List Byte} {n a : Nat} (hl : bs.length = n) (ha : n ≤ a) :
    readByte (writeBytes m 0 bs) a = readByte m a :=
  readByte_writeBytes_outside m 0 bs a (.inr (by omega))

theorem fillStep_of_alloc {s : State} (ha : s.fbAlloc = true) :
    fillStep s = { s with fb := writeBytes s.fb 0 (zeroBytes s.cfg), phase := .winCol } := by
  rw [fillStep, if_pos ha]
  rfl

theorem fillStep_of_unavailable {s : State} (ha : s.fbAlloc = false) (hv : s.cfg.allocAvailable = false) :
    fillStep s = raise .allocFail s := by
  simp [fillStep, ha, hv]

/-- The first allocation writes `N` bytes, zeros where `FIRST_INIT_FILL = zero`. -/
theorem fillStep_of_available {s : State} (ha : s.fbAlloc = false) (hv : s.cfg.allocAvailable = true) :
    ∃ bs d, bs.length = s.cfg.fbSize ∧ (s.cfg.firstInitFill = .zero → bs = zeroBytes s.cfg) ∧
      fillStep s = { s with fb := writeBytes s.fb 0 bs, fbAlloc := true, phase := .winCol, draws := d } := by
  cases hf : s.cfg.firstInitFill with
  | zero =>
    exact ⟨zeroBytes s.cfg, s.draws, zeroBytes_length s.cfg, fun _ => rfl, by simp [fillStep, ha, hv, hf, overwriteFb]⟩
  | any =>
    exact ⟨freeBytes s.cfg s.draws, s.draws + 1, freeBytes_length s.cfg s.draws, nofun,
      by simp [fillStep, ha, hv, hf, overwriteFb]⟩

/-- Settles O20: the three cases of rule R122. -/
theorem fillStepEffect : Obligations.FillStepEffect := by
  intro s hR hph hp
  rw [step_fills hR hph hp]
  refine ⟨fun ha hv => ?_, fun ha hv => ?_, fun ha => ?_⟩
  · rw [fillStep_of_unavailable ha hv, raise_eq, ← hp]
    simp only [Exn.fatal, Bool.or_true]
    rfl
  · obtain ⟨bs, d, hlen, hzero, hfill⟩ := fillStep_of_available ha hv
    rw [hfill]
    exact ⟨_, rfl, rfl, fun hf a hlt => by rw [hzero hf]; exact readByte_zeroBytes s.cfg s.fb a hlt,
      fun a => readByte_overwritten_outside s.fb hlen⟩
  · rw [fillStep_of_alloc ha]
    exact ⟨_, rfl, rfl, fun a => readByte_zeroBytes s.cfg s.fb a,
      fun a => readByte_overwritten_outside s.fb (zeroBytes_length s.cfg)⟩

/-! ## The ordinals -/

/-- A request starts its sequence with transaction 0. -/
theorem requestOutcome_ordinals {l t : State} (h : RequestOutcome l t) (hn : l.ntx = 0) : Ordinals t := by
  cases h with
  | raised x _ _ ht => rw [ht]; exact ordinals_of_idle (raise_phase l x)
  | completed _ _ ht | written _ _ _ _ _ ht => rw [ht]; exact ordinals_of_idle rfl
  | initStarted _ ht | singleStarted _ _ _ ht | scrollStarted _ _ ht | pushStarted _ _ ht =>
    rw [ht]
    constructor <;> simp [hn]

theorem accepted_ordinals {s t : State} {f : State → State} {rest : List Word} (hf : Latches f)
    (ho : RequestOutcome (f { s with requests := rest }) t) : Ordinals t := by
  obtain ⟨a, b, c, d, -, heq⟩ := hf
  rw [heq] at ho
  exact requestOutcome_ordinals ho rfl

theorem FillOutcome.ordinals {s t : State} (h : FillOutcome s t) (hph : s.phase = .initFill) (ho : Ordinals s) :
    Ordinals t := by
  have hn := ho.initFill hph
  cases h with
  | cleared _ ht | allocatedZero _ _ _ ht | allocatedAny _ _ _ ht => rw [ht]; constructor <;> simp [hn]
  | failed _ _ ht => rw [ht]; exact ordinals_of_idle (raise_phase s .allocFail)

/-- No request counts so far that the sixteen bits of `NTX` wrap (rule R248 bounds it by `19 + N`). -/
theorem ntx_succ_toNat {s : State} (hI : Inv s) (ho : Ordinals s) (hb : s.phase ≠ .idle) :
    (s.ntx + 1).toNat = s.ntx.toNat + 1 := by
  have hlt : s.ntx.toNat ≤ 19 + 8192 := by
    cases hph : s.phase with
    | idle => exact absurd hph hb
    | initCmd => have := ho.initCmd hph; have := hI.idxLe; omega
    | initFill => have := ho.initFill hph; omega
    | winCol => have := ho.winCol hph; omega
    | winPage => have := ho.winPage hph; omega
    | stream =>
      obtain ⟨-, hn⟩ := ho.stream hph
      have := Nat.div_le_self s.ofs.toNat s.cfg.maxBlk.toNat
      have := hI.ofsLe
      have := fbSize_le hI.cfgWf
      omega
    | scrollCfg => have := ho.scrollCfg hph; omega
    | scrollAct => have := ho.scrollAct hph; omega
    | single => have := ho.single hph; omega
  exact BitVec.toNat_add_of_lt (show s.ntx.toNat + 1 < 65536 by omega)

/-- A chunk after which the stream goes on is a whole one (rule R165). -/
theorem chunkLen_of_not_last {s : State} (h : s.ofs.toNat + chunkLen s ≠ s.cfg.fbSize)
    (hlt : s.ofs.toNat < s.cfg.fbSize) : chunkLen s = s.cfg.maxBlk.toNat := by
  unfold chunkLen at h ⊢
  omega

/-- The answer `ok` advances `NTX` with the phase, with `IDX` or with `OFS`. -/
theorem AdvanceOutcome.ordinals {s t : State} {rest : List Answer} (h : AdvanceOutcome (okTaken rest s) t) (hI : Inv s)
    (ho : Ordinals s) (hb : s.phase ≠ .idle) : Ordinals t := by
  have hsucc : (okTaken rest s).ntx.toNat = s.ntx.toNat + 1 := ntx_succ_toNat hI ho hb
  cases h with
  | initCommand hph ht =>
    have hn := ho.initCmd hph
    have hadd : ((okTaken rest s).idx + 1).toNat = s.idx.toNat + 1 := idx_succ_toNat (hI.idxCmd hph)
    rw [ht]
    by_cases h17 : (okTaken rest s).idx + 1 = 17
    · rw [if_pos h17]
      rw [h17] at hadd
      have : s.idx.toNat + 1 = 17 := hadd.symm
      constructor <;> simp only [hsucc, reduceCtorEq, false_implies, true_implies]
      omega
    · rw [if_neg h17]
      constructor <;> simp only [hsucc, hadd, hn, reduceCtorEq, false_implies, true_implies]
  | columnWindow hph ht =>
    have hn := ho.winCol hph
    rw [ht]
    constructor <;> simp only [hsucc, reduceCtorEq, false_implies, true_implies]
    omega
  | pageWindow hph ht =>
    have hn := ho.winPage hph
    have hofs : (0 : Half).toNat = 0 := rfl
    rw [ht]
    constructor <;> simp only [hsucc, hofs, Nat.zero_mod, Nat.zero_div, reduceCtorEq, false_implies, true_implies]
    exact ⟨trivial, by omega⟩
  | chunk hph hne ht =>
    obtain ⟨hmod, hn⟩ := ho.stream hph
    have hpos := maxBlk_ge hI.cfgWf
    have hadd := ofs_add (s := okTaken rest s) hI.cfgWf hI.ofsLe
    have hofs : ((okTaken rest s).ofs + BitVec.ofNat 16 (chunkLen (okTaken rest s))).toNat =
        s.ofs.toNat + s.cfg.maxBlk.toNat := by
      rw [hadd, chunkLen_of_not_last (s := okTaken rest s) (hadd ▸ hne) (hI.ofsStream hph)]
      rfl
    rw [ht]
    constructor <;> simp only [hsucc, hofs, hph, reduceCtorEq, false_implies, true_implies]
    simp only [okTaken, Nat.add_mod_right, Nat.add_div_right _ (show 0 < s.cfg.maxBlk.toNat by omega)]
    exact ⟨hmod, by omega⟩
  | lastChunk _ _ ht | lastCommand _ ht => rw [ht]; exact ordinals_of_idle rfl
  | scrollConfigured hph ht =>
    have hn := ho.scrollCfg hph
    rw [ht]
    constructor <;> simp only [hsucc, hn, reduceCtorEq, false_implies, true_implies]

/-- Settles O44: each kind of step keeps the relation. -/
theorem stepKeepsOrdinals : Obligations.StepKeepsOrdinals := by
  intro s t hI ho h
  cases hr : s.resetLine with
  | true => rw [step_reset_eq h hr]; exact ordinals_of_idle rfl
  | false =>
    cases step_kind h hr with
    | answeredOk rest hp _ hadv => exact hadv.ordinals hI ho (hI.pendPhase hp).1
    | answeredFail e rest _ _ ht => rw [ht]; exact ordinals_of_idle (raise_phase _ _)
    | waited _ ht => rw [ht]; exact ho
    | executed _ _ _ _ _ _ hd _ hout => exact accepted_ordinals (latched_latches (decodeRequest_notCommand hd)) hout
    | refused w _ _ ht => rw [ht]; exact accepted_ordinals (latchWord_latches w) (refuseWord_cases w _)
    | filled _ hph hout => exact hout.ordinals hph ho
    | issued tx _ _ ht =>
      rw [ht]
      exact ⟨ho.initCmd, ho.initFill, ho.winCol, ho.winPage, ho.stream, ho.scrollCfg, ho.scrollAct, ho.single⟩

/-! ## The acceptance of the requests -/

theorem exec_init {s : State} (h : Ready s) (sid : Byte) : exec (.init sid) s = .next (startInit (latchG sid 0 s)) :=
  congrArg Host.Outcome.next (unlessHalted_of_running _ h.2)

/-- Settles O21: past the halt gate the acceptance only resets `IDX` and enters the first phase. -/
theorem initIsAccepted : Obligations.InitIsAccepted := fun _ sid h => exec_init h sid

theorem exec_awake {s : State} (h : Ready s) (sid : Byte) (on : Bool) :
    exec (.awake sid on) s =
      .next (startSingle [awakeByte s.cfg.cmdEnc on] (latchG sid (if on then 1 else 0) s)) :=
  congrArg Host.Outcome.next (unlessHalted_of_running _ h.2)

/-- Settles O22: the command buffer is loaded with the one byte of rule R126. -/
theorem awakeIsAccepted : Obligations.AwakeIsAccepted := by
  intro s sid on h
  refine ⟨_, exec_awake h sid on, rfl, ?_⟩
  rw [txOf_startSingle _ (by simp), sessionOf_latchG]
  rfl

/-- Settles O24: a direction of 3 or more is neither off nor right nor left. -/
theorem scrollUnknownDirectionDoesNothing : Obligations.ScrollUnknownDirectionDoesNothing := by
  intro s sid dir h hdir
  have hoff : dir ≠ 0 := by rintro rfl; simp at hdir
  have hsides : ¬(dir = 1 ∨ dir = 2) := by rintro (rfl | rfl) <;> simp at hdir
  rw [exec_scroll h, startScroll, if_neg hoff, if_neg hsides, respond_ok_of_idle (s := latchG sid dir s) h.1]
  rfl

theorem exec_wrcmd {s : State} (h : Ready s) (sid : Byte) {pay : List Byte} (hl : 1 ≤ pay.length ∧ pay.length ≤ 7) :
    exec (.wrcmd sid pay) s = .next (startSingle pay (latchG sid (payloadLen pay) s)) :=
  congrArg Host.Outcome.next (accept_legal h sid _ (decide_eq_true hl) _)

/-- Settles O25: the buffer holds the payload before its old tail, and what is sent is what was loaded. -/
theorem rawCommandIsAccepted : Obligations.RawCommandIsAccepted := by
  intro s sid pay h h1 h7
  refine ⟨_, exec_wrcmd h sid ⟨h1, h7⟩, rfl, toList_load s.cbuf h7, ?_⟩
  rw [txOf_startSingle _ h7, sessionOf_latchG]
  rfl

/-! ## Sequences of transactions, each answered `ok` -/

/-- The state with the bus where it is between two transactions: a trace, the answers to come and a count. -/
def onBus (trace : List BusEntry) (answers : List Answer) (ntx : Half) (s : State) : State :=
  { s with trace := trace, answers := answers, ntx := ntx, pend := false }

/-- The sequencer goes from `s` to `t` by sending `txs` in order, each answered `ok`; of the bus it says nothing
(`Sends.run`). -/
inductive Sends : State → List Tx → State → Prop
  | done (s : State) : Sends s [] s
  | send {s u t : State} {tx : Tx} {txs : List Tx} (hph : Issuing s.phase) (htx : txOf s = some tx)
      (hadv : advance s = .next u) (h : Sends u txs t) : Sends s (tx :: txs) t

/-- A sequence given by the state before each of its transactions. -/
theorem Sends.of_states (txs : List Tx) (f : Nat → State)
    (h : ∀ k (hk : k < txs.length),
      Issuing (f k).phase ∧ txOf (f k) = some txs[k] ∧ advance (f k) = .next (f (k + 1))) :
    Sends (f 0) txs (f txs.length) := by
  induction txs generalizing f with
  | nil => exact .done _
  | cons tx txs ih =>
    obtain ⟨hph, htx, hadv⟩ := h 0 (Nat.zero_lt_succ _)
    exact .send hph htx hadv (ih (fun k => f (k + 1)) fun k hk => h (k + 1) (Nat.succ_lt_succ hk))

/-- The advance of a phase does not look at the bus. -/
theorem advance_onBus {s u : State} (h : advance s = .next u) (trace : List BusEntry) (answers : List Answer)
    (ntx : Half) : advance (onBus trace answers ntx s) = .next (onBus trace answers ntx u) := by
  cases advance_outcome h with
  | initCommand hp ht => rw [ht]; exact advance_initCmd hp
  | columnWindow hp ht => rw [ht]; exact advance_winCol hp
  | pageWindow hp ht => rw [ht]; exact advance_winPage hp
  | chunk hp hn ht => rw [ht]; exact (advance_stream (s := onBus _ _ _ s) hp rfl).trans (congrArg _ (if_neg hn))
  | lastChunk hp hn ht => rw [ht]; exact (advance_stream (s := onBus _ _ _ s) hp rfl).trans (congrArg _ (if_pos hn))
  | scrollConfigured hp ht => rw [ht]; exact advance_scrollCfg hp
  | lastCommand hp ht => rw [ht]; exact advance_lastCommand hp

theorem AdvanceOutcome.resetLine {s t : State} (h : AdvanceOutcome s t) : t.resetLine = s.resetLine := by
  cases h with
  | initCommand _ ht | columnWindow _ ht | pageWindow _ ht | chunk _ _ ht | lastChunk _ _ ht | scrollConfigured _ ht
  | lastCommand _ ht => exact (congrArg State.resetLine ht :)

theorem runSteps_inv {n : Nat} {s t : State} (hI : Inv s) (h : runSteps n s = .next t) : Inv t := by
  induction n generalizing s with
  | zero => cases h; exact hI
  | succ n ih =>
    cases hs : step s with
    | next u => rw [runSteps_succ hs] at h; exact ih (step_inv hI hs) h
    | fault | refused => simp [runSteps, hs] at h

/-- Rules R113 and R114 over a sequence: two steps a transaction, each of which enters the trace with its answer and is
counted in `NTX`. -/
theorem Sends.run {s t : State} {txs : List Tx} (h : Sends s txs t) {trace : List BusEntry} {more : List Answer}
    {ntx : Half} (hI : Inv (onBus trace (List.replicate txs.length .ok ++ more) ntx s)) (hr : s.resetLine = false) :
    runSteps (2 * txs.length) (onBus trace (List.replicate txs.length .ok ++ more) ntx s) =
      .next (onBus (trace ++ answeredOk txs) more (ntx + BitVec.ofNat 16 txs.length) t) := by
  induction h generalizing trace ntx with
  | done s => simp [answeredOk]
  | @send s u t tx txs hph htx hadv _ ih =>
    obtain ⟨tx', htx', hrun⟩ := runSteps_transaction hI hr rfl hph (more := List.replicate txs.length .ok ++ more) rfl
    obtain rfl : tx = tx' := by simpa using htx.symm.trans htx'
    have hu := advance_onBus hadv (trace ++ [⟨tx, some .ok⟩]) (List.replicate txs.length .ok ++ more) (ntx + 1)
    have hur : u.resetLine = false := (advance_outcome hadv).resetLine.trans hr
    refine (hrun (2 * txs.length) _ hu).trans ?_
    rw [ih (runSteps_inv hI (hrun 0 _ hu)) hur]
    have hn : ntx + 1 + BitVec.ofNat 16 txs.length = ntx + BitVec.ofNat 16 (txs.length + 1) := by
      rw [BitVec.add_assoc, Nat.add_comm, BitVec.ofNat_add]
      rfl
    rw [hn]
    simp [answeredOk]

/-! ## The sequences of the requests -/

/-- The block before command `k` of the initialisation sequence (rule R119), or before the fill once all are sent. -/
def initAt (s : State) (k : Nat) : State :=
  { s with idx := BitVec.ofNat 5 k, phase := if k = 17 then .initFill else .initCmd }

theorem initTxs_length (c : Cfg) (sid : Byte) : (initTxs c sid).length = 17 := by simp [initTxs]

/-- Rules R116, R119 and R120: the seventeen commands, then the fill. -/
theorem init_sends (s : State) : Sends (initAt s 0) (initTxs s.cfg (sessionOf s)) (initAt s 17) := by
  refine Sends.of_states _ (initAt s) fun k hk => ?_
  have h17 : k < 17 := initTxs_length s.cfg (sessionOf s) ▸ hk
  have hph : (initAt s k).phase = .initCmd := if_neg (by omega)
  have hidx : (BitVec.ofNat 5 k).toNat = k := by rw [BitVec.toNat_ofNat]; omega
  have hsucc : BitVec.ofNat 5 k + 1 = BitVec.ofNat 5 (k + 1) := (BitVec.ofNat_add ..).symm
  refine ⟨by simp [Issuing, hph], ?_, ?_⟩
  · simp only [txOf, hph]
    change (initTxs s.cfg (sessionOf s))[(BitVec.ofNat 5 k).toNat]? = _
    rw [hidx, List.getElem?_eq_getElem hk]
  · rw [advance_initCmd hph]
    have hlast : BitVec.ofNat 5 (k + 1) = 17 ↔ k + 1 = 17 := by
      rw [← hsucc, idx_succ_eq_iff (by omega), hidx]
    simp only [initAt, hsucc, hlast]

/-- The block before the chunk at offset `a` of the framebuffer (rule R165). -/
def streamAt (s : State) (a : Nat) : State := { s with phase := .stream, ofs := BitVec.ofNat 16 a }

/-- The block at the end of a push (rule R166). -/
def pushed (s : State) : State := respond .ok 0 { s with ofs := BitVec.ofNat 16 s.cfg.fbSize }

section Stream

variable {s : State} {a : Nat} (hc : s.cfg.WellFormed)
include hc

theorem ofs_toNat (ha : a ≤ s.cfg.fbSize) : (BitVec.ofNat 16 a).toNat = a := by
  have := fbSize_le hc
  rw [BitVec.toNat_ofNat]
  omega

/-- Rule R165: the transaction of a chunk. -/
theorem txOf_streamAt (ha : a ≤ s.cfg.fbSize) :
    txOf (streamAt s a) = some ⟨.block, sessionOf s, .data,
      (List.range (min s.cfg.maxBlk.toNat (s.cfg.fbSize - a))).map fun i => readByte s.fb (a + i)⟩ := by
  simp only [txOf, streamAt, ofs_toNat hc ha]
  rfl

/-- Rules R165 and R166, with `b` the offset after the chunk. -/
theorem advance_streamAt {b : Nat} (ha : a ≤ s.cfg.fbSize)
    (hb : a + min s.cfg.maxBlk.toNat (s.cfg.fbSize - a) = b) :
    advance (streamAt s a) = .next (if b = s.cfg.fbSize then pushed s else streamAt s b) := by
  have hlen : chunkLen (streamAt s a) = min s.cfg.maxBlk.toNat (s.cfg.fbSize - a) := by
    simp only [chunkLen, streamAt, ofs_toNat hc ha]
  rw [advance_stream (o := BitVec.ofNat 16 b) rfl (by rw [hlen, ← hb, BitVec.ofNat_add]; rfl), ofs_toNat hc (by omega)]
  change Host.Outcome.next (if b = s.cfg.fbSize then respond .ok 0 (streamAt s b) else streamAt s b) = _
  split
  · rw [‹b = _›]
    rfl
  · rfl

end Stream

/-- The block before chunk `j` of a push, or at its end once all are sent. -/
def chunkState (s : State) (j : Nat) : State :=
  if j < chunkCount s.cfg then streamAt s (j * s.cfg.maxBlk.toNat) else pushed s

/-- Rule R167: the chunks of a push start at the multiples of `MAXBLK`, and the last ends at `N`. -/
theorem chunk_end {c : Cfg} (hc : c.WellFormed) {j : Nat} (hj : j < chunkCount c) :
    j * c.maxBlk.toNat + min c.maxBlk.toNat (c.fbSize - j * c.maxBlk.toNat) =
      if j + 1 < chunkCount c then (j + 1) * c.maxBlk.toNat else c.fbSize := by
  have hstart := chunk_start_lt hc hj
  have hcover := chunks_cover hc
  split
  · have hnext := chunk_start_lt hc ‹_›
    rw [Nat.succ_mul] at hnext ⊢
    omega
  · rw [show chunkCount c = j + 1 by omega, Nat.succ_mul] at hcover
    omega

/-- Rules R165 and R166: the chunks, then the completion. -/
theorem chunks_send {s : State} (hc : s.cfg.WellFormed) :
    Sends (streamAt s 0) ((List.range (chunkCount s.cfg)).map (chunkAt s.cfg s.fb (sessionOf s))) (pushed s) := by
  have h := Sends.of_states ((List.range (chunkCount s.cfg)).map (chunkAt s.cfg s.fb (sessionOf s))) (chunkState s)
    fun j hj => ?_
  · simpa [chunkState, chunkCount_pos hc] using h
  have hj : j < chunkCount s.cfg := by simpa using hj
  have hstart := (chunk_start_lt hc hj).le
  have hs : chunkState s j = streamAt s (j * s.cfg.maxBlk.toNat) := if_pos hj
  refine ⟨by simp [hs, streamAt, Issuing], ?_, ?_⟩
  · rw [hs, txOf_streamAt hc hstart, List.getElem_map, List.getElem_range]
    rfl
  · rw [hs, advance_streamAt hc hstart (chunk_end hc hj), chunkState]
    by_cases hnext : j + 1 < chunkCount s.cfg
    · rw [if_pos hnext, if_pos hnext, if_neg (chunk_start_lt hc hnext).ne]
    · rw [if_neg hnext, if_neg hnext, if_pos rfl]

/-- Rules R161 and R163 to R166: the two windows, the chunks, then the completion. -/
theorem push_sends {s : State} (hc : s.cfg.WellFormed) :
    Sends { s with phase := .winCol } (pushTxs s.cfg s.fb (sessionOf s)) (pushed s) :=
  .send (by simp [Issuing]) rfl (advance_winCol rfl)
    (.send (by simp [Issuing]) rfl (advance_winPage rfl) (chunks_send hc))

theorem pushTxs_length (c : Cfg) (m : Memory) (sid : Byte) : (pushTxs c m sid).length = 2 + chunkCount c := by
  rw [pushTxs, List.length_append, List.length_map, List.length_range]
  rfl

/-- The block whose command buffer holds the scroll configuration (rule R130). -/
def scrollConfigured (dir : Half) (s : State) : State :=
  { s with cbuf := s.cbuf.load (scrollConfig s.cfg dir), clen := 7, phase := .scrollCfg }

theorem startScroll_side {dir : Half} (h : dir = 1 ∨ dir = 2) (s : State) :
    startScroll dir s = scrollConfigured dir s := by
  have hne : dir ≠ 0 := by rcases h with rfl | rfl <;> decide
  rw [startScroll, if_neg hne, if_pos h]
  rfl

/-- Rule R131: the configuration, the activation, then the completion. -/
theorem scrollSide_sends (dir : Half) (s : State) :
    Sends (scrollConfigured dir s) (scrollTxs s.cfg (sessionOf s) dir)
      (respond .ok 0 { scrollConfigured dir s with phase := .scrollAct }) :=
  .send (by simp [Issuing, scrollConfigured]) rfl (advance_scrollCfg rfl)
    (.send (by simp [Issuing]) rfl (advance_lastCommand (.inl rfl)) (.done _))

/-- Rule R128: the command in the buffer, then the completion. -/
theorem single_sends (s : State) {bs : List Byte} (h : bs.length ≤ 7) :
    Sends (startSingle bs s) [cmdTx (sessionOf s) bs] (respond .ok 0 (startSingle bs s)) :=
  .send (by simp [Issuing]) (txOf_startSingle s h) (advance_lastCommand (.inr rfl)) (.done _)

/-! ## Whole requests -/

/-- A row of the opcode table without payload, at the head of the port of an idle block, is executed. -/
theorem step_accepts_encoded {s : State} {i : Instr} {w : Word} {rest : List Word} (hR : Runs s) (hi : Idle s)
    (hw : i.wf = true) (he : encode CmdEnc.reference i = .request w []) (hq : s.requests = w :: rest) :
    step s = exec i { s with requests := rest } := by
  have hc : i.isCommand = false :=
    Bool.eq_false_iff.2 fun hcmd => by rw [encode_of_isCommand _ hcmd] at he; cases he
  have hd : decodeRequest w [] = .ok i := by
    have h := decode_encode_request CmdEnc.reference hc hw
    rwa [he] at h
  exact step_accepts hR hi (presents_iff_fetchRequest.2 ((fetchRequest_spec _ _ _ _).2 ⟨hq, decodeRequest_count hd⟩)) hd

/-- Where the framebuffer is allocated or can be, the fill step leaves it allocated, and its bytes zero on a later call
and where `FIRST_INIT_FILL = zero` (rule R122). -/
theorem fillStep_succeeds {s : State} (h : s.fbAlloc = true ∨ s.cfg.allocAvailable = true) :
    ∃ m d, fillStep s = { s with fb := m, fbAlloc := true, phase := .winCol, draws := d } ∧
      (s.fbAlloc = true ∨ s.cfg.firstInitFill = .zero → ∀ a < s.cfg.fbSize, readByte m a = 0x00) := by
  have hzero := fun a => readByte_zeroBytes s.cfg s.fb a
  cases ha : s.fbAlloc with
  | true => exact ⟨_, s.draws, by rw [fillStep_of_alloc ha, ← ha], fun _ => hzero⟩
  | false =>
    obtain ⟨bs, d, -, hbs, hfill⟩ := fillStep_of_available ha (h.resolve_left (by simp [ha]))
    exact ⟨_, d, hfill, fun hf => hbs (hf.resolve_left nofun) ▸ hzero⟩

/-- A run that reaches phase `INIT_FILL` goes on with a fill that succeeds. -/
theorem runSteps_fill {n : Nat} {s u : State} (hI : Inv s) (h : runSteps n s = .next u) (hr : u.resetLine = false)
    (hph : u.phase = .initFill) (hp : u.pend = false) (halloc : u.fbAlloc = true ∨ u.cfg.allocAvailable = true) :
    ∃ m d, runSteps (n + 1) s = .next { u with fb := m, fbAlloc := true, phase := .winCol, draws := d } ∧
      (u.fbAlloc = true ∨ u.cfg.firstInitFill = .zero → ∀ a < u.cfg.fbSize, readByte m a = 0x00) := by
  obtain ⟨m, d, hfill, hzero⟩ := fillStep_succeeds halloc
  refine ⟨m, d, ?_, hzero⟩
  rw [runSteps_add h 1, ← hfill]
  exact runSteps_succ (step_fills ⟨(runSteps_inv hI h).cfgWf, hr⟩ hph hp) 0

/-- A request that goes on from its acceptance by sending `txs`. -/
theorem Sends.run_accepted {s u t : State} {txs : List Tx} {more : List Answer} (h : Sends u txs t) (hI : Inv s)
    (hs : step s = .next u) (hr : u.resetLine = false) (hp : u.pend = false)
    (ha : u.answers = List.replicate txs.length .ok ++ more) :
    runSteps (2 * txs.length + 1) s =
      .next (onBus (u.trace ++ answeredOk txs) more (u.ntx + BitVec.ofNat 16 txs.length) t) := by
  have hu : u = onBus u.trace (List.replicate txs.length .ok ++ more) u.ntx u := by rw [← ha, onBus, ← hp]
  have hIu := step_inv hI hs
  rw [hu] at hIu
  rw [runSteps_succ hs, ← h.run hIu hr, ← hu]

theorem answeredOk_append (as bs : List Tx) : answeredOk (as ++ bs) = answeredOk as ++ answeredOk bs := by
  simp [answeredOk]

/-- Rules R117 to R120: the acceptance of `INIT` and its seventeen commands, whatever the fill then does. -/
theorem runSteps_initCommands {s : State} {sid : Byte} {rest : List Word} {more : List Answer} (hI : Inv s)
    (h : Ready s) (hr : s.resetLine = false) (hq : s.requests = gWord 0x1 sid 0 :: rest)
    (ha : s.answers = List.replicate 17 .ok ++ more) :
    runSteps 35 s = .next (onBus (s.trace ++ answeredOk (initTxs s.cfg sid)) more 17
      (initAt (latchG sid 0 { s with requests := rest }) 17)) := by
  have haccept : step s = .next (startInit (latchG sid 0 { s with requests := rest })) :=
    (step_accepts_encoded ⟨hI.cfgWf, hr⟩ h.1 rfl rfl hq).trans (exec_init (s := { s with requests := rest }) h sid)
  have hsends := init_sends (latchG sid 0 { s with requests := rest })
  rw [sessionOf_latchG] at hsends
  exact hsends.run_accepted hI haccept hr h.1.2 ha

/-- Rules R161 and R163 to R166: a push from its first phase to its completion. -/
theorem runSteps_push {s : State} {trace : List BusEntry} {more : List Answer} {ntx : Half}
    (hI : Inv (onBus trace (List.replicate (2 + chunkCount s.cfg) .ok ++ more) ntx { s with phase := .winCol }))
    (hr : s.resetLine = false) :
    runSteps (2 * (2 + chunkCount s.cfg))
        (onBus trace (List.replicate (2 + chunkCount s.cfg) .ok ++ more) ntx { s with phase := .winCol }) =
      .next (onBus (trace ++ answeredOk (pushTxs s.cfg s.fb (sessionOf s))) more
        (ntx + BitVec.ofNat 16 (2 + chunkCount s.cfg)) (pushed s)) := by
  have hsends := push_sends (s := s) hI.cfgWf
  have hlen := pushTxs_length s.cfg s.fb (sessionOf s)
  rw [← hlen] at hI ⊢
  exact hsends.run hI hr

/-- The block between the fill of an `INIT` and its push: the framebuffer holds `m`, and `d` have been drawn. -/
def initFilled (s : State) (sid : Byte) (rest : List Word) (m : Memory) (d : Nat) : State :=
  { latchG sid 0 s with requests := rest, idx := 17, fb := m, fbAlloc := true, draws := d }

/-- Rules R117 to R122: an `INIT` as far as its push, where the fill succeeds. -/
theorem runSteps_initFill {s : State} {sid : Byte} {rest : List Word} {more : List Answer} (hI : Inv s)
    (h : Ready s) (hr : s.resetLine = false) (halloc : s.fbAlloc = true ∨ s.cfg.allocAvailable = true)
    (hq : s.requests = gWord 0x1 sid 0 :: rest) (ha : s.answers = List.replicate 17 .ok ++ more) :
    ∃ m d, runSteps 36 s = .next (onBus (s.trace ++ answeredOk (initTxs s.cfg sid)) more 17
        { initFilled s sid rest m d with phase := .winCol }) ∧
      (s.fbAlloc = true ∨ s.cfg.firstInitFill = .zero → ∀ a < s.cfg.fbSize, readByte m a = 0x00) := by
  have hcommands := runSteps_initCommands hI h hr hq ha
  exact runSteps_fill hI hcommands hr rfl rfl halloc

/-- Settles O55: the acceptance, the commands and the fill, then the push. -/
theorem initRunsTheSequence : Obligations.InitRunsTheSequence := by
  intro s sid rest more hI h hr halloc hq ha
  have hsplit : s.answers = List.replicate 17 .ok ++ (List.replicate (2 + chunkCount s.cfg) .ok ++ more) := by
    rw [ha, ← List.append_assoc, List.replicate_append_replicate, ← Nat.add_assoc]
  obtain ⟨m, d, hfill, hzero⟩ := runSteps_initFill hI h hr halloc hq hsplit
  have hpush := runSteps_push (s := initFilled s sid rest m d) (runSteps_inv hI hfill) hr
  rw [show sessionOf (initFilled s sid rest m d) = sid from sessionOf_latchG sid 0 s] at hpush
  have hrun := (runSteps_add hfill (2 * (2 + chunkCount s.cfg))).trans hpush
  rw [show 36 + 2 * (2 + chunkCount s.cfg) = 2 + 2 * (19 + chunkCount s.cfg) by omega] at hrun
  refine ⟨_, hrun, ?_, hzero, ?_⟩
  · rw [answeredOk_append, ← List.append_assoc]
    rfl
  · have hntx : (17 : Half) + BitVec.ofNat 16 (2 + chunkCount s.cfg) = BitVec.ofNat 16 (19 + chunkCount s.cfg) := by
      rw [show 19 + chunkCount s.cfg = 17 + (2 + chunkCount s.cfg) by omega, BitVec.ofNat_add 17]
      rfl
    rw [← hntx]
    simp only [onBus, pushed, respond_ok_eq, initFilled, latchG, h.1.1, h.1.2]
    rfl

/-- A request has run from `s` to `t` and completed with `E_OK`: it has sent `txs`, and `rest` and `more` are what is
left of the port and of the answers. -/
structure CompletedOk (s : State) (txs : List Tx) (rest : List Word) (more : List Answer) (t : State) : Prop where
  ready : Ready t
  trace : t.trace = s.trace ++ answeredOk txs
  responses : t.responses = s.responses ++ [0x00000000]
  fb : t.fb = s.fb
  fbAlloc : t.fbAlloc = s.fbAlloc
  sticky : t.sticky = s.sticky
  requests : t.requests = rest
  answers : t.answers = more
  cfg : t.cfg = s.cfg
  resetLine : t.resetLine = s.resetLine

section Scroll

variable {s : State} {sid : Byte} {dir : Half} {rest : List Word} {more : List Answer} (hI : Inv s) (h : Ready s)
  (hr : s.resetLine = false)
include hI h hr

theorem step_scroll (hq : s.requests = gWord 0x3 sid dir :: rest) :
    step s = .next (startScroll dir (latchG sid dir { s with requests := rest })) :=
  (step_accepts_encoded ⟨hI.cfgWf, hr⟩ h.1 rfl rfl hq).trans (exec_scroll (s := { s with requests := rest }) h sid dir)

/-- Rules R130 and R131: a whole `SCROLL` right or left. -/
theorem runSteps_scrollSide (hdir : dir = 1 ∨ dir = 2) (hq : s.requests = gWord 0x3 sid dir :: rest)
    (ha : s.answers = .ok :: .ok :: more) :
    ∃ t, runSteps 5 s = .next t ∧ CompletedOk s (scrollTxs s.cfg sid dir) rest more t := by
  have haccept := step_scroll hI h hr hq
  have hsends := scrollSide_sends dir (latchG sid dir { s with requests := rest })
  rw [startScroll_side hdir] at haccept
  rw [sessionOf_latchG] at hsends
  exact ⟨_, hsends.run_accepted hI haccept hr h.1.2 ha,
    ⟨⟨rfl, rfl⟩, h.2⟩, rfl, rfl, rfl, rfl, Bool.or_false _, rfl, rfl, rfl, rfl⟩

/-- Rules R128 and R130: a whole `SCROLL` off. -/
theorem runSteps_scrollOff (hq : s.requests = gWord 0x3 sid 0 :: rest) (ha : s.answers = .ok :: more) :
    ∃ t, runSteps 3 s = .next t ∧ CompletedOk s [⟨.byte, sid, .cmd, [s.cfg.cmdEnc.deactivateScroll]⟩] rest more t := by
  have haccept := step_scroll hI h hr hq
  have hsends := single_sends (latchG sid 0 { s with requests := rest }) (bs := [s.cfg.cmdEnc.deactivateScroll])
    (by simp)
  rw [sessionOf_latchG] at hsends
  exact ⟨_, hsends.run_accepted hI haccept hr h.1.2 ha,
    ⟨⟨rfl, rfl⟩, h.2⟩, rfl, rfl, rfl, rfl, Bool.or_false _, rfl, rfl, rfl, rfl⟩

end Scroll

/-- Settles O59: the scroll to a side and the scroll off, one after the other. -/
theorem scrollThenOffSendsThree : Obligations.ScrollThenOffSendsThree := by
  intro s sid dir rest more hI h hr hdir hq ha
  obtain ⟨u, hu, hside⟩ := runSteps_scrollSide hI h hr hdir hq ha
  obtain ⟨t, ht, hoff⟩ := runSteps_scrollOff (runSteps_inv hI hu) hside.ready (hside.resetLine.trans hr) hside.requests
    hside.answers
  refine ⟨t, (runSteps_add hu 3).trans ht, hoff.ready, ?_, ?_, hoff.fb.trans hside.fb,
    hoff.fbAlloc.trans hside.fbAlloc, hoff.sticky.trans hside.sticky⟩
  · rw [hoff.trace, hside.trace, hside.cfg, answeredOk_append, List.append_assoc]
  · rw [hoff.responses, hside.responses, List.append_assoc]
    rfl

end Sys2Proof.Proofs

/-! # Framebuffer requests (`41_framebuffer.md`): the modes of `PLOT`, `LOAD`, `CLEAR`, the unallocated framebuffer, and
`LOAD` followed by `PUSH` -/

namespace Sys2Proof.Proofs

open Sys2Proof.Machine Sys2Proof.Laws

/-! ## The modes of `PLOT` -/

/-- Rule R142: a mode that gives the addressed bit the value it has leaves the byte as it is. -/
theorem plottedByte_of_fixed {mode : BitVec 2} {bit : Nat} {old : Byte}
    (h : modeBit mode (old.getLsbD bit) = old.getLsbD bit) : plottedByte mode bit old = old := by
  refine BitVec.eq_of_getLsbD_eq fun b hb => ?_
  rw [plottedByte_getLsbD _ _ _ hb]
  split
  case isTrue heq => rw [heq, h]
  case isFalse => rfl

/-- Rule R142: two inverts of one bit restore the byte. -/
theorem plottedByte_invert_invert (bit : Nat) (old : Byte) : plottedByte 2 bit (plottedByte 2 bit old) = old := by
  refine BitVec.eq_of_getLsbD_eq fun b hb => ?_
  simp only [plottedByte_getLsbD _ _ _ hb]
  split
  case isTrue => exact Bool.not_not _
  case isFalse => rfl

section PlotMemory

variable {c : Cfg} {mode : BitVec 2} {x y : Nat} {m : Memory} (hm : Memory.wf m)
include hm

/-- Rule R142: a `PLOT` that gives its pixel the value it has leaves the framebuffer as it is. -/
theorem plotMemory_of_fixed (h : modeBit mode (pixel c m x y) = pixel c m x y) : plotMemory c mode x y m = m := by
  refine memory_ext _ _ (plotMemory_wf c mode x y hm) hm fun a => ?_
  rw [readByte_plotMemory]
  split
  case isTrue heq => subst heq; exact plottedByte_of_fixed h
  case isFalse => rfl

/-- Rule R142: two inverts of one pixel restore the framebuffer. -/
theorem plotMemory_invert_invert : plotMemory c 2 x y (plotMemory c 2 x y m) = m := by
  refine memory_ext _ _ (plotMemory_wf c 2 x y (plotMemory_wf c 2 x y hm)) hm fun a => ?_
  simp only [readByte_plotMemory]
  split
  case isTrue => exact plottedByte_invert_invert _ _
  case isFalse => rfl

/-- Rule R142: a second clear, or a second set, of one pixel changes nothing. -/
theorem plotMemory_idempotent (hmode : mode = 0 ∨ mode = 1) (hx : x < c.w) :
    plotMemory c mode x y (plotMemory c mode x y m) = plotMemory c mode x y m := by
  refine plotMemory_of_fixed (plotMemory_wf c mode x y hm) ?_
  rw [pixel_plotMemory hx hx, if_pos rfl]
  rcases hmode with rfl | rfl <;> rfl

end PlotMemory

/-- Settles O29: the addressed byte is rewritten, and of its bits the addressed one alone changes. -/
theorem plotChangesOneBit : Obligations.PlotChangesOneBit := by
  intro s mode x y h ha hm hx hy
  refine ⟨_, exec_plot_on h ha hm hx hy, rfl, fun a hne => ?_, fun b hb => ?_⟩
  · rw [plotDone_fb, readByte_plotMemory, if_neg hne]
  · rw [plotDone_fb, readByte_plotMemory, if_pos rfl, plottedByte_getLsbD _ _ _ hb]
    rfl

/-- Rule R142: a `PLOT` in range gives its pixel the mode's value. -/
theorem exec_plot_ownPixel {s t : State} {mode : BitVec 2} {x y : BitVec 12} (h : Ready s) (ha : s.fbAlloc = true)
    (hm : mode ≠ 3) (hx : x.toNat < s.cfg.w) (hy : y.toNat < s.cfg.h) (ht : exec (.plot mode x y) s = .next t) :
    pixel s.cfg t.fb x.toNat y.toNat = modeBit mode (pixel s.cfg s.fb x.toNat y.toNat) :=
  (exec_plot_pixel h ha hm ht hx hy).trans (if_pos rfl)

/-- Settles O31: the pixel takes the mode's value; a mode that changes no bit changes no byte, and of two equal `PLOT`s
the second undoes an invert and repeats a clear or a set. -/
theorem plotModesBitByBit : Obligations.PlotModesBitByBit := by
  intro s t u v z mode x y hI h ha hm hx hy ht hu hv hva hvc hz
  have hpt := exec_plot_ownPixel h ha hm hx hy ht
  have hpz := exec_plot_ownPixel hv hva hm (hvc ▸ hx) (hvc ▸ hy) hz
  rw [hvc] at hpz
  rw [exec_plot_on h ha hm hx hy] at ht
  cases ht
  rw [exec_plot_on (plotDone_ready _ h) ha hm hx hy] at hu
  cases hu
  refine ⟨?_, hpt, ?_, ?_, ?_, fun hmode => plotMemory_idempotent hI.fbWf hmode hx⟩
  · rintro rfl hsame
    rw [hpz, hsame, hpt]
    exact Bool.not_not _
  · rintro rfl hdark
    exact plotMemory_of_fixed hI.fbWf hdark.symm
  · rintro rfl hlit
    exact plotMemory_of_fixed hI.fbWf hlit.symm
  · rintro rfl
    exact plotMemory_invert_invert hI.fbWf

/-! ## `LOAD` and `CLEAR` -/

theorem loadBody_of_length {pay : List Byte} {l : State} (h : pay.length = l.cfg.fbSize) :
    loadBody pay l = withFramebuffer (fun t => respond .ok 0 (overwriteFb pay t)) l := if_neg (not_not_intro h)

/-- A `LOAD` of `N` bytes passes the length check (rule R207 step 4). -/
theorem exec_load {s : State} {pay : List Byte} (h : Ready s) (hl : pay.length = s.cfg.fbSize) :
    exec (.load pay) s =
      .next (withFramebuffer (fun t => respond .ok 0 (overwriteFb pay t)) (latchG 0 (payloadLen pay) s)) :=
  congrArg Host.Outcome.next ((unlessHalted_of_running (l := latchG 0 (payloadLen pay) s) _ h.2).trans
    (loadBody_of_length (l := latchG 0 (payloadLen pay) s) hl))

/-- `s` after a `LOAD` of `N` bytes that completed with `E_OK` (`exec_load_alloc`). -/
def loaded (pay : List Byte) (s : State) : State :=
  { s with fb := writeBytes s.fb 0 pay, x0 := 0, x1 := payloadLen pay, x2 := 0, x3 := 0, ntx := 0, last := .ok,
           responses := s.responses ++ [0x00000000] }

theorem exec_load_alloc {s : State} {pay : List Byte} (h : Ready s) (ha : s.fbAlloc = true)
    (hl : pay.length = s.cfg.fbSize) : exec (.load pay) s = .next (loaded pay s) := by
  rw [exec_load h hl, overwrite_latchG h 0 _ ha fun _ => pay]
  rfl

/-- Settles O33: each byte is read back where it was written, and nothing is written at or beyond `N`. -/
theorem loadOverwritesTheFramebuffer : Obligations.LoadOverwritesTheFramebuffer :=
  fun s _ h ha hl => ⟨_, exec_load_alloc h ha hl, rfl, fun _ hlt => readByte_overwritten s.fb (hl ▸ hlt),
    fun _ => readByte_overwritten_outside s.fb hl⟩

/-- `CLEAR` looks at nothing but the halt and the allocation. -/
theorem exec_clear {s : State} (h : Ready s) :
    exec .clear s =
      .next (withFramebuffer (fun t => respond .ok 0 (overwriteFb (zeroBytes t.cfg) t)) (latchG 0 0 s)) :=
  congrArg Host.Outcome.next (unlessHalted_of_running _ h.2)

/-- Rules R151 and R190: `RDFB` of a dark byte answers zero and leaves the block as ready and as filled as it was. -/
theorem exec_rdfb_dark {v : State} {a : Nat} (hv : Ready v) (ha : v.fbAlloc = true) (h16 : a < 65536)
    (hlt : a < v.cfg.fbSize) (hdark : readByte v.fb a = 0x00) :
    ∃ u, exec (.rdfb (BitVec.ofNat 16 a)) v = .next u ∧ u.responses = v.responses ++ [0x00000000] ∧
      Ready u ∧ u.fbAlloc = true ∧ u.cfg = v.cfg ∧ u.fb = v.fb := by
  have hofs : (BitVec.ofNat 16 a).toNat = a := Nat.mod_eq_of_lt h16
  refine ⟨_, (readFramebufferByte v _ hv).1 (hofs.symm ▸ hlt) ha, ?_, hv, ha, rfl, rfl⟩
  rw [hofs, hdark]
  rfl

/-- Settles O36: the `N` bytes written are zero, and a read that leaves the framebuffer alone leaves them zero. -/
theorem clearZeroFillsTheFramebuffer : Obligations.ClearZeroFillsTheFramebuffer := by
  intro s h ha hN
  have hzero := fun a => readByte_zeroBytes s.cfg s.fb a
  refine ⟨_, (exec_clear h).trans (congrArg _ (overwrite_latchG h 0 0 ha fun t => zeroBytes t.cfg)), rfl, hzero,
    fun a => readByte_overwritten_outside s.fb (zeroBytes_length s.cfg), fun v a hv hva hcfg hfb hlt => ?_⟩
  rw [← hcfg, ← hfb]
  exact exec_rdfb_dark hv hva (hlt.trans_le hN) (hcfg ▸ hlt) (hfb ▸ hzero a hlt)

/-! ## The framebuffer that is not allocated -/

/-- The requests of rule R145 that need the framebuffer, legal and past the checks that come before the allocation. -/
def NeedsFramebuffer (c : Cfg) (i : Instr) : Prop :=
  (∃ m x y, i = .plot m x y ∧ m ≠ 3 ∧ x.toNat < c.w ∧ y.toNat < c.h) ∨
    (∃ pay, i = .load pay ∧ pay.length = c.fbSize) ∨ (∃ k, i = .loadrom k ∧ k.toNat < c.patterns.length) ∨
    i = .clear ∨ (∃ sid, i = .push sid) ∨ ∃ o, i = .rdfb o ∧ o.toNat < c.fbSize

theorem exec_push {s : State} (h : Ready s) (sid : Byte) :
    exec (.push sid) s = .next (withFramebuffer (fun t => { t with phase := .winCol }) (latchG sid 0 s)) :=
  congrArg Host.Outcome.next (unlessHalted_of_running _ h.2)

theorem plotBody_inRange (mode : BitVec 2) {x y : Nat} {l : State} (hx : x < l.cfg.w) (hy : y < l.cfg.h) :
    plotBody mode x y l = withFramebuffer (fun t => respond .ok 0 (plotPixel mode x y t)) l :=
  if_neg (Bool.eq_false_iff.1 (offDisplay_eq_false hx hy))

/-- Rule R207: of a request that needs the framebuffer step 5 alone decides, on the latched state. -/
theorem exec_needsFramebuffer {s : State} {i : Instr} (h : Ready s) (hi : NeedsFramebuffer s.cfg i) :
    ∃ latch body, Latches latch ∧ exec i s = .next (withFramebuffer body (latch s)) := by
  rcases hi with ⟨m, x, y, rfl, hm, hx, hy⟩ | ⟨pay, rfl, hl⟩ | ⟨k, rfl, hk⟩ | rfl | ⟨sid, rfl⟩ | ⟨o, rfl, ho⟩
  · exact ⟨_, _, latchP_latches m x y,
      (exec_plot h hm).trans (congrArg _ (plotBody_inRange (l := latchP m x y s) m hx hy))⟩
  · exact ⟨_, _, latchG_latches 0 _, exec_load h hl⟩
  · exact ⟨_, _, latchG_latches 0 k, congrArg _ (accept_legal h 0 k (decide_eq_true hk) _)⟩
  · exact ⟨_, _, latchG_latches 0 0, exec_clear h⟩
  · exact ⟨_, _, latchG_latches sid 0, exec_push h sid⟩
  · exact ⟨_, _, latchG_latches 0 o, congrArg _ (accept_legal h 0 o (decide_eq_true ho) _)⟩

/-- Rule R204: the exception of step 5, taken by an idle block that is not halted. -/
theorem withFramebuffer_unalloc (body : State → State) {l : State} (h : Idle l) (ha : l.fbAlloc = false) :
    withFramebuffer body l =
      { l with halt := true, last := .unalloc, sticky := true, responses := l.responses ++ [0x40000000] } := by
  rw [withFramebuffer, if_neg (by simp [ha]), raise_of_idle h rfl]
  simp only [Exn.fatal, Bool.or_true]
  rfl

/-- Settles O37: past every other check the allocation halts the block; the bounds rule comes before it. -/
theorem unallocatedFramebufferHalts : Obligations.UnallocatedFramebufferHalts := by
  intro s i h ha
  refine ⟨fun hi => ?_, ?_⟩
  · obtain ⟨latch, body, ⟨a, b, c, d, -, hlatch⟩, hx⟩ := exec_needsFramebuffer h hi
    rw [hlatch] at hx
    exact ⟨_, hx.trans (congrArg _ (withFramebuffer_unalloc body h.1 ha)), rfl⟩
  · rintro m x y rfl hm ho
    exact ⟨_, exec_plot_off h hm ho, h.2, rfl, rfl, rfl⟩

/-! ## `LOAD`, then `PUSH` -/

/-- A row of the opcode table with its payload, at the head of the port of an idle block, is executed. -/
theorem step_accepts_payload {s : State} {i : Instr} {w : Word} {pay rest : List Word} (hR : Runs s)
    (hi : Idle s) (hc : i.isCommand = false) (hw : i.wf = true) (he : encode CmdEnc.reference i = .request w pay)
    (hq : s.requests = w :: (pay ++ rest)) : step s = exec i { s with requests := rest } := by
  have hd := decode_encode_request CmdEnc.reference hc hw
  rw [he] at hd
  exact step_accepts hR hi (presents_iff_fetchRequest.2 ((fetchRequest_spec _ _ _ _).2 ⟨hq, decodeRequest_count hd⟩)) hd

/-- Rules R161 to R166: a whole `PUSH`, answered `ok` throughout, from its acceptance to its completion. -/
theorem runSteps_acceptedPush {s : State} {sid : Byte} {rest : List Word} {more : List Answer} (hI : Inv s)
    (h : Ready s) (hr : s.resetLine = false) (ha : s.fbAlloc = true) (hq : s.requests = gWord 0x9 sid 0 :: rest)
    (hans : s.answers = List.replicate (2 + chunkCount s.cfg) .ok ++ more) :
    runSteps (1 + 2 * (2 + chunkCount s.cfg)) s =
      .next (onBus (s.trace ++ answeredOk (pushTxs s.cfg s.fb sid)) more (BitVec.ofNat 16 (2 + chunkCount s.cfg))
        (pushed (latchG sid 0 { s with requests := rest }))) := by
  have haccept := (step_accepts_encoded ⟨hI.cfgWf, hr⟩ h.1 rfl rfl hq).trans
    (exec_push (s := { s with requests := rest }) h sid)
  rw [withFramebuffer_of_alloc (l := latchG sid 0 { s with requests := rest }) _ ha] at haccept
  have hsends := push_sends (s := latchG sid 0 { s with requests := rest }) hI.cfgWf
  rw [sessionOf_latchG] at hsends
  have hrun := hsends.run_accepted hI haccept hr h.1.2 (by rw [pushTxs_length]; exact hans)
  rw [pushTxs_length] at hrun
  rw [Nat.add_comm 1, ← BitVec.zero_add (BitVec.ofNat 16 (2 + chunkCount s.cfg))]
  exact hrun

/-- Rules R165 and R167: the first `j` chunks of a push carry the framebuffer's first `j * MAXBLK` bytes, or all `N`. -/
theorem chunks_flatMap_bytes (c : Cfg) (m : Memory) (sid : Byte) (j : Nat) :
    ((List.range j).map (chunkAt c m sid)).flatMap Tx.bytes =
      (List.range (min (j * c.maxBlk.toNat) c.fbSize)).map (readByte m) := by
  induction j with
  | zero => simp
  | succ j ih =>
    have hsplit : min ((j + 1) * c.maxBlk.toNat) c.fbSize =
        min (j * c.maxBlk.toNat) c.fbSize + min c.maxBlk.toNat (c.fbSize - j * c.maxBlk.toNat) := by
      rw [Nat.succ_mul]
      omega
    rw [List.range_succ, List.map_append, List.flatMap_append, ih, hsplit, List.range_add, List.map_append]
    congr 1
    by_cases hj : j * c.maxBlk.toNat ≤ c.fbSize
    · simp [chunkAt, Nat.min_eq_left hj]
    · simp [chunkAt, Nat.sub_eq_zero_of_le (Nat.le_of_not_le hj)]

/-- Rule R167: the chunks of a push, joined, are the framebuffer. -/
theorem pushChunks_flatMap_bytes {c : Cfg} (hc : c.WellFormed) (m : Memory) (sid : Byte) :
    ((List.range (chunkCount c)).map (chunkAt c m sid)).flatMap Tx.bytes = (List.range c.fbSize).map (readByte m) := by
  rw [chunks_flatMap_bytes, Nat.min_eq_right (chunks_cover hc)]

/-- Rule R165: a chunk goes to the data channel and is no longer than `MAXBLK`. -/
theorem chunkAt_bounds (c : Cfg) (m : Memory) (sid : Byte) (j : Nat) :
    (chunkAt c m sid j).ch = .data ∧ (chunkAt c m sid j).bytes.length ≤ c.maxBlk.toNat := by
  simp [chunkAt]

/-- Rule R148: the whole framebuffer, read after it was overwritten. -/
theorem map_readByte_overwritten (m : Memory) {bs : List Byte} {n : Nat} (h : bs.length = n) :
    (List.range n).map (readByte (writeBytes m 0 bs)) = bs := by
  subst h
  refine List.ext_getElem (by simp) fun a _ ha => Option.some_injective _ ?_
  rw [List.getElem_map, List.getElem_range, readByte_overwritten m ha, List.getElem?_eq_getElem ha]

/-- Settles O58: the `LOAD` leaves the pattern in the framebuffer, and the chunks of the `PUSH` are the framebuffer. -/
theorem loadThenPushSendsThePattern : Obligations.LoadThenPushSendsThePattern := by
  intro s sid pay rest more hI h hr ha hl hq hans
  have hwf : Instr.wf (.load pay) = true :=
    decide_eq_true (show pay.length < 65536 by have := fbSize_le hI.cfgWf; omega)
  rw [List.append_assoc] at hq
  have hload := (step_accepts_payload ⟨hI.cfgWf, hr⟩ h.1 rfl hwf rfl hq).trans (exec_load_alloc h ha hl)
  have hfb := map_readByte_overwritten s.fb hl
  refine ⟨_, _, (List.range (chunkCount s.cfg)).map (chunkAt s.cfg (writeBytes s.fb 0 pay) sid), runSteps_succ hload 0,
    hfb, runSteps_acceptedPush (step_inv hI hload) h hr ha rfl hans, rfl, fun tx htx => ?_, ?_, ?_⟩
  · obtain ⟨j, -, rfl⟩ := List.mem_map.1 htx
    exact chunkAt_bounds ..
  · rw [pushChunks_flatMap_bytes hI.cfgWf, hfb]
  · exact List.append_assoc ..

end Sys2Proof.Proofs

/-! # Update engine (`42_update_engine.md`): the acceptance of `PUSH`, the whole push, the failed push, and where its
bytes land -/

namespace Sys2Proof.Proofs

open Sys2Proof.Machine Sys2Proof.Laws

/-! ## The acceptance of `PUSH` -/

/-- Settles O38: of the gates of rule R207 the allocation alone decides, on the latched state. -/
theorem pushIsAccepted : Obligations.PushIsAccepted := by
  refine fun s sid h => ⟨fun ha => ?_, fun ha => ?_⟩
  · rw [exec_push h, withFramebuffer_of_alloc (l := latchG sid 0 s) _ ha]
    rfl
  · rw [exec_push h, withFramebuffer_unalloc (l := latchG sid 0 s) _ h.1 ha]
    rfl

/-! ## The whole push -/

theorem ceilDiv_eq_pred_div {n m : Nat} (hn : 0 < n) (hm : 0 < m) : ceilDiv n m = (n - 1) / m + 1 := by
  rw [ceilDiv, Nat.sub_add_comm hn, Nat.add_div_right _ hm]

/-- Rule R167: a larger block size gives no more chunks, so `MAXBLK >= 7` bounds them by `ceil(N / 7)`. -/
theorem chunkCount_le {c : Cfg} (hc : c.WellFormed) : chunkCount c ≤ ceilDiv c.fbSize 7 := by
  have hN := fbSize_pos hc
  have hM := maxBlk_ge hc
  rw [chunkCount, ceilDiv_eq_pred_div hN (Nat.zero_lt_of_lt hM), ceilDiv_eq_pred_div hN (by decide)]
  exact Nat.succ_le_succ (Nat.div_le_div_left hM (by decide))

/-- Rule R167: a block size of `N` or more gives one chunk. -/
theorem chunkCount_of_fbSize_le {c : Cfg} (hc : c.WellFormed) (h : c.fbSize ≤ c.maxBlk.toNat) : chunkCount c = 1 := by
  have hN := fbSize_pos hc
  rw [chunkCount, ceilDiv_eq_pred_div hN (hN.trans_le h), Nat.div_eq_of_lt (by omega)]

/-- Rules R163 to R165: the windows go to the command channel, so what a push puts on the data channel is its chunks. -/
theorem dataBytes_pushTxs {c : Cfg} (hc : c.WellFormed) (m : Memory) (sid : Byte) :
    dataBytes (pushTxs c m sid) = (List.range c.fbSize).map (readByte m) := by
  have hwindows : (windowTxs c sid).filter (fun t => t.ch == .data) = [] := rfl
  have hchunks : ((List.range (chunkCount c)).map (chunkAt c m sid)).filter (fun t => t.ch == .data) =
      (List.range (chunkCount c)).map (chunkAt c m sid) := by
    simp [List.filter_eq_self, chunkAt]
  rw [dataBytes, pushTxs, List.filter_append, hwindows, hchunks, List.nil_append, pushChunks_flatMap_bytes hc]

/-- Settles O54: the run of an accepted push, and the arithmetic of its chunks. -/
theorem pushSendsTheFramebuffer : Obligations.PushSendsTheFramebuffer := by
  refine ⟨fun s sid rest more hI h hr ha hq hans => ?_, fun c m sid hc => ⟨dataBytes_pushTxs hc m sid,
    chunkCount_of_fbSize_le hc, chunkCount_le hc⟩, rfl⟩
  refine ⟨_, runSteps_acceptedPush hI h hr ha hq hans, rfl, ?_⟩
  obtain ⟨hph, hp⟩ := h.1
  simp only [onBus, pushed, respond_ok_eq, latchG, hph, hp]
  rfl

/-! ## A transaction that fails -/

/-- Rules R113 and R201: a transaction and its answer `fail(e)`, in two steps. -/
theorem runSteps_failedTransaction {s : State} {tx : Tx} {e : Half} {more : List Answer} (hI : Inv s)
    (hr : s.resetLine = false) (hp : s.pend = false) (hph : Issuing s.phase) (htx : txOf s = some tx)
    (ha : s.answers = .fail e :: more) :
    runSteps 2 s = .next (raise (.transportFail e)
      { s with trace := s.trace ++ [⟨tx, some (.fail e)⟩], answers := more }) := by
  obtain ⟨tx', htx', hissue⟩ := step_issues hI hr hp hph
  obtain rfl : tx = tx' := by simpa using htx.symm.trans htx'
  have hfail := step_answered_fail (s := issue tx s) ⟨hI.cfgWf, hr⟩ rfl ha
  rw [failTaken, issue_trace, answerLatest_append] at hfail
  exact (runSteps_succ hissue 1).trans (runSteps_succ hfail 0)

/-! ## The failed push -/

/-- The block before transaction `k` of a push (rules R163 to R165). -/
def pushAt (s : State) : Nat → State
  | 0 => { s with phase := .winCol }
  | 1 => { s with phase := .winPage }
  | j + 2 => streamAt s (j * s.cfg.maxBlk.toNat)

theorem issuing_pushAt (s : State) (k : Nat) : Issuing (pushAt s k).phase := by
  rcases k with _ | _ | j <;> simp [pushAt, streamAt, Issuing]

/-- Rules R163 to R165: what a push sends in its phases are the transactions of rule R161, in their order. -/
theorem txOf_pushAt {s : State} (hc : s.cfg.WellFormed) {k : Nat} (hk : k < 2 + chunkCount s.cfg) :
    txOf (pushAt s k) = (pushTxs s.cfg s.fb (sessionOf s))[k]? := by
  match k with
  | 0 | 1 => rfl
  | j + 2 =>
    have hj : j < chunkCount s.cfg := by omega
    have hchunk : (pushTxs s.cfg s.fb (sessionOf s))[j + 2]? =
        ((List.range (chunkCount s.cfg)).map (chunkAt s.cfg s.fb (sessionOf s)))[j]? := rfl
    rw [pushAt, txOf_streamAt hc (chunk_start_lt hc hj).le, hchunk, List.getElem?_map, List.getElem?_range hj]
    rfl

/-- Rules R163 to R165: every transaction of a push but the last leads to the next one. -/
theorem advance_pushAt {s : State} (hc : s.cfg.WellFormed) {k : Nat} (hk : k + 1 < 2 + chunkCount s.cfg) :
    advance (pushAt s k) = .next (pushAt s (k + 1)) := by
  match k with
  | 0 => exact advance_winCol rfl
  | 1 =>
    rw [pushAt, advance_winPage rfl, pushAt, Nat.zero_mul]
    rfl
  | j + 2 =>
    have hnext : j + 1 < chunkCount s.cfg := by omega
    have hend := chunk_end hc (Nat.lt_of_succ_lt hnext)
    rw [if_pos hnext] at hend
    rw [pushAt, advance_streamAt hc (chunk_start_lt hc (Nat.lt_of_succ_lt hnext)).le hend,
      if_neg (chunk_start_lt hc hnext).ne]
    rfl

theorem take_pushTxs_length {c : Cfg} (m : Memory) (sid : Byte) {k : Nat} (hk : k < 2 + chunkCount c) :
    ((pushTxs c m sid).take k).length = k := by
  rw [List.length_take, pushTxs_length, Nat.min_eq_left hk.le]

/-- Rules R163 to R165: a push as far as its transaction `k`. -/
theorem pushAt_sends {s : State} (hc : s.cfg.WellFormed) {k : Nat} (hk : k < 2 + chunkCount s.cfg) :
    Sends (pushAt s 0) ((pushTxs s.cfg s.fb (sessionOf s)).take k) (pushAt s k) := by
  have hlen : ((pushTxs s.cfg s.fb (sessionOf s)).take k).length = k := take_pushTxs_length _ _ hk
  have h := Sends.of_states ((pushTxs s.cfg s.fb (sessionOf s)).take k) (pushAt s) fun i hi => ?_
  · rwa [hlen] at h
  have hik : i < k := hlen ▸ hi
  refine ⟨issuing_pushAt s i, ?_, advance_pushAt hc (by omega)⟩
  rw [txOf_pushAt hc (by omega), ← List.getElem?_take_of_lt hik, List.getElem?_eq_getElem hi]

theorem ofs_pushAt {s : State} (hc : s.cfg.WellFormed) {k : Nat} (h2 : 2 ≤ k) (hk : k < 2 + chunkCount s.cfg) :
    (pushAt s k).ofs.toNat = (k - 2) * s.cfg.maxBlk.toNat := by
  obtain ⟨j, rfl⟩ := Nat.exists_eq_add_of_le' h2
  exact ofs_toNat hc (chunk_start_lt hc (by omega)).le

/-- A push changes nothing but the phase and `OFS` before it ends. -/
theorem pushAt_frame (s : State) (k : Nat) :
    pushAt s k = { s with phase := (pushAt s k).phase, ofs := (pushAt s k).ofs } := by
  rcases k with _ | _ | j <;> rfl

section Accepted

variable {s l : State} {k : Nat} {more : List Answer} (hI : Inv s) (hs : step s = .next (pushAt l 0))
  (hr : l.resetLine = false) (hp : l.pend = false) (hk : k < 2 + chunkCount l.cfg)
include hI hs hr hp hk

/-- Rules R161 to R165: a push, accepted with the latches of `l`, whose first `k` transactions are answered `ok`. -/
theorem runSteps_pushAt (hans : l.answers = List.replicate k .ok ++ more) :
    runSteps (2 * k + 1) s = .next (onBus (l.trace ++ answeredOk ((pushTxs l.cfg l.fb (sessionOf l)).take k)) more
      (l.ntx + BitVec.ofNat 16 k) (pushAt l k)) := by
  have hc : l.cfg.WellFormed := (step_inv hI hs).cfgWf
  have hlen : ((pushTxs l.cfg l.fb (sessionOf l)).take k).length = k := take_pushTxs_length _ _ hk
  have hrun := (pushAt_sends hc hk).run_accepted hI hs hr hp (more := more) (hlen.symm ▸ hans)
  rwa [hlen] at hrun

/-- Rule R169: the same push, whose next transaction fails. -/
theorem runSteps_failedPush {e : Half} (hans : l.answers = List.replicate k .ok ++ .fail e :: more) :
    ∃ tx, (pushTxs l.cfg l.fb (sessionOf l))[k]? = some tx ∧ runSteps (2 * k + 1 + 2) s =
      .next (raise (.transportFail e)
        (onBus (l.trace ++ answeredOk ((pushTxs l.cfg l.fb (sessionOf l)).take k) ++ [⟨tx, some (.fail e)⟩]) more
          (l.ntx + BitVec.ofNat 16 k) (pushAt l k))) := by
  have hc : l.cfg.WellFormed := (step_inv hI hs).cfgWf
  have hrun := runSteps_pushAt hI hs hr hp hk hans
  have htx := List.getElem?_eq_getElem (l := pushTxs l.cfg l.fb (sessionOf l)) (by rwa [pushTxs_length])
  exact ⟨_, htx, (runSteps_add hrun 2).trans (runSteps_failedTransaction (runSteps_inv hI hrun)
    ((congrArg State.resetLine (pushAt_frame l k)).trans hr) rfl (issuing_pushAt l k)
    ((txOf_pushAt hc hk).trans htx) rfl)⟩

end Accepted

/-- The ordinal of a transaction of a push fits the sixteen bits of `NTX` (rules R29 and R248). -/
theorem pushOrdinal_toNat {c : Cfg} (hc : c.WellFormed) {k : Nat} (hk : k < 2 + chunkCount c) :
    (BitVec.ofNat 16 k).toNat = k := by
  have hcount := chunkCount_le hc
  have hN := fbSize_le hc
  unfold ceilDiv at hcount
  rw [BitVec.toNat_ofNat]
  omega

/-- Settles O57: the push as far as transaction `k`, and that transaction's failure. -/
theorem failedPushAborts : Obligations.FailedPushAborts := by
  intro s sid k e rest more hI h hr ha hk hq hans
  obtain ⟨hph, hp⟩ := h.1
  have haccept := (step_accepts_encoded ⟨hI.cfgWf, hr⟩ h.1 rfl rfl hq).trans
    ((pushIsAccepted { s with requests := rest } sid h).1 ha)
  obtain ⟨tx, htx, hrun⟩ :=
    runSteps_failedPush (l := latchG sid 0 { s with requests := rest }) hI haccept hr hp hk hans
  rw [sessionOf_latchG] at htx hrun
  rw [show 2 * k + 1 + 2 = 1 + 2 * (k + 1) by omega] at hrun
  refine ⟨_, tx, hrun, htx, fun h2 => ?_, ?_, ?_⟩
  · rw [raise_ofs]
    exact ofs_pushAt (s := latchG sid 0 { s with requests := rest }) hI.cfgWf h2 hk
  · rw [raise_transport_errPos]
    exact (congrArg BitVec.toNat (BitVec.zero_add _)).trans (pushOrdinal_toNat hI.cfgWf hk)
  · rw [raise_eq, pushAt_frame]
    simp only [onBus, latchG, Exn.record, Exn.fatal, Exn.resultCode, Bool.or_false, responseWord_transport, hph, hp]

/-! ## Where the bytes land -/

/-- The pixel of bit `b` of byte `k`, rule R56, in the column and the page of rule R170. -/
theorem pixelAt_landing (c : Cfg) (k b : Nat) : pixelAt c k b = ((landing c k).2, 8 * (landing c k).1 + b) := rfl

/-- Settles O60: the assumption of rule R170 puts a data byte where `Pixel` of rule R56 has the framebuffer's byte. -/
theorem pushedBytesLandAsPixels : Obligations.PushedBytesLandAsPixels := by
  intro c m sid k b hc hk hb
  have haddr := pixelAddress_pixelAt c k hb
  obtain ⟨hcol, hrow⟩ := pixelAt_lt hc hk hb
  obtain ⟨-, hH⟩ := fbSize_eq hc
  rw [pixelAt_landing] at haddr hcol hrow
  refine ⟨by omega, hcol, readByte m k, ?_, ?_⟩
  · rw [dataBytes_pushTxs hc, List.getElem?_map, List.getElem?_range hk]
    rfl
  · rw [pixel_eq, haddr]

end Sys2Proof.Proofs

/-! # Read-back (`44_readback.md`): the halted block -/

namespace Sys2Proof.Proofs

open Sys2Proof.Machine Sys2Proof.Laws

/-! ## The step of a halted block -/

/-- Rule R206: the exception of a halted block changes its records alone. -/
theorem raise_halted_of_idle {s : State} (h : Idle s) :
    raise .haltedRequest s = { s with last := .halted, sticky := true, responses := s.responses ++ [0x60000000] } := by
  rw [raise_of_idle h rfl]
  simp only [Exn.fatal, Bool.or_false]
  rfl

/-- Step 1 of rule R207: every other outcome of a request is that of a block that is not halted. -/
theorem requestOutcome_halted {l t : State} (h : RequestOutcome l t) (hh : l.halt = true) :
    t = raise .haltedRequest l := by
  have running : l.halt ≠ false := by simp [hh]
  cases h with
  | raised x _ hx ht =>
    obtain rfl := hx.resolve_right running
    exact ht
  | completed _ hr | written _ _ hr | initStarted hr | singleStarted _ hr | scrollStarted _ hr | pushStarted hr =>
    exact absurd hr running

/-- Rule R206: `t` has refused the request that left `rest` at the port of a halted block. -/
def RefusedHalted (s t : State) (rest : List Word) : Prop :=
  t = { s with requests := rest, x0 := t.x0, x1 := t.x1, x2 := t.x2, x3 := t.x3, ntx := t.ntx, last := .halted,
               sticky := true, responses := s.responses ++ [0x60000000] }

theorem accepted_halted {s t : State} {f : State → State} {rest : List Word} (hi : Idle s) (hh : s.halt = true)
    (hf : Latches f) (ho : RequestOutcome (f { s with requests := rest }) t) : RefusedHalted s t rest := by
  obtain ⟨a, b, c, d, -, heq⟩ := hf
  rw [heq] at ho
  obtain rfl := (requestOutcome_halted ho hh).trans (raise_halted_of_idle hi)
  rfl

/-- The block is halted, and no reset event is due. -/
structure Halted (s : State) : Prop where
  halt : s.halt = true
  idle : Idle s
  noReset : s.resetLine = false

/-- What a step of a halted block can do. -/
inductive HaltedStep (s t : State) : Prop where
  | waited (ht : t = s)
  | refused (rest : List Word) (ht : RefusedHalted s t rest)

/-- A halted block is idle, so that its step waits or accepts a request, and rule R207 refuses what it accepts. -/
theorem step_halted {s t : State} (hs : Halted s) (h : step s = .next t) : HaltedStep s t := by
  obtain ⟨hh, hi, hr⟩ := hs
  cases step_kind h hr with
  | waited _ ht => exact .waited ht
  | executed _ _ _ _ _ _ hd _ ho =>
    exact .refused _ (accepted_halted hi hh (latched_latches (decodeRequest_notCommand hd)) ho)
  | refused w _ _ ht => exact .refused _ (accepted_halted hi hh (latchWord_latches w) (ht ▸ refuseWord_cases w _))
  | answeredOk _ hp | answeredFail _ _ hp => simp [hi.2] at hp
  | filled _ hph => simp [hi.1] at hph
  | issued _ _ hph => exact absurd hi.1 hph.1

/-! ## The run of a halted block -/

/-- From `s` to `t` requests were refused by rule R206, and neither the bus nor the framebuffer was touched. -/
structure OnlyRefused (s t : State) : Prop where
  trace : t.trace = s.trace
  fb : t.fb = s.fb
  fbAlloc : t.fbAlloc = s.fbAlloc
  responses : ∃ k, t.responses = s.responses ++ List.replicate k 0x60000000

theorem OnlyRefused.refl (s : State) : OnlyRefused s s := ⟨rfl, rfl, rfl, 0, by simp⟩

theorem OnlyRefused.trans {s t u : State} (h : OnlyRefused s t) (h' : OnlyRefused t u) : OnlyRefused s u := by
  obtain ⟨j, hj⟩ := h.responses
  obtain ⟨k, hk⟩ := h'.responses
  refine ⟨h'.trace.trans h.trace, h'.fb.trans h.fb, h'.fbAlloc.trans h.fbAlloc, j + k, ?_⟩
  rw [hk, hj, List.append_assoc, List.replicate_append_replicate]

theorem HaltedStep.keeps {s t : State} (h : HaltedStep s t) (hs : Halted s) : Halted t ∧ OnlyRefused s t := by
  obtain ⟨hh, hi, hr⟩ := hs
  cases h with
  | waited ht => rw [ht]; exact ⟨⟨hh, hi, hr⟩, .refl s⟩
  | refused rest ht => rw [ht]; exact ⟨⟨hh, hi, hr⟩, rfl, rfl, rfl, 1, rfl⟩

/-- Rule R206 over a run: halted is an invariant, and every step only refuses. -/
theorem runSteps_halted {n : Nat} {s t : State} (hs : Halted s) (h : runSteps n s = .next t) :
    Halted t ∧ OnlyRefused s t := by
  induction n generalizing s with
  | zero => cases h; exact ⟨hs, .refl _⟩
  | succ n ih =>
    cases hu : step s with
    | next u =>
      rw [runSteps_succ hu] at h
      obtain ⟨hHu, hsu⟩ := (step_halted hs hu).keeps hs
      obtain ⟨hHt, hut⟩ := ih hHu h
      exact ⟨hHt, hsu.trans hut⟩
    | fault | refused => simp [runSteps, hu] at h

/-- Settles O52: the invariant puts a halted block in `IDLE`, where every step waits or refuses. -/
theorem haltLastsUntilReset : Obligations.HaltLastsUntilReset := by
  intro n s t hI hh hr h
  obtain ⟨hH, hrun⟩ := runSteps_halted ⟨hh, hI.haltIdle hh, hr⟩ h
  exact ⟨hH.halt, hH.idle, hrun.trace, hrun.fb, hrun.fbAlloc, hrun.responses⟩

end Sys2Proof.Proofs

/-! # Exceptions (`60_exceptions.md`): the refusals, the hang, and the two fatal exceptions of `LOAD` and `INIT` -/

namespace Sys2Proof.Proofs

open Sys2Proof.Machine Sys2Proof.Laws

/-! ## The illegal request -/

theorem Latches.halt {f : State → State} (hf : Latches f) (s : State) : (f s).halt = s.halt := by
  obtain ⟨a, b, c, d, -, hlatch⟩ := hf
  rw [hlatch]

/-- Steps 1 and 2 of rule R207: a ready block that finds its request illegal refuses it, whatever the latches hold. -/
theorem gates_of_illegal {l : State} (h : l.halt = false) {ok : Bool} (hok : ok = false) (body : State → State) :
    unlessHalted (ifLegal ok body) l = raise .illegalRequest l := by
  rw [unlessHalted_of_running _ h, ifLegal_of_illegal body l hok]

/-- A row of the table whose operands are not legal by rule R78, a reserved opcode (rule R79) included, is refused. -/
theorem exec_illegal {i : Instr} {s : State} (h : s.halt = false) (hi : i.isCommand = false)
    (hl : legalInstr s.cfg i = false) : exec i s = .next (raise .illegalRequest (latched i s)) := by
  have hh := ((latched_latches hi).halt s).trans h
  cases i with
  | wrcmd | plot | loadrom | rdfb => exact congrArg Host.Outcome.next (gates_of_illegal hh hl _)
  | reserved0 | reservedC | reservedD | reservedE | reservedF =>
    exact congrArg Host.Outcome.next (unlessHalted_of_running _ hh)
  | init | awake | scroll | load | clear | push | rdreg => cases hl
  | _ => cases hi

/-- Rules R79 and R203: an illegal word is refused whether it is a row of the opcode table or not. -/
theorem step_illegal {s : State} {w : Word} {pay rest : List Word} (hR : Runs s) (h : Ready s)
    (hp : Presents s w pay rest) (hl : legalWord s.cfg w = false) :
    step s = .next (raise .illegalRequest (latchWord w { s with requests := rest })) := by
  obtain ⟨hi, hh⟩ := h
  cases hd : decodeRequest w pay with
  | ok i =>
    obtain ⟨pay', he, -⟩ := decodeRequest_reencodes s.cfg.cmdEnc hd
    have hl' : legalInstr s.cfg i = false := (legalWord_of_encode s.cfg he (decodeRequest_wf hd)).symm.trans hl
    rw [step_accepts hR hi hp hd, ← latched_of_decodeRequest hd]
    exact exec_illegal hh (decodeRequest_notCommand hd) hl'
  | error r =>
    exact (step_refuses hR hi hp hd).trans
      (congrArg _ (unlessHalted_of_running _ (((latchWord_latches w).halt _).trans hh)))

/-- Settles O9: the refusal of the latched state; neither of the two words has an opcode of rule R78's table. -/
theorem illegalRequestIsRefused : Obligations.IllegalRequestIsRefused := by
  refine ⟨fun s w pay rest hR h hp hl => ?_, fun c => ⟨rfl, rfl⟩⟩
  have hstep := step_illegal hR h hp hl
  obtain ⟨a, b, c, d, -, hlatch⟩ := latchWord_latches w
  rw [hlatch] at hstep
  exact ⟨_, hstep.trans (congrArg _ (raise_illegal_of_idle h.1)), rfl⟩

/-! ## The halted block -/

/-- Settles O11: every outcome of a request of a halted block is the refusal, and no step but a reset clears `HALT`. -/
theorem haltedBlockRefusesEveryRequest : Obligations.HaltedBlockRefusesEveryRequest := by
  refine ⟨fun s w pay rest hR hi hh hp => ?_, fun s t hh hs => ?_⟩
  · obtain ⟨t, ht, ho⟩ := step_accepted hR hi hp
    exact ⟨t, ht, accepted_halted hi hh (latchWord_latches w) ho⟩
  · cases hr : s.resetLine with
    | true => simp [step_reset_eq hs hr]
    | false =>
      obtain ⟨-, hkept, -⟩ := step_flags_rise hs hr
      simp [hkept hh]

/-! ## The first `INIT` without a framebuffer -/

/-- Settles O56: the seventeen commands, then the fill step, which finds no framebuffer. -/
theorem failedAllocationHalts : Obligations.FailedAllocationHalts := by
  intro s sid rest more hI h hr ha hv hq hans
  obtain ⟨hph, hp⟩ := h.1
  have hcommands := runSteps_initCommands hI h hr hq hans
  have hfill := (step_fills ⟨(runSteps_inv hI hcommands).cfgWf, hr⟩ rfl rfl).trans
    (congrArg _ (fillStep_of_unavailable ha hv))
  refine ⟨_, (runSteps_add hcommands 1).trans (runSteps_succ hfill 0), ?_⟩
  rw [raise_eq]
  simp only [onBus, initAt, latchG, Exn.record, Exn.fatal, Exn.resultCode, Bool.or_true, hph, hp]
  rfl

/-! ## The hang -/

/-- Settles O19: without an answer the answer step faults; a reset drops the transaction. -/
theorem unansweredTransactionHangs : Obligations.UnansweredTransactionHangs := by
  intro s hc hp ha
  refine ⟨fun hr => ?_, fun hr => ⟨applyReset s, step_reset hc hr, ⟨rfl, rfl⟩, rfl⟩⟩
  rw [step_eq_runStep hc hr, runStep_pend hp, answerStep, ha]

/-! ## `LOAD` of a wrong length -/

theorem loadBody_of_wrongLength {pay : List Byte} {l : State} (h : pay.length ≠ l.cfg.fbSize) :
    loadBody pay l = raise .lengthMismatch l := if_pos h

/-- Settles O34: the length is checked before the allocation (rule R207 step 4), and the exception is fatal. -/
theorem loadOfWrongLengthHalts : Obligations.LoadOfWrongLengthHalts := by
  intro s pay h hl
  refine congrArg Host.Outcome.next ((unlessHalted_of_running (l := latchG 0 (payloadLen pay) s) _ h.2).trans ?_)
  rw [loadBody_of_wrongLength (l := latchG 0 (payloadLen pay) s) hl,
    raise_of_idle (s := latchG 0 (payloadLen pay) s) h.1 rfl]
  simp only [Exn.fatal, Bool.or_true]
  rfl

end Sys2Proof.Proofs

/-! # Reset and hazards (`70_reset_and_hazards.md`): the idle block without a request -/

namespace Sys2Proof.Proofs

open Sys2Proof.Machine Sys2Proof.Laws

theorem fetchRequest_eq_none_iff {s : State} :
    fetchRequest s.requests = none ↔ ∀ w pay rest, ¬Presents s w pay rest := by
  simp only [Option.eq_none_iff_forall_ne_some, Prod.forall, presents_iff_fetchRequest, ne_eq]

/-- Settles O13: the accepting step of an idle block finds no request to fetch, and answers its own state. -/
theorem idleBlockWaits : Obligations.IdleBlockWaits := by
  intro s hR hi hnone
  calc
    step s = runStep s := step_eq_runStep hR.1 hR.2
    _ = acceptStep s := runStep_idle hi
    _ = .next s := acceptStep_wait (fetchRequest_eq_none_iff.2 hnone)

end Sys2Proof.Proofs
